-- ==== Sys2Proof/Word.lean ====
section
/-! DEFINITION. The word types of the engine (`spec/00_scope.md` rules R3, R4): every address, PTE and mask is an unsigned
64-bit integer, memory is made of bytes, a device id and an address-space or virtual-machine identifier have 16 bits. -/

namespace Sys2Proof

/-- A 64-bit unsigned integer: an address, a page-table entry, a request or response word (rules R3, R4). -/
abbrev Word := BitVec 64

/-- The smallest unit the Memory Reader delivers (rule R52). -/
abbrev Byte := BitVec 8

/-- A device id: bits [15:8] the bus number, bits [7:0] the function-like part (rule R40). -/
abbrev DevId := BitVec 16

end Sys2Proof
end

