-- ==== Sys2Proof/Syntax.lean ====
section
/-! DEFINITION. The data the commands are written in: the scalar types of `spec/10_state.md` (rules R38, R39, R23 to R25), the
thirteen commands of `spec/30_encoding.md` rule R93 with their operands (rule R91), the request as it arrives on the port
(rules R90 to R92), and the names under which a request is turned away at decode (rule R95). -/

namespace Sys2Proof

/-- The requested access (rule R38). -/
inductive AccessKind where
  /-- code `0b01` -/
  | read
  /-- code `0b10` -/
  | write
  deriving DecidableEq, Repr

/-- The translation stage a configuration governs (rule R23: 1 and 2 are its legal values). -/
inductive Stage where
  /-- `stage = 1`: IOVA to output address, two regions -/
  | s1
  /-- `stage = 2`: IPA to output address, one table descriptor -/
  | s2
  deriving DecidableEq, Repr

/-- One of the two stage-1 regions (rule R24). -/
inductive RegionIx where
  /-- `tt[0]`, TTBR0-style -/
  | r0
  /-- `tt[1]`, TTBR1-style -/
  | r1
  deriving DecidableEq, Repr

/-- A granule; its `granule_shift` is 12, 14 or 16 (rules R3, R88). -/
inductive Granule where
  /-- 4K, shift 12, tag 1 -/
  | g4K
  /-- 16K, shift 14, tag 2 -/
  | g16K
  /-- 64K, shift 16, tag 3 -/
  | g64K
  deriving DecidableEq, Repr

/-- What a page-table entry is at its level (rule R115). -/
inductive PteClass where
  /-- rule R116 -/
  | invalid
  /-- rule R117 -/
  | reserved
  /-- rule R118 -/
  | table
  /-- rule R119 -/
  | page
  /-- rule R120 -/
  | block
  deriving DecidableEq, Repr

/-- `TranslationTableInfo`, the type of `tt[0]` and `tt[1]` (rule R24). -/
structure TableInfo where
  /-- any lookup in this region is a translation fault -/
  disabled : Bool
  /-- physical base address of the root table -/
  tableBase : BitVec 48
  /-- `input_size_complement`: the input address width is `64 - tsz` -/
  tsz : BitVec 6
  /-- the granule tag; tag 0 makes the region unwalkable -/
  tg : BitVec 2
  /-- `hierarchical_attr_disable`: the table descriptors' permission override is ignored -/
  had : Bool
  deriving DecidableEq, Repr, Inhabited

/-- The stage-2 table descriptor `s2` (rule R25). -/
structure Stage2Info where
  /-- physical base of the (possibly concatenated) root tables -/
  tableBase : BitVec 48
  /-- the input width is `64 - tsz` -/
  tsz : BitVec 6
  /-- the granule tag -/
  tg : BitVec 2
  /-- starting level selector -/
  sl0 : BitVec 2
  /-- the stage-2 access-flag fault disable -/
  affd : Bool
  deriving DecidableEq, Repr, Inhabited

/-- `TranslationConfig`, one per device record (rule R23). -/
structure TranslationConfig where
  /-- 1 or 2; 0 and 3 make the config ill-formed -/
  stage : BitVec 2
  /-- the 64-bit VMSA format flag; clear makes the config ill-formed -/
  aa64 : Bool
  /-- the stage-1 access-flag fault disable -/
  affd : Bool
  /-- top-byte-ignore, bit 0 for region 0 and bit 1 for region 1 -/
  tbi : BitVec 2
  /-- output-address-size, a width in bits -/
  oas : BitVec 6
  /-- address-space identifier, in every IOTLB key -/
  asid : BitVec 16
  /-- virtual-machine identifier, in every IOTLB key -/
  vmid : BitVec 16
  /-- stage-2 effective physical-address-size limit, a width in bits -/
  effPs : BitVec 6
  /-- stage-1 region 0 -/
  tt0 : TableInfo
  /-- stage-1 region 1 -/
  tt1 : TableInfo
  /-- the single stage-2 table descriptor -/
  s2 : Stage2Info
  deriving DecidableEq, Repr, Inhabited

/-- The thirteen commands (rule R93), each with the request fields it reads (rule R91), as they stand on the wire. -/
inductive Instr where
  /-- `TRANSLATE d<dev>, <ia>, R|W` (rule R184) -/
  | translate (dev : DevId) (addr : Word) (acc : BitVec 2)
  /-- `PTW d<dev>, <ia>, R|W` (rule R180) -/
  | ptw (dev : DevId) (addr : Word) (acc : BitVec 2)
  /-- `TLB_LOOKUP d<dev>, r0|r1, <ia>` (rule R205) -/
  | tlbLookup (dev : DevId) (rgn : RegionIx) (addr : Word)
  /-- `TLB_INSERT d<dev>, <iap>, <ta>, <granule>, L<level>, <perm>` (rule R209) -/
  | tlbInsert (dev : DevId) (addr data : Word) (tg lvl perm : BitVec 2)
  /-- `TLBI_ALL` (rule R211) -/
  | tlbiAll
  /-- `TLBI_ASID <asid>` (rule R212) -/
  | tlbiAsid (asid : BitVec 16)
  /-- `TLBI_VMID <vmid>` (rule R213) -/
  | tlbiVmid (vmid : BitVec 16)
  /-- `TLBI_IOVA <asid>|*, <vmid>|*, <iova>, <granule>|-, <num_pages>, ttl=<n>` (rule R214) -/
  | tlbiIova (aw vw : Bool) (asid vmid : BitVec 16) (tg lvl : BitVec 2) (addr data : Word)
  /-- `DEV_GET d<dev>` (rule R231) -/
  | devGet (dev : DevId)
  /-- `CFG_SET d<dev>, <config>` (rule R233) -/
  | cfgSet (dev : DevId) (cfg : TranslationConfig)
  /-- `CFG_INV d<dev>` (rule R234) -/
  | cfgInv (dev : DevId)
  /-- `CNT_READ d<dev>` (rule R235) -/
  | cntRead (dev : DevId)
  /-- `CNT_CLR d<dev>` (rule R236) -/
  | cntClr (dev : DevId)
  deriving DecidableEq, Repr

/-- The operation a legal `op` field names, one per row of rule R93. -/
inductive Opcode where
  | translate | ptw | tlbLookup | tlbInsert | tlbiAll | tlbiAsid | tlbiVmid | tlbiIova
  | devGet | cfgSet | cfgInv | cntRead | cntClr
  deriving DecidableEq, Repr

/-- A request on the port: `W0..W3`, and `K0..K3` for format C (rules R90 to R92). A format R request has no `K` words; the
four fields are then not looked at. -/
structure Request where
  w0 : Word
  w1 : Word
  w2 : Word
  w3 : Word
  k0 : Word
  k1 : Word
  k2 : Word
  k3 : Word
  deriving DecidableEq, Repr, Inhabited

/-- Why a request names no command (rule R95). Each is answered `BadCommand`. -/
inductive DecodeError where
  /-- `op` is not in rule R93 -/
  | reservedOpcode (op : BitVec 8)
  /-- a bit of `W0` outside the command's fields is set -/
  | nonzeroW0
  /-- `addr` is nonzero in a command that does not use it -/
  | nonzeroW1
  /-- `data` is nonzero in a command that does not use it -/
  | nonzeroW2
  /-- a reserved bit of `W3` is set, or `dev` in a command that does not use it -/
  | nonzeroW3
  /-- a reserved bit of a config word of `CFG_SET` is set (rule R100) -/
  | nonzeroConfigWord
  deriving DecidableEq, Repr

end Sys2Proof
end

