-- ==== Sys2Proof/Config.lean ====
section
/-! DEFINITION. What an implementation fixes (`spec/00_scope.md` rule R3) and the values the spec leaves open. `Params` is held
in State and no step changes it. The opaque constants are FREE VALUES: no proof can see what they are. -/

namespace Sys2Proof

/-- The two parameters of an engine instance (rule R3, decisions D22 and D29). -/
structure Params where
  /-- `IOTLB_CAP`, at least 1 -/
  iotlbCap : Nat
  /-- `CNT_W`, the width of each counter in bits -/
  cntW : Nat
  deriving DecidableEq, Repr

/-- The defaults of rule R3: 256 entries, 32-bit counters. -/
def Params.default : Params := { iotlbCap := 256, cntW := 32 }

/-- What rule R3 asks of the parameters; a counter must fit the 64-bit response word it is read through (rule R235). -/
abbrev Params.wf (p : Params) : Prop := 1 ≤ p.iotlbCap ∧ p.cntW ≤ 64

/-- FREE VALUE: the `cfg` fields of a record that `DEV_GET` creates are unspecified (rules R44, R231). The argument is State's
`draws`, so that two records have unrelated values. -/
opaque Config.unspecifiedConfig : Nat → TranslationConfig

/-- FREE VALUE: the `fresh` address-space handle of a new record (rules R41, R231), an opaque token. -/
opaque Config.freshHandle : Nat → Word

end Sys2Proof
end

