-- ==== Sys2Proof/Machine/Operands.lean ====
section
/-! DEFINITION. Every operand form of the commands and every pure function of the walk: the operators of `spec/00_scope.md`
rule R5, the wire codes of `spec/30_encoding.md` rules R88 and R89, the Descriptor Decoder of `spec/40_descriptor_decoder.md`
(rules R110 to R124), the walkability rules R26 and R28 and the start levels (rules R141, R161), and the Translation-Table
Selector of `spec/41_table_selector.md` (rules R130 to R139). Nothing here reads or writes state. -/

namespace Sys2Proof.Machine

/-! ### Operators (rule R5) -/

/-- `mask(n) = 2^n - 1` for `0 <= n <= 64` (rule R5). -/
def mask (n : Nat) : Word := BitVec.ofNat 64 (2 ^ n - 1)

/-- `align_down(x, 2^n) = x & ~(2^n - 1)` (rule R5). -/
def alignDown (x : Word) (n : Nat) : Word := x &&& ~~~ mask n

/-- The 64-bit value of eight bytes, the first the least significant: the one place where a byte order is fixed (rules R52,
R90). -/
def leWord (b : Nat → Byte) : Word :=
  b 7 ++ b 6 ++ b 5 ++ b 4 ++ b 3 ++ b 2 ++ b 1 ++ b 0

/-! ### Wire codes -/

/-- The access as a permission mask: `Read = 0b01`, `Write = 0b10` (rule R38). -/
def accessMask : AccessKind → BitVec 2
  | .read => 0b01#2
  | .write => 0b10#2

/-- The access an `acc` field names; `0b00` and `0b11` are illegal (rule R89). -/
def accessOfCode (c : BitVec 2) : Option AccessKind :=
  if c = 0b01#2 then some .read else if c = 0b10#2 then some .write else none

/-- Access `a` is permitted by `p` exactly when `(p & a) = a` (rule R39). -/
def permits (p : BitVec 2) (a : AccessKind) : Bool := p &&& accessMask a == accessMask a

/-- The stage a `stage` field names; 0 and 3 make the config ill-formed (rule R23). -/
def stageOfCode (c : BitVec 2) : Option Stage :=
  if c = 1#2 then some .s1 else if c = 2#2 then some .s2 else none

/-- The `fault_stage` code of a stage (rule R96). -/
def stageCode : Stage → BitVec 2
  | .s1 => 1#2
  | .s2 => 2#2

/-- `granule_shift` (rule R88). -/
def shiftOf : Granule → Nat
  | .g4K => 12
  | .g16K => 14
  | .g64K => 16

/-- The granule tag, `(g - 10) / 2` (rules R31, R88). -/
def tagOf : Granule → BitVec 2
  | .g4K => 1#2
  | .g16K => 2#2
  | .g64K => 3#2

/-- The granule a tag names; tag 0 is "granule not specified" (rule R88). -/
def granuleOfTag (t : BitVec 2) : Option Granule :=
  if t = 1#2 then some .g4K else if t = 2#2 then some .g16K else if t = 3#2 then some .g64K else none

/-- Region `r` of a config (rule R23). -/
def regionOf (cfg : TranslationConfig) : RegionIx → TableInfo
  | .r0 => cfg.tt0
  | .r1 => cfg.tt1

/-- `inputsize = 64 - tsz` (rules R24, R25). -/
def inputSize (tsz : BitVec 6) : Nat := 64 - tsz.toNat

/-! ### Geometry (rules R110 to R112) -/

/-- `level_shift(level, g) = g + (3 - level) * (g - 3)`, for levels -1 to 3 (rule R110). -/
def levelShift (level : Int) (g : Granule) : Nat := (shiftOf g + (3 - level) * (shiftOf g - 3)).toNat

/-- `stride(g) = g - 3` (rule R111). -/
def stride (g : Granule) : Nat := shiftOf g - 3

/-- `index(ia, inputsize, level, g) = ((ia & mask(inputsize)) >> level_shift(level, g)) & mask(g - 3)` (rule R112). -/
def tableIndex (ia : Word) (inputsize level : Nat) (g : Granule) : Word :=
  ((ia &&& mask inputsize) >>> levelShift level g) &&& mask (stride g)

/-- The `address_mask` of a level and granule, `2^level_shift(level, g) - 1` (rule R33). -/
def blockMask (level : Nat) (g : Granule) : Word := mask (levelShift level g)

/-! ### Fields of a page-table entry (rules R80, R113, R114, R121 to R123) -/

/-- `output_address(pte, shift) = pte & mask(48) & ~mask(shift)` (rule R114). -/
def outputAddress (pte : Word) (shift : Nat) : Word := pte &&& mask 48 &&& ~~~ mask shift

/-- `access_permission(pte) = pte[7:6]`: AP at stage 1, S2AP at stage 2 (rule R121). -/
def accessPermission (pte : Word) : BitVec 2 := pte.extractLsb' 6 2

/-- `table_permission_override(pte) = pte[62:61]`, APTABLE (rule R122). -/
def tablePermissionOverride (pte : Word) : BitVec 2 := pte.extractLsb' 61 2

/-- `access_flag(pte) = (pte[10] = 1)` (rule R123). -/
def accessFlag (pte : Word) : Bool := pte.getLsbD 10

/-- `table_forbids_write(apt) = (apt[1] = 1)` (rule R122). -/
def tableForbidsWrite (apt : BitVec 2) : Bool := apt.getLsbD 1

/-- `s1_leaf_perm_fault(ap, acc) = (acc = Write) and ap[1] = 1` (rule R121). -/
def s1LeafPermFault (ap : BitVec 2) (acc : AccessKind) : Bool := acc == .write && ap.getLsbD 1

/-- `s2_leaf_perm_fault(s2ap, acc) = (s2ap & acc) != acc` (rule R121). -/
def s2LeafPermFault (s2ap : BitVec 2) (acc : AccessKind) : Bool := !permits s2ap acc

/-- The permission of a stage-1 mapping: reads always, writes when neither the leaf nor the path forbids them (rule R151). -/
def s1Permission (ap : BitVec 2) (wrForbid : Bool) : BitVec 2 :=
  if !ap.getLsbD 1 && !wrForbid then 0b11#2 else 0b01#2

/-- `classify(pte, level)` (rules R115 to R120). -/
def classify (pte : Word) (level : Nat) : PteClass :=
  if pte.getLsbD 0 = false then .invalid
  else if level = 3 ∧ pte.extractLsb' 0 2 = 0b01#2 then .reserved
  else if level = 3 ∧ pte.extractLsb' 0 2 = 0b11#2 then .page
  else if level < 3 ∧ pte.extractLsb' 0 2 = 0b11#2 then .table
  else .block

/-! ### Which tables can be walked (rules R26, R28, R141, R161) -/

/-- The stage-1 start level `4 - floor((inputsize - 4) / stride)` (rule R141; `spec/90_conflicts.md` C1). -/
def startLevel1 (inputsize : Nat) (g : Granule) : Nat := 4 - (inputsize - 4) / stride g

/-- The stage-2 start level `(g = 12) ? 2 - sl0 : 3 - sl0` (rule R161); -1 for 4K with `sl0 = 3`. -/
def startLevel2 (sl0 : BitVec 2) (g : Granule) : Int :=
  match g with
  | .g4K => 2 - sl0.toNat
  | .g16K => 3 - sl0.toNat
  | .g64K => 3 - sl0.toNat

/-- The granule of a walkable stage-1 region, none when the region is not walkable (rule R26). -/
def walkable1 (tt : TableInfo) : Option Granule :=
  match granuleOfTag tt.tg with
  | none => none
  | some g => if shiftOf g + 1 ≤ inputSize tt.tsz ∧ inputSize tt.tsz ≤ 48 then some g else none

/-- The granule of a walkable stage-2 descriptor, none when it is not walkable (rule R28). -/
def walkable2 (s2 : Stage2Info) : Option Granule :=
  match granuleOfTag s2.tg with
  | none => none
  | some g =>
    if 0 ≤ startLevel2 s2.sl0 g ∧ startLevel2 s2.sl0 g ≤ 3 ∧
        levelShift (startLevel2 s2.sl0 g) g + 1 ≤ inputSize s2.tsz ∧
        inputSize s2.tsz ≤ min 48 (levelShift (startLevel2 s2.sl0 g - 1) g + 4)
    then some g else none

/-! ### The selector (rules R130 to R139) -/

/-- `tbi_active`: bit 55 of the address picks the flag of region 1 or of region 0 (rule R131). -/
def tbiActive (cfg : TranslationConfig) (ia : Word) : Bool :=
  if ia.getLsbD 55 then cfg.tbi.getLsbD 1 else cfg.tbi.getLsbD 0

/-- The width of the tested range `H_r`, `tsz - 8 * tbi_active`, 0 when that is not positive (rules R131, R138). -/
def testedWidth (tsz : BitVec 6) (tbi : Bool) : Nat := tsz.toNat - 8 * tbi.toNat

/-- The tested range `H_r = ia[63 - 8 * tbi_active : 64 - tsz]` (rule R131). -/
def testedRange (ia : Word) (tsz : BitVec 6) (tbi : Bool) : BitVec (testedWidth tsz tbi) :=
  ia.extractLsb' (64 - tsz.toNat) (testedWidth tsz tbi)

/-- `select(cfg, ia)`; none is `NoRegion` (rules R132 to R136, in that order). -/
def select (cfg : TranslationConfig) (ia : Word) : Option RegionIx :=
  if cfg.tt0.tsz ≠ 0 ∧ testedRange ia cfg.tt0.tsz (tbiActive cfg ia) = 0 then some .r0
  else if cfg.tt1.tsz ≠ 0 ∧ testedRange ia cfg.tt1.tsz (tbiActive cfg ia) = BitVec.allOnes _ then some .r1
  else if cfg.tt0.tsz = 0 then some .r0
  else if cfg.tt1.tsz = 0 then some .r1
  else none

/-! ### Operand constraints checked before anything is done (rule R94) -/

/-- `TLB_INSERT`: `tg` names a granule, `addr` and `data` are aligned to the block of `lvl` (rules R94, R209). -/
def insertOperands (tg lvl : BitVec 2) (addr data : Word) : Option Granule :=
  match granuleOfTag tg with
  | none => none
  | some g => if addr &&& blockMask lvl.toNat g = 0 ∧ data &&& blockMask lvl.toNat g = 0 then some g else none

/-- `TLBI_IOVA`: a wildcarded identifier is given as zero (rule R94). -/
def iovaOperandsLegal (aw vw : Bool) (asid vmid : BitVec 16) : Bool :=
  (!aw || asid == 0) && (!vw || vmid == 0)

/-- The page size of a range invalidation, as a shift; tag 0 stands for 4K (rule R215). -/
def rangeShift (tg : BitVec 2) : Nat := if tg = 0 then 12 else 10 + 2 * tg.toNat

end Sys2Proof.Machine
end

