-- ==== Sys2Proof/WellFormed.lean ====
section
/-! DEFINITION. The operand constraints of `spec/30_encoding.md` rule R94: which terms of `Instr` are commands whose operands
are legal. The field widths are in the types of `Instr`; a term that breaks a constraint is answered `BadCommand`. -/

namespace Sys2Proof

open Sys2Proof.Machine

/-- Rule R94, command by command. -/
def Instr.wellFormed : Instr → Bool
  | .translate _ _ acc => (accessOfCode acc).isSome
  | .ptw _ _ acc => (accessOfCode acc).isSome
  | .tlbLookup _ _ _ => true
  | .tlbInsert _ addr data tg lvl _ => (insertOperands tg lvl addr data).isSome
  | .tlbiAll => true
  | .tlbiAsid _ => true
  | .tlbiVmid _ => true
  | .tlbiIova aw vw asid vmid _ _ _ _ => iovaOperandsLegal aw vw asid vmid
  | .devGet _ => true
  | .cfgSet _ _ => true
  | .cfgInv _ => true
  | .cntRead _ => true
  | .cntClr _ => true

end Sys2Proof
end

