-- ==== Sys2Proof/Decode.lean ====
section
/-! DEFINITION. From a request's words to a command and back (`spec/30_encoding.md` rules R90 to R95 and R100). `decode` is
total: it answers a command or turns the request away by name. The operand constraints of rule R94 are `Instr.wellFormed`; a
decoded command that breaks one is answered `BadCommand` by its own meaning, before any state is read (rule R259). -/

namespace Sys2Proof

/-! ### The opcode map (rule R93) -/

/-- The `op` code of a command (rule R93). -/
def opcodeCode : Opcode → BitVec 8
  | .translate => 0x01
  | .ptw => 0x02
  | .tlbLookup => 0x03
  | .tlbInsert => 0x04
  | .tlbiAll => 0x08
  | .tlbiAsid => 0x09
  | .tlbiVmid => 0x0A
  | .tlbiIova => 0x0B
  | .devGet => 0x10
  | .cfgSet => 0x11
  | .cfgInv => 0x12
  | .cntRead => 0x13
  | .cntClr => 0x14

/-- The rows of rule R93. -/
def allOpcodes : List Opcode :=
  [.translate, .ptw, .tlbLookup, .tlbInsert, .tlbiAll, .tlbiAsid, .tlbiVmid, .tlbiIova, .devGet, .cfgSet, .cfgInv,
   .cntRead, .cntClr]

/-- The command an `op` field names; every code outside rule R93 is reserved (rule R95). -/
def opcodeOfCode (op : BitVec 8) : Option Opcode := allOpcodes.find? fun o => opcodeCode o == op

/-- The bits of `W0` that must be zero in a command: every field of rule R91 its row of rule R93 does not list, and the
reserved bits [31:19]. -/
def w0Zero : Opcode → Word
  | .translate => 0xFFFFFFFFFFFFFC00
  | .ptw => 0xFFFFFFFFFFFFFC00
  | .tlbLookup => 0xFFFFFFFFFFFFFB00
  | .tlbInsert => 0xFFFFFFFFFFF81F00
  | .tlbiAll => 0xFFFFFFFFFFFFFF00
  | .tlbiAsid => 0xFFFF0000FFFFFF00
  | .tlbiVmid => 0x0000FFFFFFFFFF00
  | .tlbiIova => 0x00000000FFFE0700
  | .devGet => 0xFFFFFFFFFFFFFF00
  | .cfgSet => 0xFFFFFFFFFFFFFF00
  | .cfgInv => 0xFFFFFFFFFFFFFF00
  | .cntRead => 0xFFFFFFFFFFFFFF00
  | .cntClr => 0xFFFFFFFFFFFFFF00

/-- Whether the command reads `addr` (rule R93). -/
def usesAddr : Opcode → Bool
  | .translate => true
  | .ptw => true
  | .tlbLookup => true
  | .tlbInsert => true
  | .tlbiAll => false
  | .tlbiAsid => false
  | .tlbiVmid => false
  | .tlbiIova => true
  | .devGet => false
  | .cfgSet => false
  | .cfgInv => false
  | .cntRead => false
  | .cntClr => false

/-- Whether the command reads `data` (rule R93). -/
def usesData : Opcode → Bool
  | .translate => false
  | .ptw => false
  | .tlbLookup => false
  | .tlbInsert => true
  | .tlbiAll => false
  | .tlbiAsid => false
  | .tlbiVmid => false
  | .tlbiIova => true
  | .devGet => false
  | .cfgSet => false
  | .cfgInv => false
  | .cntRead => false
  | .cntClr => false

/-- Whether the command reads `dev` (rule R93). -/
def usesDev : Opcode → Bool
  | .translate => true
  | .ptw => true
  | .tlbLookup => true
  | .tlbInsert => true
  | .tlbiAll => false
  | .tlbiAsid => false
  | .tlbiVmid => false
  | .tlbiIova => false
  | .devGet => true
  | .cfgSet => true
  | .cfgInv => true
  | .cntRead => true
  | .cntClr => true

/-- Format C, eight words, is used by `CFG_SET` alone (rule R90). -/
def isFormatC : Opcode → Bool
  | .translate => false
  | .ptw => false
  | .tlbLookup => false
  | .tlbInsert => false
  | .tlbiAll => false
  | .tlbiAsid => false
  | .tlbiVmid => false
  | .tlbiIova => false
  | .devGet => false
  | .cfgSet => true
  | .cfgInv => false
  | .cntRead => false
  | .cntClr => false

/-- The reserved bits of the config words `K0..K3` are zero (rule R100). -/
def configWordsClean (r : Request) : Bool :=
  r.k0 &&& 0xFFFC000000000000 == 0 && r.k1 &&& 0xFC00000000000000 == 0 &&
  r.k2 &&& 0xFC00000000000000 == 0 && r.k3 &&& 0xF800000000000000 == 0

/-! ### The fields of a request (rules R91, R100) -/

/-- `W0[7:0]`. -/
def opField (r : Request) : BitVec 8 := r.w0.extractLsb' 0 8
/-- `W0[9:8]`. -/
def accField (r : Request) : BitVec 2 := r.w0.extractLsb' 8 2
/-- `W0[10]`. -/
def rgnField (r : Request) : RegionIx := if r.w0.getLsbD 10 then .r1 else .r0
/-- `W0[11]`. -/
def awField (r : Request) : Bool := r.w0.getLsbD 11
/-- `W0[12]`. -/
def vwField (r : Request) : Bool := r.w0.getLsbD 12
/-- `W0[14:13]`. -/
def tgField (r : Request) : BitVec 2 := r.w0.extractLsb' 13 2
/-- `W0[16:15]`. -/
def lvlField (r : Request) : BitVec 2 := r.w0.extractLsb' 15 2
/-- `W0[18:17]`. -/
def permField (r : Request) : BitVec 2 := r.w0.extractLsb' 17 2
/-- `W0[47:32]`. -/
def asidField (r : Request) : BitVec 16 := r.w0.extractLsb' 32 16
/-- `W0[63:48]`. -/
def vmidField (r : Request) : BitVec 16 := r.w0.extractLsb' 48 16
/-- `W3[15:0]`. -/
def devField (r : Request) : DevId := r.w3.extractLsb' 0 16

/-- A stage-1 region from `K1` or `K2` (rule R100). -/
def tableInfoOfWord (k : Word) : TableInfo where
  disabled := k.getLsbD 56
  tableBase := k.extractLsb' 0 48
  tsz := k.extractLsb' 48 6
  tg := k.extractLsb' 54 2
  had := k.getLsbD 57

/-- The stage-2 descriptor from `K3` (rule R100). -/
def stage2InfoOfWord (k : Word) : Stage2Info where
  tableBase := k.extractLsb' 0 48
  tsz := k.extractLsb' 48 6
  tg := k.extractLsb' 54 2
  sl0 := k.extractLsb' 56 2
  affd := k.getLsbD 58

/-- The config in `K0..K3` (rule R100). -/
def configOfRequest (r : Request) : TranslationConfig where
  stage := r.k0.extractLsb' 0 2
  aa64 := r.k0.getLsbD 2
  affd := r.k0.getLsbD 3
  tbi := r.k0.extractLsb' 4 2
  oas := r.k0.extractLsb' 6 6
  asid := r.k0.extractLsb' 12 16
  vmid := r.k0.extractLsb' 28 16
  effPs := r.k0.extractLsb' 44 6
  tt0 := tableInfoOfWord r.k1
  tt1 := tableInfoOfWord r.k2
  s2 := stage2InfoOfWord r.k3

/-- The operands of a command, read from its request (rules R91, R93). -/
def assemble (o : Opcode) (r : Request) : Instr :=
  match o with
  | .translate => .translate (devField r) r.w1 (accField r)
  | .ptw => .ptw (devField r) r.w1 (accField r)
  | .tlbLookup => .tlbLookup (devField r) (rgnField r) r.w1
  | .tlbInsert => .tlbInsert (devField r) r.w1 r.w2 (tgField r) (lvlField r) (permField r)
  | .tlbiAll => .tlbiAll
  | .tlbiAsid => .tlbiAsid (asidField r)
  | .tlbiVmid => .tlbiVmid (vmidField r)
  | .tlbiIova => .tlbiIova (awField r) (vwField r) (asidField r) (vmidField r) (tgField r) (lvlField r) r.w1 r.w2
  | .devGet => .devGet (devField r)
  | .cfgSet => .cfgSet (devField r) (configOfRequest r)
  | .cfgInv => .cfgInv (devField r)
  | .cntRead => .cntRead (devField r)
  | .cntClr => .cntClr (devField r)

/-- The command a request names, or why it names none (rules R93, R95). Total over all request values. -/
def decode (r : Request) : Except DecodeError Instr :=
  match opcodeOfCode (opField r) with
  | none => .error (.reservedOpcode (opField r))
  | some o =>
    if r.w0 &&& w0Zero o ≠ 0 then .error .nonzeroW0
    else if usesAddr o = false ∧ r.w1 ≠ 0 then .error .nonzeroW1
    else if usesData o = false ∧ r.w2 ≠ 0 then .error .nonzeroW2
    else if r.w3 &&& (if usesDev o then 0xFFFFFFFFFFFF0000 else 0xFFFFFFFFFFFFFFFF) ≠ 0 then .error .nonzeroW3
    else if isFormatC o = true ∧ configWordsClean r = false then .error .nonzeroConfigWord
    else .ok (assemble o r)

/-! ### The transport (rule R90) -/

/-- A request from the bytes of its words in order, each word little-endian (rule R90); a byte that is not sent is 0. -/
def requestOfBytes (b : Nat → Byte) : Request where
  w0 := Machine.leWord fun i => b i
  w1 := Machine.leWord fun i => b (8 + i)
  w2 := Machine.leWord fun i => b (16 + i)
  w3 := Machine.leWord fun i => b (24 + i)
  k0 := Machine.leWord fun i => b (32 + i)
  k1 := Machine.leWord fun i => b (40 + i)
  k2 := Machine.leWord fun i => b (48 + i)
  k3 := Machine.leWord fun i => b (56 + i)

/-- The request whose bits, numbered from bit 0 of `W0` upwards, are the low `nbits` bits of `w`; all others are 0. -/
def requestOfNat (nbits w : Nat) : Request := requestOfBytes fun i => BitVec.ofNat 8 ((w % 2 ^ nbits) >>> (8 * i))

/-- The bytes of a serialised request as a total function of the position: a position past the end reads 0. -/
def byteOrZero (bytes : List Byte) (i : Nat) : Byte := bytes.getD i 0

/-- A request serialised to bytes, decoded: `none` when the bytes are too few for its format (rule R90). -/
def decodeBytes (bytes : List Byte) : Option (Except DecodeError Instr) :=
  let r := requestOfBytes (byteOrZero bytes)
  let needed := match opcodeOfCode (opField r) with
    | some o => if isFormatC o then 64 else 32
    | none => 32
  if bytes.length < needed then none else some (decode r)

/-- The command the decoder reads from a request whose bits are `w` (bit 0 the least significant bit of `W0`), `nbits` of them
given and every later bit 0; none where the decoder turns it away. -/
def decodeTableWord (nbits w : Nat) : Option Instr :=
  match decode (requestOfNat nbits w) with
  | .ok i => some i
  | .error _ => none

/-! ### The encoder (rules R91, R93, R100) -/

/-- The opcode of a command (rule R93). -/
def Instr.opcode : Instr → Opcode
  | .translate _ _ _ => .translate
  | .ptw _ _ _ => .ptw
  | .tlbLookup _ _ _ => .tlbLookup
  | .tlbInsert _ _ _ _ _ _ => .tlbInsert
  | .tlbiAll => .tlbiAll
  | .tlbiAsid _ => .tlbiAsid
  | .tlbiVmid _ => .tlbiVmid
  | .tlbiIova _ _ _ _ _ _ _ _ => .tlbiIova
  | .devGet _ => .devGet
  | .cfgSet _ _ => .cfgSet
  | .cfgInv _ => .cfgInv
  | .cntRead _ => .cntRead
  | .cntClr _ => .cntClr

/-- `W0` from its fields, the highest first (rule R91). -/
def packW0 (vmid asid : BitVec 16) (perm lvl tg : BitVec 2) (vw aw : Bool) (rgn : RegionIx) (acc : BitVec 2)
    (op : BitVec 8) : Word :=
  vmid ++ asid ++ 0#13 ++ perm ++ lvl ++ tg ++ BitVec.ofBool vw ++ BitVec.ofBool aw ++
    BitVec.ofBool (rgn == .r1) ++ acc ++ op

/-- `W3` from `dev` (rule R91). -/
def packW3 (dev : DevId) : Word := 0#48 ++ dev

/-- `K1` or `K2` from a region (rule R100). -/
def packTableInfo (t : TableInfo) : Word :=
  0#6 ++ BitVec.ofBool t.had ++ BitVec.ofBool t.disabled ++ t.tg ++ t.tsz ++ t.tableBase

/-- `K3` from a stage-2 descriptor (rule R100). -/
def packStage2Info (t : Stage2Info) : Word :=
  0#5 ++ BitVec.ofBool t.affd ++ t.sl0 ++ t.tg ++ t.tsz ++ t.tableBase

/-- `K0` from a config (rule R100). -/
def packConfig (c : TranslationConfig) : Word :=
  0#14 ++ c.effPs ++ c.vmid ++ c.asid ++ c.oas ++ c.tbi ++ BitVec.ofBool c.affd ++ BitVec.ofBool c.aa64 ++ c.stage

/-- A format R request: no config words are sent. -/
def formatR (w0 w1 w2 w3 : Word) : Request := { w0, w1, w2, w3, k0 := 0, k1 := 0, k2 := 0, k3 := 0 }

/-- `W0` of a command that reads no field of `W0` but `op`. -/
def plainW0 (o : Opcode) : Word := packW0 0 0 0 0 0 false false .r0 0 (opcodeCode o)

/-- The request words of a command (rules R91, R92, R93, R100). -/
def encode : Instr → Request
  | .translate dev addr acc =>
    formatR (packW0 0 0 0 0 0 false false .r0 acc (opcodeCode .translate)) addr 0 (packW3 dev)
  | .ptw dev addr acc => formatR (packW0 0 0 0 0 0 false false .r0 acc (opcodeCode .ptw)) addr 0 (packW3 dev)
  | .tlbLookup dev rgn addr =>
    formatR (packW0 0 0 0 0 0 false false rgn 0 (opcodeCode .tlbLookup)) addr 0 (packW3 dev)
  | .tlbInsert dev addr data tg lvl perm =>
    formatR (packW0 0 0 perm lvl tg false false .r0 0 (opcodeCode .tlbInsert)) addr data (packW3 dev)
  | .tlbiAll => formatR (plainW0 .tlbiAll) 0 0 0
  | .tlbiAsid asid => formatR (packW0 0 asid 0 0 0 false false .r0 0 (opcodeCode .tlbiAsid)) 0 0 0
  | .tlbiVmid vmid => formatR (packW0 vmid 0 0 0 0 false false .r0 0 (opcodeCode .tlbiVmid)) 0 0 0
  | .tlbiIova aw vw asid vmid tg lvl addr data =>
    formatR (packW0 vmid asid 0 lvl tg vw aw .r0 0 (opcodeCode .tlbiIova)) addr data 0
  | .devGet dev => formatR (plainW0 .devGet) 0 0 (packW3 dev)
  | .cfgSet dev cfg =>
    { w0 := plainW0 .cfgSet, w1 := 0, w2 := 0, w3 := packW3 dev, k0 := packConfig cfg, k1 := packTableInfo cfg.tt0,
      k2 := packTableInfo cfg.tt1, k3 := packStage2Info cfg.s2 }
  | .cfgInv dev => formatR (plainW0 .cfgInv) 0 0 (packW3 dev)
  | .cntRead dev => formatR (plainW0 .cntRead) 0 0 (packW3 dev)
  | .cntClr dev => formatR (plainW0 .cntClr) 0 0 (packW3 dev)

/-- The words that are sent: four for format R, eight for format C (rule R90). -/
def encodeWords (i : Instr) : List Word :=
  let r := encode i
  if isFormatC i.opcode then [r.w0, r.w1, r.w2, r.w3, r.k0, r.k1, r.k2, r.k3] else [r.w0, r.w1, r.w2, r.w3]

end Sys2Proof
end

