-- ==== Sys2Proof/Machine/State.lean ====
section
/-! DEFINITION. The state of the engine (`spec/10_state.md` rules R20 to R47), of the Memory Reader it drives
(`spec/20_memory.md` rules R50 to R59), and the reset state (rule R44). Plain data throughout. -/

namespace Sys2Proof.Machine

/-! ### The IOTLB (rules R30 to R34) -/

/-- `Key` (rule R31). -/
structure Key where
  asid : BitVec 16
  vmid : BitVec 16
  /-- `input_address_page` -/
  iap : Word
  /-- `granule_tag` -/
  tg : BitVec 2
  level : BitVec 2
  deriving DecidableEq, Repr

/-- `Entry` (rule R32). -/
structure Entry where
  /-- `translated_address` -/
  ta : Word
  /-- `input_address_page` -/
  iap : Word
  /-- `address_mask` -/
  addrMask : Word
  /-- `permission`: bit 0 reads, bit 1 writes (rule R39) -/
  perm : BitVec 2
  level : BitVec 2
  granule : Granule
  deriving DecidableEq, Repr

/-! ### Faults a command reports (rules R36, R251) -/

/-- The five fault kinds (rule R251). -/
inductive FaultKind where
  /-- the Memory Reader failed to deliver a PTE -/
  | walkExternalAbort
  /-- no valid mapping -/
  | translation
  /-- an address exceeds the configured size limit -/
  | addrSize
  /-- leaf access flag clear -/
  | access
  /-- the access violates leaf or table permission bits -/
  | permission
  deriving DecidableEq, Repr

/-- `PTWFaultInfo` (rule R36). -/
structure FaultInfo where
  kind : FaultKind
  stage : Stage
  /-- `faulting_address` (rule R253) -/
  addr : Word
  deriving DecidableEq, Repr

/-- How a walk ends (rules R7, R153), or that its configuration is refused (rule R183). -/
inductive WalkResult where
  | success (e : Entry)
  | failure (f : FaultInfo)
  | configError
  deriving DecidableEq, Repr

/-! ### A command in flight (rules R37, R47, R62) -/

/-- The tables a walk goes through: a stage-1 region or the stage-2 descriptor (rules R140, R160). -/
inductive WalkKind where
  | region (r : RegionIx)
  | stage2
  deriving DecidableEq, Repr

/-- A walk in progress (rule R37). -/
structure Walk where
  kind : WalkKind
  /-- 0 to 4 (rule R21) -/
  level : Nat
  /-- the physical address of the table being indexed -/
  base : Word
  /-- a Table descriptor on the path forbade writes (rule R147; stage 1 only) -/
  wrForbid : Bool
  granule : Granule
  inputsize : Nat
  deriving DecidableEq, Repr

/-- Where a walk stands: between two fetches, or ended and not yet answered. -/
inductive Phase where
  | walking (w : Walk)
  | done (r : WalkResult)
  deriving DecidableEq, Repr

/-- The two commands of more than one atomic step (rule R62). -/
inductive WalkCommand where
  | translate
  | ptw
  deriving DecidableEq, Repr

/-- A command in flight after its step A: its operands, its private config snapshot (rule R47) and its walk. -/
structure Job where
  cmd : WalkCommand
  cfg : TranslationConfig
  ia : Word
  acc : AccessKind
  phase : Phase
  deriving DecidableEq, Repr

/-- The response words `P0..P3` (rule R96). -/
structure Response where
  p0 : Word
  p1 : Word
  p2 : Word
  p3 : Word
  deriving DecidableEq, Repr

/-- What the engine holds for one requester's port: the request, latched for the life of its command (rule R20), the command in
flight, the response. -/
structure Port where
  request : Request
  inflight : Option Job
  response : Response
  deriving DecidableEq, Repr

/-- The request words of a port in which no command is latched: no operand survives a command (rule R20). That they are zero, a
request that names no command, is a DESIGN CHOICE, logs 1 and 18. -/
def noRequest : Request := ⟨0, 0, 0, 0, 0, 0, 0, 0⟩

/-- A port before its first command. The two registers are unspecified by rule R44: DESIGN CHOICE zero, log 1. -/
def Port.reset : Port :=
  { request := noRequest, inflight := none, response := ⟨0, 0, 0, 0⟩ }

/-! ### The device table (rules R29, R40, R41) -/

/-- A device record (rule R41). -/
structure DevRecord where
  cfgValid : Bool
  cfg : TranslationConfig
  /-- `iotlb_hits`, below `2^CNT_W` -/
  hits : Nat
  /-- `iotlb_misses`, below `2^CNT_W` -/
  misses : Nat
  /-- the opaque address-space handle -/
  asHandle : Word
  /-- the notifier list membership; its members are opaque -/
  notifier : List Word
  deriving DecidableEq, Repr

/-! ### The Memory Reader (rules R51 to R59) -/

/-- Physical memory: the bytes that are not zero, addresses strictly rising; a byte not listed is zero (log 5). -/
abbrev Memory := List Host.Cell

/-- The canonical form: addresses strictly rising and below `2^64`, no byte listed that an unlisted address reads as. -/
abbrev Memory.wf (m : Memory) : Prop :=
  m.Pairwise (fun a b => a.1 < b.1) ∧ ∀ c ∈ m, c.1 < 2 ^ 64 ∧ c.2 ≠ 0

/-- The Memory Reader and the memory behind it. -/
structure Reader where
  mem : Memory
  /-- the physical addresses at which `ReadPTE` answers `Err`, strictly rising -/
  errs : List Nat
  /-- the `ReadPTE` addresses requested, newest first -/
  issued : List Word
  deriving DecidableEq, Repr

/-! ### Events from outside (rules R60, R62, R262, R281) -/

/-- What can happen next. The list of these in State is the schedule: every interleaving of atomic steps and outside events
that rule R62 allows is some list. -/
inductive Input where
  /-- a request arrives at a port and is executed with no other step between its atomic steps -/
  | command (port : Nat) (req : Request)
  /-- a request arrives at a port and takes its first atomic step only -/
  | start (port : Nat) (req : Request)
  /-- the command in flight at a port takes its next atomic step -/
  | turn (port : Nat)
  /-- another agent writes consecutive bytes of memory from `pa` on, all at one instant -/
  | write (pa : Word) (bytes : List Byte)
  /-- from now on `ReadPTE(pa)` answers `Err`, or again `Ok` -/
  | readerErr (pa : Word) (fails : Bool)
  /-- reset of the engine instance (rules R280, R281) -/
  | reset
  deriving DecidableEq, Repr

/-! ### The state -/

/-- The engine, its ports, the Memory Reader, and what is still to come. -/
structure State where
  /-- `IOTLB_CAP` and `CNT_W`; no step writes it -/
  params : Params
  /-- `IOTLB`, ordered by `keyCode` -/
  iotlb : List (Key × Entry)
  /-- `CTX`, ordered by device id -/
  ctx : List (DevId × DevRecord)
  /-- the populated entries of the bus-number array, rising (rule R42) -/
  buses : List (BitVec 8)
  /-- the requesters' ports that have had a command, ordered by number -/
  ports : List (Nat × Port)
  reader : Reader
  /-- the model's own: the port whose command is executed (log 4) -/
  active : Nat
  /-- the model's own: how many free values have been drawn (logs 2 and 3) -/
  draws : Nat
  /-- the model's own: the events to come, the next one first (log 7) -/
  inputs : List Input
  deriving DecidableEq, Repr

/-- A step that ends the machine with a fault: there is none. A fault of this engine is a response (rule R250), the engine "is
not stopped by any fault" (rule R260), and no command is without an effect. -/
inductive Fault where
  deriving DecidableEq, Repr

/-- A step that has no meaning. -/
inductive Refusal where
  /-- raised by an arm of `exec` whose command has no meaning yet; safe, since nothing can be proved to follow it. No arm
  raises it. -/
  | notModelled (mnemonic : String)
  deriving DecidableEq, Repr

/-- The state after reset (rule R44): IOTLB, CTX and the bus-number array empty, nothing in flight, the default parameters of
rule R3, nothing to come. Memory lists nothing (log 5). -/
def State.reset : State where
  params := Params.default
  iotlb := []
  ctx := []
  buses := []
  ports := []
  reader := { mem := [], errs := [], issued := [] }
  active := 0
  draws := 0
  inputs := []

end Sys2Proof.Machine
end

