-- ==== Sys2Proof/Machine/Flags.lean ====
section
/-! DEFINITION. The engine has no status flags (`spec/10_state.md` rule R22): what an ISA reports in flags, a command of this
engine reports in fields of its response. This file is every such field: the response, format P, of `spec/30_encoding.md` rules
R96 to R98. -/

namespace Sys2Proof.Machine

/-- The `fault_kind` codes (rules R98, R251). -/
def faultCode : FaultKind → BitVec 3
  | .walkExternalAbort => 1
  | .translation => 2
  | .addrSize => 3
  | .access => 4
  | .permission => 5

/-- What a command answers (rules R96, R97, R231, R235). -/
inductive Reply where
  /-- `OK`, nothing returned -/
  | ok
  /-- `OK` with an entry; `flag` says it came from the IOTLB, `out` is the full output address -/
  | entry (e : Entry) (flag : Bool) (out : Word)
  /-- `Miss` -/
  | miss
  /-- `Fault` -/
  | fault (f : FaultInfo)
  /-- `ConfigError` -/
  | configError
  /-- `BadCommand` -/
  | badCommand
  /-- `OK` of `DEV_GET` -/
  | device (created cfgv : Bool)
  /-- `OK` of `CNT_READ` -/
  | counters (hits misses : Nat)
  deriving DecidableEq, Repr

/-- `P0` from its fields, the highest first (rule R96). -/
def packP0 (cfgv flag : Bool) (tg level perm stage : BitVec 2) (kind : BitVec 3) (status : BitVec 4) : Word :=
  0#47 ++ BitVec.ofBool cfgv ++ BitVec.ofBool flag ++ tg ++ level ++ perm ++ stage ++ kind ++ status

/-- The response words of an answer (rules R96, R97). -/
def replyWords : Reply → Response
  | .ok => ⟨packP0 false false 0 0 0 0 0 0, 0, 0, 0⟩
  | .entry e flag out => ⟨packP0 false flag (tagOf e.granule) e.level e.perm 0 0 0, out, e.ta, e.iap⟩
  | .miss => ⟨packP0 false false 0 0 0 0 0 1, 0, 0, 0⟩
  | .fault f => ⟨packP0 false false 0 0 0 (stageCode f.stage) (faultCode f.kind) 2, f.addr, 0, 0⟩
  | .configError => ⟨packP0 false false 0 0 0 0 0 3, 0, 0, 0⟩
  | .badCommand => ⟨packP0 false false 0 0 0 0 0 4, 0, 0, 0⟩
  | .device created cfgv => ⟨packP0 cfgv created 0 0 0 0 0 0, 0, 0, 0⟩
  | .counters hits misses => ⟨packP0 false false 0 0 0 0 0 0, BitVec.ofNat 64 hits, BitVec.ofNat 64 misses, 0⟩

/-- The full output address of an input address an entry covers (rules R32, R190). -/
def fullOutput (e : Entry) (ia : Word) : Word := e.ta ||| (ia &&& e.addrMask)

end Sys2Proof.Machine
end

