-- ==== Sys2Proof/Machine/Ops.lean ====
section
/-! DEFINITION. The named operations over the state: finite maps kept in one order, memory and `ReadPTE` (`spec/20_memory.md`
rules R51 to R59), the ports and their responses, how a command ends with a fault or a refusal (`spec/60_exceptions.md` rules
R250, R258, R259), the device table (`spec/46_context_table.md` rules R231, R232) and the IOTLB (`spec/45_iotlb.md` rules R201
to R208, R215 to R219). -/

namespace Sys2Proof.Machine

/-! ### Finite maps and sets as ordered lists -/

/-- The value a map holds for a key. -/
def assocGet {κ V : Type} [DecidableEq κ] (k : κ) : List (κ × V) → Option V
  | [] => none
  | (k', v) :: m => if k' = k then some v else assocGet k m

/-- The map with the value of `k` set, keys ordered by `code`. -/
def assocSet {κ V : Type} [DecidableEq κ] (code : κ → Nat) (k : κ) (v : V) : List (κ × V) → List (κ × V)
  | [] => [(k, v)]
  | (k', v') :: m =>
    if k' = k then (k, v) :: m
    else if code k < code k' then (k, v) :: (k', v') :: m
    else (k', v') :: assocSet code k v m

/-- The map without `k`. -/
def assocErase {κ V : Type} [DecidableEq κ] (k : κ) (m : List (κ × V)) : List (κ × V) := m.filter fun p => p.1 ≠ k

/-- The set with `k` added, members ordered by `code`. -/
def setAdd {κ : Type} [DecidableEq κ] (code : κ → Nat) (k : κ) : List κ → List κ
  | [] => [k]
  | k' :: m =>
    if k' = k then k' :: m
    else if code k < code k' then k :: k' :: m
    else k' :: setAdd code k m

/-! ### Memory and the Memory Reader -/

/-- The byte at an address: a byte not listed reads 0 (log 5). -/
def readByte (m : Memory) (a : Nat) : Byte := (assocGet a m).getD 0

/-- Memory with one byte written. -/
def writeByte (m : Memory) (a : Nat) (b : Byte) : Memory := if b = 0 then assocErase a m else assocSet id a b m

/-- Memory with consecutive bytes written from `pa` on; addresses wrap at `2^64` (rule R5). -/
def writeBytes (m : Memory) (pa : Word) : List Byte → Memory
  | [] => m
  | b :: bs => writeBytes (writeByte m pa.toNat b) (pa + 1) bs

/-- The eight bytes at `pa`, little-endian (rule R52). -/
def readWord (m : Memory) (pa : Word) : Word := leWord fun i => readByte m (pa + BitVec.ofNat 64 i).toNat

/-- What the Memory Reader answers to `ReadPTE(pa)`; none is `Err` (rules R51, R59). -/
def pteAnswer (rd : Reader) (pa : Word) : Option Word :=
  if pa.toNat ∈ rd.errs then none else some (readWord rd.mem pa)

/-- The Memory Reader once `ReadPTE(pa)` has been requested: memory is as it was (rules R56, R57). -/
def noteRead (rd : Reader) (pa : Word) : Reader := { rd with issued := pa :: rd.issued }

/-- The Memory Reader with `ReadPTE(pa)` made to fail or to succeed. -/
def setReaderErr (rd : Reader) (pa : Word) (fails : Bool) : Reader :=
  { rd with errs := if fails then setAdd id pa.toNat rd.errs else rd.errs.filter fun a => a ≠ pa.toNat }

/-! ### Ports -/

/-- A requester's port; before its first command it is as after reset (rule R44). -/
def portOf (s : State) (p : Nat) : Port := (assocGet p s.ports).getD Port.reset

/-- The state with a port set. -/
def setPort (s : State) (p : Nat) (pt : Port) : State := { s with ports := assocSet id p pt s.ports }

/-- A request latched in its port, whose command is executed next (rule R20). The response words of the port's last command stay
until this one is answered: DESIGN CHOICE, log 18. -/
def acceptRequest (s : State) (p : Nat) (req : Request) : State :=
  { setPort s p { portOf s p with request := req } with active := p }

/-- The command of the active port stays in flight. -/
def keepInFlight (s : State) (j : Job) : State :=
  setPort s s.active { portOf s s.active with inflight := some j }

/-- The command of the active port ends with a response: one per request, to the requester that issued it (rules R96, R265), and
its request words are dropped: no operand survives the command (rule R20). -/
def respond (r : Reply) (s : State) : State :=
  setPort s s.active { request := noRequest, inflight := none, response := replyWords r }

/-! ### The ends of a command that does not succeed (rules R250, R258, R259)

There is no vector, no saved address, no mode and no return (rules R263, R264): taking a fault is answering it. -/

/-- `raise Fault(kind, stage, addr)` (rule R250): the command ends with a `PTWFaultInfo`, and nothing else is written. -/
def raiseFault (f : FaultInfo) (s : State) : State := respond (.fault f) s

/-- `refuse ConfigError` (rule R258): no change of state but the answer. -/
def refuseConfig (s : State) : State := respond .configError s

/-- `BadCommand` (rule R259): decided from the request alone; no change of state but the answer. -/
def badCommand (s : State) : State := respond .badCommand s

/-! ### The device table -/

/-- `CTX[d]` (rule R40). -/
def deviceOf (s : State) (d : DevId) : Option DevRecord := assocGet d s.ctx

/-- `CTX[d]` set. -/
def setDevice (s : State) (d : DevId) (r : DevRecord) : State := { s with ctx := assocSet BitVec.toNat d r s.ctx }

/-- The bus number of a device id (rule R40). -/
def busOf (d : DevId) : BitVec 8 := d.extractLsb' 8 8

/-- The record of a device at its creation (rule R231): `cfg` unspecified, the handle fresh, both free values. -/
def newRecord (draws : Nat) : DevRecord :=
  { cfgValid := false, cfg := Config.unspecifiedConfig draws, hits := 0, misses := 0,
    asHandle := Config.freshHandle draws, notifier := [] }

/-- Creation of a record, which populates the entry of its bus number if that is empty (rules R231, R232). -/
def createDevice (s : State) (d : DevId) : State :=
  { setDevice s d (newRecord s.draws) with buses := setAdd BitVec.toNat (busOf d) s.buses, draws := s.draws + 1 }

/-- The record of a device a command names, with the config snapshot; none when there is no record or `cfg_valid = 0`
(rule R194). -/
def validConfig (s : State) (d : DevId) : Option TranslationConfig :=
  match deviceOf s d with
  | none => none
  | some r => if r.cfgValid then some r.cfg else none

/-- A record with its hit or its miss counter incremented, modulo `2^CNT_W` (rules R29, R204). -/
def bumpCounter (p : Params) (hit : Bool) (r : DevRecord) : DevRecord :=
  if hit then { r with hits := (r.hits + 1) % 2 ^ p.cntW } else { r with misses := (r.misses + 1) % 2 ^ p.cntW }

/-- `count(rec, found)` on the live record of the device (rules R47, R204). -/
def countLookup (s : State) (d : DevId) (hit : Bool) : State :=
  match deviceOf s d with
  | none => s
  | some r => setDevice s d (bumpCounter s.params hit r)

/-! ### The IOTLB -/

/-- A key as one number: the order in which the pairs are listed. Two keys are equal exactly when their numbers are. -/
def keyCode (k : Key) : Nat := (k.asid ++ k.vmid ++ k.iap ++ k.tg ++ k.level).toNat

/-- The key an entry is stored under (rules R34, R206). -/
def keyOfEntry (cfg : TranslationConfig) (e : Entry) : Key :=
  { asid := cfg.asid, vmid := cfg.vmid, iap := e.iap, tg := tagOf e.granule, level := e.level }

/-- The key a lookup probes at a level (rules R201, R202). -/
def probeKey (cfg : TranslationConfig) (g : Granule) (ia : Word) (level : Nat) : Key :=
  { asid := cfg.asid, vmid := cfg.vmid, iap := ia &&& ~~~ blockMask level g, tg := tagOf g,
    level := BitVec.ofNat 2 level }

/-- The probes of `lookup`, levels 3, 2, 1, 0; the first match is the answer (rules R201, R203). Counting is `countLookup`. -/
def probe (m : List (Key × Entry)) (cfg : TranslationConfig) (g : Granule) (ia : Word) : Option Entry :=
  [3, 2, 1, 0].findSome? fun level => assocGet (probeKey cfg g ia level) m

/-- `insert(cfg, entry)`: a full clear when the cache is at or over its cap, then the pair is set (rules R206 to R208). -/
def insertEntry (cap : Nat) (m : List (Key × Entry)) (cfg : TranslationConfig) (e : Entry) : List (Key × Entry) :=
  assocSet keyCode (keyOfEntry cfg e) e (if cap ≤ m.length then [] else m)

/-- The pairs that stay when those a predicate holds of are removed, all of them judged on the cache as it was (rule R221). -/
def evict (gone : Key × Entry → Bool) (m : List (Key × Entry)) : List (Key × Entry) := m.filter fun p => !gone p

/-- Scope match of a range invalidation (rule R218). -/
def scopeMatches (aw vw : Bool) (asid vmid : BitVec 16) (k : Key) : Bool :=
  (aw || k.asid == asid) && (vw || k.vmid == vmid)

/-- Intersection of an entry's range with `[iova, iova + num_pages * granule_size)`, on unbounded integers (rules R219, R220). -/
def rangeIntersects (iova numPages : Nat) (shift : Nat) (e : Entry) : Bool :=
  (decide (e.iap.toNat ≤ iova) && decide (iova ≤ e.iap.toNat + e.addrMask.toNat)) ||
  (decide (iova ≤ e.iap.toNat) && decide (e.iap.toNat < iova + numPages * 2 ^ shift))

end Sys2Proof.Machine
end

