-- ==== Sys2Proof/Machine/Context.lean ====
section
/-! DEFINITION. The device-table commands (`spec/46_context_table.md` rules R230 to R238). Each is one atomic step, reads no
memory, touches no IOTLB entry and reports no `PTWFaultInfo` (rule R230). -/

namespace Sys2Proof.Machine

/-- `DEV_GET d<dev>` (rules R231, R232): the record is created on first reference. -/
def execDevGet (dev : DevId) (s : State) : Host.Outcome State Fault Refusal :=
  match deviceOf s dev with
  | none => .next (respond (.device true false) (createDevice s dev))
  | some r => .next (respond (.device false r.cfgValid) s)

/-- A record with a new config: the whole config is replaced and its counters begin at 0 (rule R233). -/
def programRecord (cfg : TranslationConfig) (r : DevRecord) : DevRecord :=
  { r with cfgValid := true, cfg := cfg, hits := 0, misses := 0 }

/-- The device table after `CFG_SET`: the record is created if absent, then programmed (rule R233). -/
def programDevice (s : State) (dev : DevId) (cfg : TranslationConfig) : State :=
  match deviceOf s dev with
  | none => setDevice (createDevice s dev) dev (programRecord cfg (newRecord s.draws))
  | some r => setDevice s dev (programRecord cfg r)

/-- `CFG_SET d<dev>, <config>` (rule R233): the config is stored as given, whatever its fields. -/
def execCfgSet (dev : DevId) (cfg : TranslationConfig) (s : State) : Host.Outcome State Fault Refusal :=
  .next (respond .ok (programDevice s dev cfg))

/-- `CFG_INV d<dev>` (rule R234): the counters keep their values, the record persists. -/
def execCfgInv (dev : DevId) (s : State) : Host.Outcome State Fault Refusal :=
  match deviceOf s dev with
  | none => .next (refuseConfig s)
  | some r => .next (respond .ok (setDevice s dev { r with cfgValid := false }))

/-- `CNT_READ d<dev>` (rule R235), whether `cfg_valid` is 0 or 1. -/
def execCntRead (dev : DevId) (s : State) : Host.Outcome State Fault Refusal :=
  match deviceOf s dev with
  | none => .next (refuseConfig s)
  | some r => .next (respond (.counters r.hits r.misses) s)

/-- `CNT_CLR d<dev>` (rule R236). -/
def execCntClr (dev : DevId) (s : State) : Host.Outcome State Fault Refusal :=
  match deviceOf s dev with
  | none => .next (refuseConfig s)
  | some r => .next (respond .ok (setDevice s dev { r with hits := 0, misses := 0 }))

end Sys2Proof.Machine
end

