-- ==== Sys2Proof/Machine/Iotlb.lean ====
section
/-! DEFINITION. The commands that reach the IOTLB directly (`spec/45_iotlb.md` rules R205, R209, R211 to R222). Each is one
atomic step; none reads memory (rule R200), and an invalidation touches no counter, record, config or walk (rule R222). -/

namespace Sys2Proof.Machine

/-- The granule tag `TLB_LOOKUP` probes with; none when the stage is not 1 or 2 (rule R205). -/
def lookupTag (cfg : TranslationConfig) (rgn : RegionIx) : Option (BitVec 2) :=
  match stageOfCode cfg.stage with
  | none => none
  | some .s1 => some (regionOf cfg rgn).tg
  | some .s2 => some cfg.s2.tg

/-- The granule `TLB_LOOKUP` probes with; none when the command is refused (rule R205). -/
def lookupRegion (cfg : TranslationConfig) (rgn : RegionIx) : Option Granule :=
  match lookupTag cfg rgn with
  | none => none
  | some t => granuleOfTag t

/-- `TLB_LOOKUP d<dev>, r0|r1, <ia>` (rule R205): `disabled`, `tsz` and `aa64` are not examined, no permission is checked, `out`
is 0. -/
def execTlbLookup (dev : DevId) (rgn : RegionIx) (addr : Word) (s : State) : Host.Outcome State Fault Refusal :=
  match validConfig s dev with
  | none => .next (refuseConfig s)
  | some cfg =>
    match lookupRegion cfg rgn with
    | none => .next (refuseConfig s)
    | some g =>
      match probe s.iotlb cfg g addr with
      | some e => .next (respond (.entry e false 0) (countLookup s dev true))
      | none => .next (respond .miss (countLookup s dev false))

/-- The entry `TLB_INSERT` stores: its mask is computed, not carried (rule R209). -/
def insertedEntry (g : Granule) (addr data : Word) (lvl perm : BitVec 2) : Entry :=
  { ta := data, iap := addr, addrMask := blockMask lvl.toNat g, perm := perm, level := lvl, granule := g }

/-- `TLB_INSERT d<dev>, <iap>, <ta>, <granule>, L<level>, <perm>` (rule R209). Of the config only `asid` and `vmid` are read. -/
def execTlbInsert (dev : DevId) (addr data : Word) (tg lvl perm : BitVec 2) (s : State) :
    Host.Outcome State Fault Refusal :=
  match insertOperands tg lvl addr data with
  | none => .next (badCommand s)
  | some g =>
    match validConfig s dev with
    | none => .next (refuseConfig s)
    | some cfg =>
      .next (respond .ok
        { s with iotlb := insertEntry s.params.iotlbCap s.iotlb cfg (insertedEntry g addr data lvl perm) })

/-- `TLBI_ALL` (rule R211): unconditional full clear. -/
def execTlbiAll (s : State) : Host.Outcome State Fault Refusal :=
  .next (respond .ok { s with iotlb := [] })

/-- `TLBI_ASID <asid>` (rule R212), whatever the `vmid`, granule or level. -/
def execTlbiAsid (asid : BitVec 16) (s : State) : Host.Outcome State Fault Refusal :=
  .next (respond .ok { s with iotlb := evict (fun p => p.1.asid == asid) s.iotlb })

/-- `TLBI_VMID <vmid>` (rule R213), whatever the `asid`, granule or level. -/
def execTlbiVmid (vmid : BitVec 16) (s : State) : Host.Outcome State Fault Refusal :=
  .next (respond .ok { s with iotlb := evict (fun p => p.1.vmid == vmid) s.iotlb })

/-- The key of the fast path, all five fields as given: `iova` unmasked, the tag of the request, `ttl` as the level (rule
R216). -/
def fastPathKey (asid vmid : BitVec 16) (tg lvl : BitVec 2) (addr : Word) : Key :=
  { asid, vmid, iap := addr, tg, level := lvl }

/-- Whether the fast path is attempted and hits (rule R216). -/
def fastPathHits (aw vw : Bool) (asid vmid : BitVec 16) (tg lvl : BitVec 2) (addr data : Word)
    (m : List (Key × Entry)) : Bool :=
  lvl != 0 && data == 1 && !aw && !vw && (assocGet (fastPathKey asid vmid tg lvl addr) m).isSome

/-- What a pair must satisfy to be removed by the scan (rules R217 to R219). -/
def scanRemoves (aw vw : Bool) (asid vmid : BitVec 16) (tg : BitVec 2) (addr data : Word) (p : Key × Entry) : Bool :=
  scopeMatches aw vw asid vmid p.1 && rangeIntersects addr.toNat data.toNat (rangeShift tg) p.2

/-- The IOTLB after `TLBI_IOVA`: the exact pair goes when the fast path hits, else everything the scan finds (rules R214 to
R221). -/
def afterIovaInvalidation (aw vw : Bool) (asid vmid : BitVec 16) (tg lvl : BitVec 2) (addr data : Word)
    (m : List (Key × Entry)) : List (Key × Entry) :=
  if fastPathHits aw vw asid vmid tg lvl addr data m then assocErase (fastPathKey asid vmid tg lvl addr) m
  else evict (scanRemoves aw vw asid vmid tg addr data) m

/-- `TLBI_IOVA <asid>|*, <vmid>|*, <iova>, <granule>|-, <num_pages>, ttl=<n>` (rules R214 to R221). A wildcarded identifier that
is not zero is `BadCommand` (rule R94). -/
def execTlbiIova (aw vw : Bool) (asid vmid : BitVec 16) (tg lvl : BitVec 2) (addr data : Word) (s : State) :
    Host.Outcome State Fault Refusal :=
  if iovaOperandsLegal aw vw asid vmid then
    .next (respond .ok { s with iotlb := afterIovaInvalidation aw vw asid vmid tg lvl addr data s.iotlb })
  else .next (badCommand s)

end Sys2Proof.Machine
end

