-- ==== Sys2Proof/Machine/Walk.lean ====
section
/-! DEFINITION. The page-table walks (`spec/42_walker_stage1.md`, `spec/43_walker_stage2.md`) and their dispatcher
(`spec/44_dispatch_translate.md` rules R181 to R183). A walk is a `Phase`; `walkFetch` is one atomic step of it, one `ReadPTE`
(rule R62); `finishWalk` is the walk to its end with no other step in between. -/

namespace Sys2Proof.Machine

/-! ### Entry of the walks -/

/-- The region of a stage-1 address with its granule, or the fault or refusal that ends the command first (rules R140, R185). -/
def stage1Region (cfg : TranslationConfig) (ia : Word) : Except WalkResult (RegionIx × Granule) :=
  match select cfg ia with
  | none => .error (.failure ⟨.translation, .s1, ia⟩)
  | some r =>
    if (regionOf cfg r).disabled then .error (.failure ⟨.translation, .s1, ia⟩)
    else match walkable1 (regionOf cfg r) with
      | none => .error .configError
      | some g => .ok (r, g)

/-- The stage-1 walk at its start level, its root aligned to the root table's size (rules R140 to R142). -/
def rootWalk1 (tt : TableInfo) (r : RegionIx) (g : Granule) : Walk :=
  let inputsize := inputSize tt.tsz
  let level := startLevel1 inputsize g
  { kind := .region r, level := level,
    base := alignDown (tt.tableBase.setWidth 64) (inputsize - levelShift level g + 3),
    wrForbid := false, granule := g, inputsize := inputsize }

/-- `ptw_s1` up to its first fetch (rules R140 to R142). -/
def beginWalk1 (cfg : TranslationConfig) (ia : Word) : Phase :=
  match stage1Region cfg ia with
  | .error r => .done r
  | .ok (r, g) => .walking (rootWalk1 (regionOf cfg r) r g)

/-- The stage-2 walk at its start level: the root structure aligned to its whole size, then the concatenated root the address
selects (rules R160, R161, R163). -/
def rootWalk2 (s2 : Stage2Info) (g : Granule) (ia : Word) : Walk :=
  let inputsize := inputSize s2.tsz
  let level := (startLevel2 s2.sl0 g).toNat
  let base0 := alignDown (s2.tableBase.setWidth 64) (inputsize - levelShift level g + 3)
  let concatIdx := ia >>> levelShift ((level : Int) - 1) g
  { kind := .stage2, level := level, base := base0 + concatIdx <<< shiftOf g, wrForbid := false, granule := g,
    inputsize := inputsize }

/-- `ptw_s2` up to its first fetch (rules R160 to R163). -/
def beginWalk2 (cfg : TranslationConfig) (ia : Word) : Phase :=
  match walkable2 cfg.s2 with
  | none => .done .configError
  | some g =>
    if ia >>> inputSize cfg.s2.tsz ≠ 0 then .done (.failure ⟨.translation, .s2, ia⟩)
    else .walking (rootWalk2 cfg.s2 g ia)

/-- The dispatcher (rules R181 to R183): a stage-2 config has its input checked against `oas` first, a violation being a fault
whose stage is 1. -/
def dispatch (cfg : TranslationConfig) (ia : Word) : Phase :=
  match stageOfCode cfg.stage with
  | none => .done .configError
  | some .s1 => beginWalk1 cfg ia
  | some .s2 =>
    if walkable2 cfg.s2 = none then .done .configError
    else if ia >>> cfg.oas.toNat ≠ 0 then .done (.failure ⟨.addrSize, .s1, ia⟩)
    else beginWalk2 cfg ia

/-! ### One level -/

/-- The stage a walk's faults carry (rules R173, R252). -/
def walkStage (w : Walk) : Stage :=
  match w.kind with
  | .region _ => .s1
  | .stage2 => .s2

/-- `pte_addr = base + index * 8` (rules R144, R165). -/
def pteAddr (w : Walk) (ia : Word) : Word := w.base + tableIndex ia w.inputsize w.level w.granule <<< 3

/-- The walk one level further down, below a Table descriptor (rules R148, R167). -/
def descend (w : Walk) (pte : Word) (wrForbid : Bool) : Walk :=
  { w with level := w.level + 1, base := outputAddress pte (shiftOf w.granule), wrForbid := wrForbid }

/-- A stage-1 Table descriptor (rules R147, R148): unless `had` is set, APTABLE may forbid a write at once, and is remembered
for the cached permission of a read. -/
def tableStep1 (had : Bool) (ia : Word) (acc : AccessKind) (w : Walk) (pte : Word) : Phase :=
  let forbids := !had && tableForbidsWrite (tablePermissionOverride pte)
  if forbids && acc == .write then .done (.failure ⟨.permission, .s1, ia⟩)
  else .walking (descend w pte (w.wrForbid || forbids))

/-- The entry of a leaf (rules R151, R171). -/
def leafEntry (ia : Word) (w : Walk) (pte : Word) (perm : BitVec 2) : Entry :=
  { ta := outputAddress pte (levelShift w.level w.granule), iap := ia &&& ~~~ blockMask w.level w.granule,
    addrMask := blockMask w.level w.granule, perm := perm, level := BitVec.ofNat 2 w.level, granule := w.granule }

/-- A stage-1 leaf: access flag, then permission, then success (rules R149 to R151). -/
def leafStep1 (affd : Bool) (ia : Word) (acc : AccessKind) (w : Walk) (pte : Word) : WalkResult :=
  if accessFlag pte = false ∧ affd = false then .failure ⟨.access, .s1, ia⟩
  else if s1LeafPermFault (accessPermission pte) acc then .failure ⟨.permission, .s1, ia⟩
  else .success (leafEntry ia w pte (s1Permission (accessPermission pte) w.wrForbid))

/-- A stage-2 leaf: access flag, then permission, then output size, then success (rules R168 to R171). -/
def leafStep2 (cfg : TranslationConfig) (ia : Word) (acc : AccessKind) (w : Walk) (pte : Word) : WalkResult :=
  if accessFlag pte = false ∧ cfg.s2.affd = false then .failure ⟨.access, .s2, ia⟩
  else if s2LeafPermFault (accessPermission pte) acc then .failure ⟨.permission, .s2, ia⟩
  else if outputAddress pte (levelShift w.level w.granule) >>> cfg.effPs.toNat ≠ 0 then .failure ⟨.addrSize, .s2, ia⟩
  else .success (leafEntry ia w pte (accessPermission pte))

/-- What a fetched PTE makes of the walk (rules R146 to R151, R166 to R171). -/
def pteStep (cfg : TranslationConfig) (ia : Word) (acc : AccessKind) (w : Walk) (pte : Word) : Phase :=
  match classify pte w.level with
  | .invalid => .done (.failure ⟨.translation, walkStage w, ia⟩)
  | .reserved => .done (.failure ⟨.translation, walkStage w, ia⟩)
  | .table =>
    match w.kind with
    | .region r => tableStep1 (regionOf cfg r).had ia acc w pte
    | .stage2 => .walking (descend w pte w.wrForbid)
  | .page =>
    match w.kind with
    | .region _ => .done (leafStep1 cfg.affd ia acc w pte)
    | .stage2 => .done (leafStep2 cfg ia acc w pte)
  | .block =>
    match w.kind with
    | .region _ => .done (leafStep1 cfg.affd ia acc w pte)
    | .stage2 => .done (leafStep2 cfg ia acc w pte)

/-- One atomic step of a walk: one fetch, or the end at level 4 (rules R143 to R152, R164 to R172). -/
def walkFetch (rd : Reader) (cfg : TranslationConfig) (ia : Word) (acc : AccessKind) (w : Walk) : Reader × Phase :=
  if 4 ≤ w.level then (rd, .done (.failure ⟨.translation, walkStage w, ia⟩))
  else
    (noteRead rd (pteAddr w ia),
      match pteAnswer rd (pteAddr w ia) with
      | none => .done (.failure ⟨.walkExternalAbort, walkStage w, pteAddr w ia⟩)
      | some pte => pteStep cfg ia acc w pte)

/-! ### The walk to its end -/

/-- At most `n` more fetches; a walk still going after them has left level 3 (rules R152, R172). -/
def finishWalk (cfg : TranslationConfig) (ia : Word) (acc : AccessKind) : Nat → Reader → Phase → Reader × WalkResult
  | _, rd, .done r => (rd, r)
  | 0, rd, .walking w => (rd, .failure ⟨.translation, walkStage w, ia⟩)
  | n + 1, rd, .walking w =>
    finishWalk cfg ia acc n (walkFetch rd cfg ia acc w).1 (walkFetch rd cfg ia acc w).2

/-- The whole walk of a config: at most `MAX_LEVELS` = 4 fetches (rules R54, R155, R181 to R183). -/
def runWalk (cfg : TranslationConfig) (ia : Word) (acc : AccessKind) (rd : Reader) : Reader × WalkResult :=
  finishWalk cfg ia acc 4 rd (dispatch cfg ia)

end Sys2Proof.Machine
end

