-- ==== Sys2Proof/Machine/Translate.lean ====
section
/-! DEFINITION. `TRANSLATE` and `PTW` (`spec/44_dispatch_translate.md` rules R180 to R195). Each has its step A as a function of
its own, which either answers or leaves a `Job` in flight; `finishJob` is the last step of both. `execTranslate` and `execPtw`
are the commands with no other step between their atomic steps; `Sequencer.lean` runs the same steps one at a time. -/

namespace Sys2Proof.Machine

/-- Outcome of a step A: answered, or the command still in flight. -/
abbrev StepA := State × Option Job

/-- The last step of a command in flight (rules R180, R188, R189): on success a `TRANSLATE` inserts under the identifiers of its
snapshot, then the answer; on a fault nothing is inserted. -/
def finishJob (cmd : WalkCommand) (cfg : TranslationConfig) (ia : Word) (r : WalkResult) (s : State) : State :=
  match r with
  | .success e =>
    match cmd with
    | .translate =>
      respond (.entry e false (fullOutput e ia)) { s with iotlb := insertEntry s.params.iotlbCap s.iotlb cfg e }
    | .ptw => respond (.entry e false (fullOutput e ia)) s
  | .failure f => raiseFault f s
  | .configError => refuseConfig s

/-- The config a translating command uses: a valid one of the 64-bit format with a legal stage (rules R183, R194). -/
def usableConfig (s : State) (dev : DevId) : Option (TranslationConfig × Stage) :=
  match validConfig s dev with
  | none => none
  | some cfg =>
    if cfg.aa64 then
      match stageOfCode cfg.stage with
      | none => none
      | some st => some (cfg, st)
    else none

/-- The granule of the region the lookup is made for, or what ends the command before the lookup (rule R185). -/
def lookupGranule (cfg : TranslationConfig) (st : Stage) (ia : Word) : Except WalkResult Granule :=
  match st with
  | .s1 =>
    match stage1Region cfg ia with
    | .error r => .error r
    | .ok (_, g) => .ok g
  | .s2 =>
    match walkable2 cfg.s2 with
    | none => .error .configError
    | some g => .ok g

/-- The hit path (rule R186): the entry's permission is the only check. -/
def answerHit (e : Entry) (st : Stage) (ia : Word) (acc : AccessKind) (s : State) : State :=
  if permits e.perm acc then respond (.entry e true (fullOutput e ia)) s
  else raiseFault ⟨.permission, st, ia⟩ s

/-- Step A of `TRANSLATE` (rule R185), with the hit path (rule R186); on a miss the walk is ready to run (rule R187). -/
def translateStepA (dev : DevId) (ia : Word) (acc : AccessKind) (s : State) : StepA :=
  match usableConfig s dev with
  | none => (refuseConfig s, none)
  | some (cfg, st) =>
    match lookupGranule cfg st ia with
    | .error r => (finishJob .translate cfg ia r s, none)
    | .ok g =>
      match probe s.iotlb cfg g ia with
      | some e => (answerHit e st ia acc (countLookup s dev true), none)
      | none => (countLookup s dev false, some { cmd := .translate, cfg, ia, acc, phase := dispatch cfg ia })

/-- Step A of `PTW` (rule R180). -/
def ptwStepA (dev : DevId) (ia : Word) (acc : AccessKind) (s : State) : StepA :=
  match usableConfig s dev with
  | none => (refuseConfig s, none)
  | some (cfg, _) => (s, some { cmd := .ptw, cfg, ia, acc, phase := dispatch cfg ia })

/-- A command run from its step A to its end with no other step in between. -/
def runToEnd (a : StepA) : State :=
  match a with
  | (s, none) => s
  | (s, some j) =>
    let w := finishWalk j.cfg j.ia j.acc 4 s.reader j.phase
    finishJob j.cmd j.cfg j.ia w.2 { s with reader := w.1 }

/-- `TRANSLATE d<dev>, <ia>, R|W` (rules R184 to R190). An illegal `acc` is `BadCommand` (rule R94). -/
def execTranslate (dev : DevId) (addr : Word) (acc : BitVec 2) (s : State) : Host.Outcome State Fault Refusal :=
  match accessOfCode acc with
  | none => .next (badCommand s)
  | some a => .next (runToEnd (translateStepA dev addr a s))

/-- `PTW d<dev>, <ia>, R|W` (rules R180 to R183). An illegal `acc` is `BadCommand` (rule R94). -/
def execPtw (dev : DevId) (addr : Word) (acc : BitVec 2) (s : State) : Host.Outcome State Fault Refusal :=
  match accessOfCode acc with
  | none => .next (badCommand s)
  | some a => .next (runToEnd (ptwStepA dev addr a s))

end Sys2Proof.Machine
end

