-- ==== Sys2Proof/Machine/Dispatch.lean ====
section
/-! DEFINITION. One arm per command of `spec/30_encoding.md` rule R93. -/

namespace Sys2Proof.Machine

def exec (i : Instr) (s : State) : Host.Outcome State Fault Refusal :=
  match i with
  | .translate dev addr acc => Sys2Proof.Machine.execTranslate dev addr acc s
  | .ptw dev addr acc => Sys2Proof.Machine.execPtw dev addr acc s
  | .tlbLookup dev rgn addr => Sys2Proof.Machine.execTlbLookup dev rgn addr s
  | .tlbInsert dev addr data tg lvl perm => Sys2Proof.Machine.execTlbInsert dev addr data tg lvl perm s
  | .tlbiAll => Sys2Proof.Machine.execTlbiAll s
  | .tlbiAsid asid => Sys2Proof.Machine.execTlbiAsid asid s
  | .tlbiVmid vmid => Sys2Proof.Machine.execTlbiVmid vmid s
  | .tlbiIova aw vw asid vmid tg lvl addr data => Sys2Proof.Machine.execTlbiIova aw vw asid vmid tg lvl addr data s
  | .devGet dev => Sys2Proof.Machine.execDevGet dev s
  | .cfgSet dev cfg => Sys2Proof.Machine.execCfgSet dev cfg s
  | .cfgInv dev => Sys2Proof.Machine.execCfgInv dev s
  | .cntRead dev => Sys2Proof.Machine.execCntRead dev s
  | .cntClr dev => Sys2Proof.Machine.execCntClr dev s

end Sys2Proof.Machine
end

