-- ==== Sys2Proof/Machine/Sequencer.lean ====
section
/-! DEFINITION. What one event does (`spec/20_memory.md` rules R60 to R66, `spec/70_reset_and_hazards.md` rules R280, R281): the
arrival of a request, a turn of a command in flight, a write of memory by another agent, a change of what the Memory Reader can
deliver, a reset. `Step.lean` takes the events in the order State lists them. -/

namespace Sys2Proof.Machine

/-- A command of several atomic steps after its step A: answered, or left in flight at its port (rule R62). -/
def leaveInFlight (a : StepA) : State :=
  match a with
  | (s, none) => s
  | (s, some j) => keepInFlight s j

/-- `TRANSLATE` up to the end of its step A (rules R62, R185). -/
def startTranslate (dev : DevId) (addr : Word) (acc : BitVec 2) (s : State) : Host.Outcome State Fault Refusal :=
  match accessOfCode acc with
  | none => .next (badCommand s)
  | some a => .next (leaveInFlight (translateStepA dev addr a s))

/-- `PTW` up to the end of its step A (rules R62, R180). -/
def startPtw (dev : DevId) (addr : Word) (acc : BitVec 2) (s : State) : Host.Outcome State Fault Refusal :=
  match accessOfCode acc with
  | none => .next (badCommand s)
  | some a => .next (leaveInFlight (ptwStepA dev addr a s))

/-- The first atomic step of a command: the whole command, but for `TRANSLATE` and `PTW` (rule R62). -/
def startCommand (i : Instr) (s : State) : Host.Outcome State Fault Refusal :=
  match i with
  | .translate dev addr acc => startTranslate dev addr acc s
  | .ptw dev addr acc => startPtw dev addr acc s
  | .tlbLookup dev rgn addr => exec (.tlbLookup dev rgn addr) s
  | .tlbInsert dev addr data tg lvl perm => exec (.tlbInsert dev addr data tg lvl perm) s
  | .tlbiAll => exec .tlbiAll s
  | .tlbiAsid asid => exec (.tlbiAsid asid) s
  | .tlbiVmid vmid => exec (.tlbiVmid vmid) s
  | .tlbiIova aw vw asid vmid tg lvl addr data => exec (.tlbiIova aw vw asid vmid tg lvl addr data) s
  | .devGet dev => exec (.devGet dev) s
  | .cfgSet dev cfg => exec (.cfgSet dev cfg) s
  | .cfgInv dev => exec (.cfgInv dev) s
  | .cntRead dev => exec (.cntRead dev) s
  | .cntClr dev => exec (.cntClr dev) s

/-- One atomic step of the command in flight at the active port: a fetch, or the last step (rule R62). -/
def jobStep (j : Job) (s : State) : State :=
  match j.phase with
  | .walking w =>
    let a := walkFetch s.reader j.cfg j.ia j.acc w
    keepInFlight { s with reader := a.1 } { j with phase := a.2 }
  | .done r => finishJob j.cmd j.cfg j.ia r s

/-- A turn of port `p`; with no command in flight there is nothing to do, and a `ReadPTE` answer that comes after a reset is
ignored (rule R281). -/
def takeTurn (p : Nat) (s : State) : State :=
  match (portOf s p).inflight with
  | none => s
  | some j => jobStep j { s with active := p }

/-- Whether a command of port `p` has not been answered yet. -/
def portBusy (s : State) (p : Nat) : Bool := (portOf s p).inflight.isSome

/-- A request arrives: an illegal one is answered `BadCommand` before any state is read (rules R95, R259), a legal one is
executed, wholly or by its first atomic step. -/
def takeRequest (whole : Bool) (p : Nat) (req : Request) (s : State) : Host.Outcome State Fault Refusal :=
  match decode req with
  | .error _ => .next (badCommand (acceptRequest s p req))
  | .ok i => if whole then exec i (acceptRequest s p req) else startCommand i (acceptRequest s p req)

/-- Reset of the engine instance (rules R44, R280, R281): IOTLB, CTX, bus-number array and everything in flight are dropped.
Memory and what is still to come lie outside the engine. -/
def engineReset (s : State) : State := { s with iotlb := [], ctx := [], buses := [], ports := [], active := 0 }

/-- What an event does once it is taken. -/
def takeInput (e : Input) (s : State) : Host.Outcome State Fault Refusal :=
  match e with
  | .command p req => takeRequest true p req s
  | .start p req => takeRequest false p req s
  | .turn p => .next (takeTurn p s)
  | .write pa bytes => .next { s with reader := { s.reader with mem := writeBytes s.reader.mem pa bytes } }
  | .readerErr pa fails => .next { s with reader := setReaderErr s.reader pa fails }
  | .reset => .next (engineReset s)

/-- The port a request would be latched in (rule R60). -/
def arrivalPort : Input → Option Nat
  | .command p _ => some p
  | .start p _ => some p
  | .turn _ => none
  | .write _ _ => none
  | .readerErr _ _ => none
  | .reset => none

/-- The port that must answer before the event can be taken: a requester sends its next command only after the response (rule
R60). -/
def waitingFor (e : Input) (s : State) : Option Nat :=
  match arrivalPort e with
  | none => none
  | some p => if portBusy s p then some p else none

/-- The first event is taken; while it is a request of a port whose last command has not been answered, that command takes its
turns instead (log 8). With no event to come the engine is idle (rule R44). -/
def takeNext (s : State) : Host.Outcome State Fault Refusal :=
  match s.inputs with
  | [] => .next s
  | e :: rest =>
    match waitingFor e s with
    | some p => .next (takeTurn p s)
    | none => takeInput e { s with inputs := rest }

/-- A port that has had no command yet. -/
def freshPort (s : State) : Nat := s.ports.foldr (fun p n => max (p.1 + 1) n) 0

/-- The state with a request that will arrive next, at a requester of its own. -/
def withRequest (s : State) (req : Request) : State := { s with inputs := .command (freshPort s) req :: s.inputs }

end Sys2Proof.Machine
end

