-- ==== Sys2Proof/Machine/Step.lean ====
section
/-! DEFINITION. One step of the machine: one event is taken, that is one atomic step of one command or one act of an agent
outside the engine (`spec/20_memory.md` rules R60, R62). -/

namespace Sys2Proof.Machine

/-- One step. -/
def step (s : State) : Host.Outcome State Fault Refusal := takeNext s

/-- The state in which the request whose bits are the low `nbits` bits of `w` (bit 0 the least significant bit of `W0`, every
later bit 0) is the next event, so that the very next step executes it. Requests come from outside (log 9). -/
def State.withFetchWord (s : State) (nbits w : Nat) : State := withRequest s (requestOfNat nbits w)

end Sys2Proof.Machine
end

