-- ==== Sys2Proof/Safety.lean ====
section
/-! DEFINITION. The terms in which statements about the machine are made: the invariant that every step keeps, what a command
leaves unchanged, and what it means for page tables in memory to lead an address to a leaf. -/

namespace Sys2Proof.Machine

/-! ### The invariant -/

/-- Rule R33: the mask belongs to the level and granule, and both addresses are aligned to it. -/
def EntryWf (e : Entry) : Prop :=
  e.addrMask = blockMask e.level.toNat e.granule ∧ e.iap &&& e.addrMask = 0 ∧ e.ta &&& e.addrMask = 0

/-- Rule R34: the key a stored entry has, and rule R33 of the entry. -/
def PairWf (p : Key × Entry) : Prop :=
  p.1.iap = p.2.iap ∧ p.1.level = p.2.level ∧ p.1.tg = tagOf p.2.granule ∧ EntryWf p.2

/-- Rules R30, R33, R34: no two pairs with one key, at most `IOTLB_CAP` of them, each well-formed. -/
def IotlbWf (s : State) : Prop :=
  s.iotlb.Pairwise (fun a b => keyCode a.1 < keyCode b.1) ∧ s.iotlb.length ≤ s.params.iotlbCap ∧
    ∀ p ∈ s.iotlb, PairWf p

/-- Rules R29, R40: one record a device, counters of `CNT_W` bits. -/
def CtxWf (s : State) : Prop :=
  s.ctx.Pairwise (fun a b => a.1.toNat < b.1.toNat) ∧
    ∀ p ∈ s.ctx, p.2.hits < 2 ^ s.params.cntW ∧ p.2.misses < 2 ^ s.params.cntW

/-- Rules R42, R232: an entry of the bus-number array is populated exactly when a record has its bus number. -/
def BusesWf (s : State) : Prop :=
  s.buses.Pairwise (fun a b => a.toNat < b.toNat) ∧ ∀ b, b ∈ s.buses ↔ ∃ p ∈ s.ctx, busOf p.1 = b

/-- Rules R50, R53: an address the engine passes to `ReadPTE`. -/
def FetchAddress (pa : Word) : Prop := pa.toNat % 8 = 0 ∧ pa.toNat < 2 ^ 48

/-- A command in flight: its level is one that is fetched from (rule R21), its next fetch is aligned and in range (rules R50,
R53), and the entry it is about to answer with is well-formed (rule R33). -/
def JobWf (j : Job) : Prop :=
  match j.phase with
  | .walking w => w.level ≤ 3 ∧ FetchAddress (pteAddr w j.ia)
  | .done (.success e) => EntryWf e
  | .done (.failure _) => True
  | .done .configError => True

/-- Rule R20: the operands of a command in flight are fields of the request it arrived in. -/
def LatchedIn (req : Request) (j : Job) : Prop :=
  ∃ dev code, accessOfCode code = some j.acc ∧
    decode req = .ok (match j.cmd with
      | .translate => .translate dev j.ia code
      | .ptw => .ptw dev j.ia code)

/-- One set of registers a port; every command in flight is well-formed, and its request stays latched; a port with no command in
flight holds no request (rule R20). -/
def PortsWf (s : State) : Prop :=
  s.ports.Pairwise (fun a b => a.1 < b.1) ∧
    ∀ p ∈ s.ports, (p.2.inflight = none → p.2.request = noRequest) ∧
      ∀ j ∈ p.2.inflight, JobWf j ∧ LatchedIn p.2.request j

/-- Memory in canonical form, and every `ReadPTE` there has been aligned and in range (rules R50, R53). -/
def ReaderWf (s : State) : Prop :=
  s.reader.mem.wf ∧ s.reader.errs.Pairwise (fun a b => a < b) ∧ ∀ pa ∈ s.reader.issued, FetchAddress pa

/-- The invariant of the machine. -/
def Inv (s : State) : Prop :=
  s.params.wf ∧ IotlbWf s ∧ CtxWf s ∧ BusesWf s ∧ PortsWf s ∧ ReaderWf s

/-! ### Frames -/

/-- The active port has the answer `r` and nothing in flight, and its request words are gone (rule R20); every other port is as it
was. That the words are then zero is the model's choice (log 18). -/
def Answers (s t : State) (r : Reply) : Prop :=
  ∀ p, portOf t p = if p = s.active then { request := noRequest, inflight := none, response := replyWords r } else portOf s p

/-- Every byte of memory reads as before, and so does what the Memory Reader fails to deliver. -/
def SameMemory (s t : State) : Prop :=
  (∀ a, readByte t.reader.mem a = readByte s.reader.mem a) ∧ t.reader.errs = s.reader.errs

/-- What no command writes: the parameters, memory, and the model's own bookkeeping of events. -/
def SameOutside (s t : State) : Prop :=
  t.params = s.params ∧ t.active = s.active ∧ t.inputs = s.inputs ∧ SameMemory s t

/-- `SameOutside`, and no `ReadPTE` was issued. -/
def Quiet (s t : State) : Prop := SameOutside s t ∧ t.reader.issued = s.reader.issued

/-- Every device record, the bus-number array and the free-value counter are as they were. -/
def SameTable (s t : State) : Prop :=
  (∀ d, deviceOf t d = deviceOf s d) ∧ t.buses = s.buses ∧ t.draws = s.draws

/-- Only the record of `dev` is another one. -/
def OnlyRecord (s t : State) (dev : DevId) (r : DevRecord) : Prop :=
  (∀ d, deviceOf t d = if d = dev then some r else deviceOf s d) ∧ t.buses = s.buses ∧ t.draws = s.draws

/-- One lookup for `dev` has been counted, and nothing else in the device table has changed (rule R204). -/
def Counted (s t : State) (dev : DevId) (hit : Bool) : Prop :=
  ∃ r, deviceOf s dev = some r ∧
    OnlyRecord s t dev
      { r with hits := if hit then (r.hits + 1) % 2 ^ s.params.cntW else r.hits
               misses := if hit then r.misses else (r.misses + 1) % 2 ^ s.params.cntW }

/-- The cache after an insert of `e` under `k`: the pair is there, and any other key reads as before, or nothing if the cache
was at its cap (rules R206 to R208). -/
def Inserted (s t : State) (k : Key) (e : Entry) : Prop :=
  (∀ k', assocGet k' t.iotlb =
    if k' = k then some e else if s.params.iotlbCap ≤ s.iotlb.length then none else assocGet k' s.iotlb) ∧
  (s.params.iotlbCap ≤ s.iotlb.length → t.iotlb = [(k, e)])

/-- The device a command names (rule R93). -/
def namedDevice : Instr → Option DevId
  | .translate dev _ _ => some dev
  | .ptw dev _ _ => some dev
  | .tlbLookup dev _ _ => some dev
  | .tlbInsert dev _ _ _ _ _ => some dev
  | .tlbiAll => none
  | .tlbiAsid _ => none
  | .tlbiVmid _ => none
  | .tlbiIova _ _ _ _ _ _ _ _ => none
  | .devGet dev => some dev
  | .cfgSet dev _ => some dev
  | .cfgInv dev => some dev
  | .cntRead dev => some dev
  | .cntClr dev => some dev

/-! ### Page tables in memory -/

/-- The Table descriptors a walk goes through from a table at `(level, base)` to a table at `(level', base')`, every word as
the Memory Reader delivers it (rules R82, R144, R147, R148). The flag says whether a descriptor on the way, or before, forbids
writes; `aptable` says whether the descriptors' APTABLE counts. -/
inductive TablePath (rd : Reader) (ia : Word) (inputsize : Nat) (g : Granule) (aptable : Bool) :
    Nat → Word → Bool → Nat → Word → Bool → Prop where
  | stop (level : Nat) (base : Word) (forbids : Bool) :
    TablePath rd ia inputsize g aptable level base forbids level base forbids
  | table {level : Nat} {base : Word} {forbids : Bool} {pte : Word} {level' : Nat} {base' : Word} {forbids' : Bool}
    (hl : level < 3) (hr : pteAnswer rd (base + tableIndex ia inputsize level g <<< 3) = some pte)
    (ht : pte.extractLsb' 0 2 = 0b11#2)
    (rest : TablePath rd ia inputsize g aptable (level + 1) (pte &&& mask 48 &&& ~~~ mask (shiftOf g))
      (forbids || (aptable && pte.getLsbD 62)) level' base' forbids') :
    TablePath rd ia inputsize g aptable level base forbids level' base' forbids'

/-- The word a walk fetches from the table at `(level, base)` is a leaf: a Page at level 3, a Block above (rules R83, R84). -/
def LeafAt (rd : Reader) (ia : Word) (inputsize : Nat) (g : Granule) (level : Nat) (base pte : Word) : Prop :=
  level ≤ 3 ∧ pteAnswer rd (base + tableIndex ia inputsize level g <<< 3) = some pte ∧
    pte.extractLsb' 0 2 = if level = 3 then 0b11#2 else 0b01#2

end Sys2Proof.Machine
end

