-- ==== Sys2Proof/Certificates/Slice0/Obligations.lean ====
section
/-! DEFINITION. The statements for the provers. Each says in its docstring which rules of `spec/` it formalises. -/

open Sys2Proof Sys2Proof.Machine

/-! ### Encoding and decoding (`spec/30_encoding.md`) -/

/-- Decoding the request words of a command gives the command back, with every operand at every value its field admits (rules
R91, R93, R100). That a command whose operands break rule R94 is decoded too, and turned away by its meaning and not by the
decoder, is the model's own order (log 11). -/
def Obligations.DecodeOfEncodeIsTheCommand : Prop :=
  ∀ i : Instr, decode (encode i) = .ok i

/-- A request that is decoded has no bit the command does not mean: it is the encoding of the command, word for word (rule R95;
a format R request has no config words). -/
def Obligations.EncodeOfDecodedRequestIsTheRequest : Prop :=
  ∀ (r : Request) (i : Instr), decode r = .ok i →
    encode i = if isFormatC i.opcode then r else { r with k0 := 0, k1 := 0, k2 := 0, k3 := 0 }

/-- The reserved opcodes of rule R95 name no command, and every other opcode is one of rule R93. -/
def Obligations.ReservedOpcodesNameNoCommand : Prop :=
  ∀ r : Request,
    ((opField r).toNat ∈ [0x00, 0x05, 0x06, 0x07, 0x0C, 0x0D, 0x0E, 0x0F] ∨ 0x15 ≤ (opField r).toNat) ↔
      decode r = .error (.reservedOpcode (opField r))

/-- A few request words written out from rules R91 and R93, and the words of a `CFG_SET`, the config words of rule R100 among
them, decode to the commands they stand for. -/
def Obligations.WrittenOutWordsDecode : Prop :=
  decode ⟨0x0000000000000201, 0x0000000012345678, 0, 0x0000000000000108, 0, 0, 0, 0⟩ =
      .ok (.translate 0x0108 0x12345678 0b10) ∧
    decode ⟨0x000000000002A004, 0x40000000, 0x100000000, 1, 0, 0, 0, 0⟩ =
      .ok (.tlbInsert 1 0x40000000 0x100000000 1 1 0b01) ∧
    decode ⟨0x000500010001A00B, 0x12345000, 1, 0, 0, 0, 0, 0⟩ =
      .ok (.tlbiIova false false 1 5 1 3 0x12345000 1) ∧
    decode ⟨0x0000000000000014, 0, 0, 0xFFFF, 0, 0, 0, 0⟩ = .ok (.cntClr 0xFFFF) ∧
    decode ⟨0x0000000000000011, 0, 0, 0xABCD,
        0x0002C56781234A2E, 0x0290123456789ABC, 0x01D9FEDCBA987654, 0x0658ABCDEF012345⟩ =
      .ok (.cfgSet 0xABCD
        { stage := 2, aa64 := true, affd := true, tbi := 0b10, oas := 40, asid := 0x1234, vmid := 0x5678, effPs := 44
          tt0 := { disabled := false, tableBase := 0x123456789ABC, tsz := 16, tg := 2, had := true }
          tt1 := { disabled := true, tableBase := 0xFEDCBA987654, tsz := 25, tg := 3, had := false }
          s2 := { tableBase := 0xABCDEF012345, tsz := 24, tg := 1, sl0 := 2, affd := true } })

/-- Every field of every answer stands where rule R96 puts it, with the codes of rules R97 and R98; the other bits are zero. -/
def Obligations.ResponseFieldsStandInTheirPlaces : Prop :=
  (∀ (e : Entry) (flag : Bool) (out : Word),
    (replyWords (.entry e flag out)).p0.toNat =
      e.perm.toNat * 2 ^ 9 + e.level.toNat * 2 ^ 11 + (tagOf e.granule).toNat * 2 ^ 13 + flag.toNat * 2 ^ 15 ∧
    (replyWords (.entry e flag out)).p1 = out ∧ (replyWords (.entry e flag out)).p2 = e.ta ∧
    (replyWords (.entry e flag out)).p3 = e.iap) ∧
  (∀ f : FaultInfo,
    (replyWords (.fault f)).p0.toNat =
      2 + (match f.kind with
            | .walkExternalAbort => 1 | .translation => 2 | .addrSize => 3 | .access => 4 | .permission => 5) * 2 ^ 4 +
        (match f.stage with | .s1 => 1 | .s2 => 2) * 2 ^ 7 ∧
    (replyWords (.fault f)).p1 = f.addr ∧ (replyWords (.fault f)).p2 = 0 ∧ (replyWords (.fault f)).p3 = 0) ∧
  (∀ created cfgv : Bool,
    replyWords (.device created cfgv) = ⟨BitVec.ofNat 64 (created.toNat * 2 ^ 15 + cfgv.toNat * 2 ^ 16), 0, 0, 0⟩) ∧
  (∀ hits misses : Nat, replyWords (.counters hits misses) = ⟨0, BitVec.ofNat 64 hits, BitVec.ofNat 64 misses, 0⟩) ∧
  replyWords .ok = ⟨0, 0, 0, 0⟩ ∧ replyWords .miss = ⟨1, 0, 0, 0⟩ ∧ replyWords .configError = ⟨3, 0, 0, 0⟩ ∧
  replyWords .badCommand = ⟨4, 0, 0, 0⟩

/-! ### Steps and events (`spec/20_memory.md`, `spec/70_reset_and_hazards.md`) -/

/-- When the next event is the arrival of a request at a port that has been answered, and the request decodes to a command, the
step latches the request, takes the event, and executes the command: wholly (`exec`), or its first atomic step (rules R20, R62).
That what happens next is the head of a list of events is the model's own form (log 7). -/
def Obligations.StepExecutesTheDecodedCommand : Prop :=
  ∀ (s : State) (p : Nat) (req : Request) (rest : List Input) (i : Instr),
    portBusy s p = false → decode req = .ok i →
      (s.inputs = .command p req :: rest →
        step s = exec i (acceptRequest { s with inputs := rest } p req)) ∧
      (s.inputs = .start p req :: rest →
        step s = startCommand i (acceptRequest { s with inputs := rest } p req))

/-- An illegal request (rule R95: no command, or a command that breaks rule R94) is answered `BadCommand`, status 4, in one
step, and changes nothing: no IOTLB entry, record or counter, no memory, no other port (rule R259). That the dropped request
words read zero is the model's own choice (log 18). -/
def Obligations.IllegalRequestChangesNothing : Prop :=
  ∀ (s : State) (p : Nat) (req : Request) (rest : List Input),
    (s.inputs = .command p req :: rest ∨ s.inputs = .start p req :: rest) → portBusy s p = false →
    (∀ i, decode req = .ok i → i.wellFormed = false) →
    ∃ t, step s = .next t ∧ portOf t p = ⟨noRequest, none, ⟨4, 0, 0, 0⟩⟩ ∧ (∀ q, q ≠ p → portOf t q = portOf s q) ∧
      t.iotlb = s.iotlb ∧ SameTable s t ∧ t.reader = s.reader ∧ t.params = s.params ∧ t.inputs = rest

/-- With no event to come nothing happens, whether or not a command is in flight: that commands in flight take their turns as a
list of events says is the model's own form (log 7). And a requester's next command waits for its response (rule R60): while a
command of the port is in flight, the step gives that command its turn and leaves the request where it is. That this is how the
model treats a request that comes too early is the model's own choice (log 8). -/
def Obligations.EngineWaitsForEventsAndResponses : Prop :=
  (∀ s : State, s.inputs = [] → step s = .next s) ∧
  (∀ (s : State) (p : Nat) (req : Request) (rest : List Input) (j : Job),
    (s.inputs = .command p req :: rest ∨ s.inputs = .start p req :: rest) → (portOf s p).inflight = some j →
      step s = .next (jobStep j { s with active := p }))

/-- Every step of every state answers a next state, never a fault or a refusal: the engine "is not stopped by any fault" (rule
R260); and no step changes `IOTLB_CAP` or `CNT_W` (rule R3). That `ConfigError` and `BadCommand` are next states too, not refusals
of the model, is the model's own reading (log 16). -/
def Obligations.EveryStepGoesOnAndKeepsTheParameters : Prop :=
  ∀ s : State, ∃ t, step s = .next t ∧ t.params = s.params

/-- The steps of rule R62 taken one at a time, with no other event in between, end in the state in which the command executed at
once ends: after the first step, four fetches and a last step are enough for every request (rules R54, R62, R155). That the two
are two kinds of event is the model's own form (log 7). -/
def Obligations.StepwiseExecutionIsTheWholeCommand : Prop :=
  ∀ (s : State) (p : Nat) (req : Request) (rest : List Input), portBusy s p = false →
    Host.Core.run Sys2Proof.core 6 { s with inputs := .start p req :: (List.replicate 5 (.turn p) ++ rest) } =
      Host.Core.run Sys2Proof.core 1 { s with inputs := .command p req :: rest }

/-- Rule R65: an invalidation is not a barrier against fills. A `TRANSLATE` whose walk has succeeded and a `TLBI_ALL` of another
requester may take their steps in both orders: if the invalidation comes first the entry survives, if it comes second it does
not. -/
def Obligations.RacingInsertMaySurviveOrNot : Prop :=
  ∀ (s : State) (p q : Nat) (cfg : TranslationConfig) (ia : Word) (acc : AccessKind) (e : Entry), q ≠ p →
    (portOf s p).inflight = some ⟨.translate, cfg, ia, acc, .done (.success e)⟩ → portBusy s q = false →
    (∃ t, Host.Core.run Sys2Proof.core 2 { s with inputs := [.command q (encode .tlbiAll), .turn p] } = .next t ∧
      t.iotlb = [(keyOfEntry cfg e, e)]) ∧
    (∃ t, Host.Core.run Sys2Proof.core 2 { s with inputs := [.turn p, .command q (encode .tlbiAll)] } = .next t ∧
      t.iotlb = [])

/-- After reset the IOTLB and the device table are empty, no entry of the bus-number array is populated, nothing is in flight,
and the parameters have the defaults of rule R3 (rules R3, R44, R280). -/
def Obligations.ResetLeavesTheEngineEmpty : Prop :=
  State.reset.iotlb = [] ∧ (∀ d, deviceOf State.reset d = none) ∧ State.reset.buses = [] ∧
    (∀ p, (portOf State.reset p).inflight = none) ∧ State.reset.params.iotlbCap = 256 ∧ State.reset.params.cntW = 32

/-- A reset of a running engine drops the IOTLB, every record and every command in flight; memory is as it was, and a turn of a
dropped command changes nothing (rules R280, R281). That memory and what is still to come lie outside what is reset is the
model's own reading (log 12). -/
def Obligations.ResetDropsCommandsInFlight : Prop :=
  ∀ (s : State) (rest : List Input), s.inputs = .reset :: rest →
    ∃ t, step s = .next t ∧ t.iotlb = [] ∧ (∀ d, deviceOf t d = none) ∧ t.buses = [] ∧
      (∀ p, (portOf t p).inflight = none) ∧ (∀ p, takeTurn p t = t) ∧ SameMemory s t ∧ t.params = s.params ∧
      t.inputs = rest

/-- The reset state satisfies the invariant of the next statement (rules R3, R44). -/
def Obligations.ResetSatisfiesTheInvariant : Prop :=
  Inv State.reset

/-- Every step keeps the invariant: the IOTLB has no two pairs with one key, at most `IOTLB_CAP` pairs, and only entries
whose mask is that of their level and granule and whose addresses are aligned to it (rules R30, R33, R34); counters stay
within `CNT_W` bits (rule R29); the bus-number array names exactly the buses that have records (rule R42); a walk in flight
fetches from levels 0 to 3 only, and every address passed to `ReadPTE` is 8-byte aligned and below `2^48` (rules R50, R53). A
port holds the request of its command in flight, from which the command's operands come, and no request when nothing is in
flight (rule R20). The model's own part of it: dropped request words read zero (log 18), memory, the maps and the sets keep
their canonical form (log 5), and `CNT_W` is at most 64 (log 10). -/
def Obligations.EveryStepKeepsTheInvariant : Prop :=
  ∀ s t : State, Inv s → step s = .next t → Inv t

/-- The engine never writes memory: whatever the next event is, unless it is another agent's write, every byte reads after the
step as it read before (rule R57). -/
def Obligations.EngineNeverWritesMemory : Prop :=
  ∀ s t : State, (∀ pa bytes, s.inputs.head? ≠ some (.write pa bytes)) → step s = .next t →
    ∀ a, readByte t.reader.mem a = readByte s.reader.mem a

/-- A command touches its own port only, executed at once, by its first step, or by a later step of a command in flight: the
registers of every other port, and any command in flight there, walk and config snapshot included, are as they were (rules
R47, R187, R222). So it is for a step that takes a request or a turn of a port. Of its own port a command leaves the request
words while it is in flight and drops them when it has ended (rule R20); that they then read zero is the model's own choice
(log 18). No later step of a command in flight reads or writes the device table, and one that fetches neither reads nor
writes the IOTLB (rules R47, R62, R187). -/
def Obligations.CommandsLeaveOtherPortsAlone : Prop :=
  (∀ (i : Instr) (s t : State), (exec i s = .next t ∨ startCommand i s = .next t) →
    (∀ p, p ≠ s.active → portOf t p = portOf s p) ∧
    (portOf t s.active).request =
      if (portOf t s.active).inflight = none then noRequest else (portOf s s.active).request) ∧
  (∀ (i : Instr) (s t : State), exec i s = .next t → (portOf t s.active).inflight = none) ∧
  (∀ (j : Job) (s : State), SameTable s (jobStep j s) ∧
    (∀ p, p ≠ s.active → portOf (jobStep j s) p = portOf s p) ∧
    ((portOf (jobStep j s) s.active).request =
      if (portOf (jobStep j s) s.active).inflight = none then noRequest else (portOf s s.active).request) ∧
    (∀ ctx, jobStep j { s with ctx := ctx } = { jobStep j s with ctx := ctx }) ∧
    (∀ w, j.phase = .walking w → (jobStep j s).iotlb = s.iotlb ∧
      ∀ m, jobStep j { s with iotlb := m } = { jobStep j s with iotlb := m })) ∧
  (∀ (s t : State) (p : Nat) (e : Input) (rest : List Input), s.inputs = e :: rest →
    (e = .turn p ∨ ∃ req, e = .command p req ∨ e = .start p req) → step s = .next t →
    ∀ q, q ≠ p → portOf t q = portOf s q)

/-! ### The Memory Reader and memory (`spec/20_memory.md`) -/

/-- What `ReadPTE` answers: `Err` at exactly the addresses at which the Memory Reader fails, else the word whose byte `i`, byte 0
the least significant, is the byte of memory at `pa + i` (rules R51, R52, R59). That the failing addresses are a set in State is
the model's own form (log 5). -/
def Obligations.ReadPteAnswersTheEightBytes : Prop :=
  ∀ (rd : Reader) (pa : Word),
    (pteAnswer rd pa = none ↔ pa.toNat ∈ rd.errs) ∧
    ∀ v, pteAnswer rd pa = some v →
      ∀ i, i < 8 → v.extractLsb' (8 * i) 8 = readByte rd.mem (pa + BitVec.ofNat 64 i).toNat

/-- What the two events of the Memory Reader do. A write of another agent from `pa` on makes the written bytes read as written
and leaves every other byte; a change of what the Memory Reader delivers makes `ReadPTE` of that one address fail or succeed.
Neither changes anything else, of the engine or of the Memory Reader (rules R51, R60, R62). That these are events in a list is the
model's own form (log 7). -/
def Obligations.OutsideEventsChangeOnlyTheReader : Prop :=
  (∀ (s : State) (pa : Word) (bytes : List Byte) (rest : List Input), s.inputs = .write pa bytes :: rest →
    ∃ mem, step s = .next { s with inputs := rest, reader := { s.reader with mem := mem } } ∧
      (bytes.length ≤ 2 ^ 64 → ∀ i b, bytes[i]? = some b → readByte mem (pa + BitVec.ofNat 64 i).toNat = b) ∧
      (∀ a, (∀ i, i < bytes.length → a ≠ (pa + BitVec.ofNat 64 i).toNat) → readByte mem a = readByte s.reader.mem a)) ∧
  (∀ (s : State) (pa : Word) (fails : Bool) (rest : List Input), s.inputs = .readerErr pa fails :: rest →
    ∃ errs, step s = .next { s with inputs := rest, reader := { s.reader with errs := errs } } ∧
      ∀ a, a ∈ errs ↔ if a = pa.toNat then fails = true else a ∈ s.reader.errs)

/-! ### The Descriptor Decoder and the geometry (`spec/40_descriptor_decoder.md`) -/

/-- A PTE's class at its level, from its two low bits (rules R81, R115 to R120). -/
def Obligations.ClassifyFollowsTheTypeField : Prop :=
  ∀ (pte : Word) (level : Nat), level ≤ 3 →
    classify pte level =
      if pte.toNat % 2 = 0 then .invalid
      else if pte.toNat % 4 = 1 then (if level = 3 then .reserved else .block)
      else (if level = 3 then .page else .table)

/-- `output_address(pte, shift)` is bits [47:shift] of the PTE in place, all others zero: below `2^48`, a multiple of `2^shift`
(rule R114). -/
def Obligations.OutputAddressIsTheAddressField : Prop :=
  ∀ (pte : Word) (shift : Nat), shift ≤ 64 →
    (∀ i, (outputAddress pte shift).getLsbD i = (decide (shift ≤ i) && decide (i < 48) && pte.getLsbD i)) ∧
      (outputAddress pte shift).toNat < 2 ^ 48 ∧ 2 ^ shift ∣ (outputAddress pte shift).toNat

/-- The codes of granules, accesses, permissions and stages: tag 0 names no granule and stands for 4K pages in `TLBI_IOVA`, tags 1
to 3 are 4K, 16K and 64K; `acc` 1 reads and 2 writes; a permission's bit 0 is for reads, bit 1 for writes; stages are 1 and 2
(rules R23, R38, R39, R88, R89, R215). -/
def Obligations.CodesOfGranulesAndAccesses : Prop :=
  [0, 1, 2, 3].map granuleOfTag = [none, some .g4K, some .g16K, some .g64K] ∧
    [Granule.g4K, .g16K, .g64K].map tagOf = [1, 2, 3] ∧ [Granule.g4K, .g16K, .g64K].map shiftOf = [12, 14, 16] ∧
    [0, 1, 2, 3].map rangeShift = [12, 12, 14, 16] ∧
    [0, 1, 2, 3].map accessOfCode = [none, some .read, some .write, none] ∧
    [AccessKind.read, .write].map accessMask = [0b01, 0b10] ∧
    (∀ p : BitVec 2, permits p .read = p.getLsbD 0 ∧ permits p .write = p.getLsbD 1) ∧
    [0, 1, 2, 3].map stageOfCode = [none, some .s1, some .s2, none]

/-- The table of `level_shift` values (rule R110). -/
def Obligations.LevelShiftTable : Prop :=
  [-1, 0, 1, 2, 3].map (levelShift · .g4K) = [48, 39, 30, 21, 12] ∧
    [-1, 0, 1, 2, 3].map (levelShift · .g16K) = [58, 47, 36, 25, 14] ∧
    [-1, 0, 1, 2, 3].map (levelShift · .g64K) = [68, 55, 42, 29, 16]

/-- The index of a level is the input address cut to `inputsize` bits, its bits from the level's shift on, at most one table's
worth of them (rule R112). -/
def Obligations.TableIndexIsAnInputField : Prop :=
  ∀ (ia : Word) (inputsize level : Nat) (g : Granule), inputsize ≤ 64 →
    (tableIndex ia inputsize level g).toNat =
      ia.toNat % 2 ^ inputsize / 2 ^ levelShift level g % 2 ^ (shiftOf g - 3)

/-- A stage-1 region is walkable exactly when its granule tag is 1, 2 or 3 and its input size is from `g + 1` to 48 bits (rule
R26). It then starts at a level 0 to 3 whose table resolves at least one and at most `stride` input bits; the start level is
`4 - ceil((inputsize - g) / stride)` (rules R141, R142). -/
def Obligations.WalkableRegionsStartInsideTheTree : Prop :=
  (∀ (tt : TableInfo) (g : Granule), walkable1 tt = some g ↔
    shiftOf g = 10 + 2 * tt.tg.toNat ∧ shiftOf g + 1 ≤ 64 - tt.tsz.toNat ∧ 64 - tt.tsz.toNat ≤ 48) ∧
  (∀ (tt : TableInfo) (g : Granule), walkable1 tt = some g →
    startLevel1 (inputSize tt.tsz) g ≤ 3 ∧
      startLevel1 (inputSize tt.tsz) g + (inputSize tt.tsz - shiftOf g + (stride g - 1)) / stride g = 4 ∧
      levelShift (startLevel1 (inputSize tt.tsz) g) g + 1 ≤ inputSize tt.tsz ∧
      inputSize tt.tsz ≤ levelShift (startLevel1 (inputSize tt.tsz) g) g + stride g)

/-- A stage-2 descriptor is walkable exactly when its granule tag is 1, 2 or 3, its start level `2 - sl0` (4K) or `3 - sl0` is 0 to
3, and its input size is at least one bit more than the start level's shift, at most 48 and at most four bits more than the shift
one level up (rules R28, R161). Its input then has at most 48 bits, and its root is at most 16 concatenated tables (rules R28,
R161, R163). -/
def Obligations.WalkableStage2HasAtMostSixteenRoots : Prop :=
  (∀ (s2 : Stage2Info) (g : Granule),
    let start : Int := (if g = .g4K then 2 else 3) - s2.sl0.toNat
    walkable2 s2 = some g ↔
      shiftOf g = 10 + 2 * s2.tg.toNat ∧ 0 ≤ start ∧ start ≤ 3 ∧ levelShift start g + 1 ≤ 64 - s2.tsz.toNat ∧
        64 - s2.tsz.toNat ≤ 48 ∧ 64 - s2.tsz.toNat ≤ levelShift (start - 1) g + 4) ∧
  (∀ (s2 : Stage2Info) (g : Granule), walkable2 s2 = some g →
    0 ≤ startLevel2 s2.sl0 g ∧ startLevel2 s2.sl0 g ≤ 3 ∧ inputSize s2.tsz ≤ 48 ∧
      levelShift (startLevel2 s2.sl0 g) g + 1 ≤ inputSize s2.tsz ∧
      2 ^ (inputSize s2.tsz - levelShift (startLevel2 s2.sl0 g) g) ≤ 16 * 2 ^ stride g)

/-! ### The selector (`spec/41_table_selector.md`) -/

/-- The priority chain of rules R131 to R136, the tested ranges written bit by bit: bits `64 - tsz` to 63, or to 55 when the top
byte is ignored (rule R138: no bit at all when that range is empty). -/
def Obligations.SelectorFollowsThePriorityChain : Prop :=
  ∀ (cfg : TranslationConfig) (ia : Word),
    let ignored := if ia.getLsbD 55 then cfg.tbi.getLsbD 1 else cfg.tbi.getLsbD 0
    let top := if ignored then 55 else 63
    let allZero := ∀ i, 64 - cfg.tt0.tsz.toNat ≤ i → i ≤ top → ia.getLsbD i = false
    let allOne := ∀ i, 64 - cfg.tt1.tsz.toNat ≤ i → i ≤ top → ia.getLsbD i = true
    (cfg.tt0.tsz ≠ 0 ∧ allZero → select cfg ia = some .r0) ∧
    (¬(cfg.tt0.tsz ≠ 0 ∧ allZero) → cfg.tt1.tsz ≠ 0 ∧ allOne → select cfg ia = some .r1) ∧
    (¬(cfg.tt0.tsz ≠ 0 ∧ allZero) → ¬(cfg.tt1.tsz ≠ 0 ∧ allOne) →
      select cfg ia = if cfg.tt0.tsz = 0 then some .r0 else if cfg.tt1.tsz = 0 then some .r1 else none)

/-- With the top byte ignored the choice does not depend on it (rule R139 (d)). -/
def Obligations.SelectorIgnoresAnIgnoredTopByte : Prop :=
  ∀ (cfg : TranslationConfig) (ia ia' : Word), ia.extractLsb' 0 56 = ia'.extractLsb' 0 56 →
    tbiActive cfg ia = true → select cfg ia' = select cfg ia

/-! ### The walks (`spec/42_walker_stage1.md`, `spec/43_walker_stage2.md`, `spec/60_exceptions.md`) -/

/-- A fetch that fails is a `WalkExternalAbort` that carries the address of the fetch; a fetch that delivers an Invalid word,
zero among them, or a Reserved one is a `Translation` fault that carries the input address (rules R59, R145, R146, R166). -/
def Obligations.FailedFetchIsNotAnEmptyEntry : Prop :=
  ∀ (rd : Reader) (cfg : TranslationConfig) (ia : Word) (acc : AccessKind) (w : Walk), w.level ≤ 3 →
    (pteAnswer rd (pteAddr w ia) = none →
      (walkFetch rd cfg ia acc w).2 = .done (.failure ⟨.walkExternalAbort, walkStage w, pteAddr w ia⟩)) ∧
    (∀ pte, pteAnswer rd (pteAddr w ia) = some pte →
      (pte.getLsbD 0 = false ∨ (w.level = 3 ∧ pte.extractLsb' 0 2 = 0b01#2)) →
      (walkFetch rd cfg ia acc w).2 = .done (.failure ⟨.translation, walkStage w, ia⟩))

/-- A leaf whose access flag is clear, with the access-flag fault not disabled for its stage, is an `Access` fault, whatever its
permission bits say, for a Page and for a Block (rule R256). -/
def Obligations.AccessFaultComesBeforePermission : Prop :=
  ∀ (rd : Reader) (cfg : TranslationConfig) (ia : Word) (acc : AccessKind) (w : Walk) (pte : Word), w.level ≤ 3 →
    pteAnswer rd (pteAddr w ia) = some pte →
    pte.extractLsb' 0 2 = (if w.level = 3 then 0b11#2 else 0b01#2) → pte.getLsbD 10 = false →
    (match w.kind with | .region _ => cfg.affd | .stage2 => cfg.s2.affd) = false →
    (walkFetch rd cfg ia acc w).2 = .done (.failure ⟨.access, walkStage w, ia⟩)

/-- The other faults of a fetched word, each carrying the input address: a stage-1 Table whose APTABLE forbids writes, `had`
clear, for a write (rule R147); a leaf whose access flag is set, or whose access-flag fault is disabled for its stage (rules R149,
R168), that is read-only at stage 1, for a write (rule R150), or does not permit the access at stage 2 (rule R169); such a
stage-2 leaf that permits the access and whose output base is not below `2^eff_ps` (rule R170). -/
def Obligations.PermissionAndSizeFaultsOfAFetchedWord : Prop :=
  ∀ (rd : Reader) (cfg : TranslationConfig) (ia : Word) (acc : AccessKind) (w : Walk) (pte : Word), w.level ≤ 3 →
    pteAnswer rd (pteAddr w ia) = some pte →
    let leaf := fun affd : Bool =>
      pte.extractLsb' 0 2 = (if w.level = 3 then 0b11#2 else 0b01#2) ∧ (pte.getLsbD 10 = true ∨ affd = true)
    let base := pte &&& mask 48 &&& ~~~ mask (levelShift w.level w.granule)
    (∀ r, w.kind = .region r → w.level < 3 → pte.extractLsb' 0 2 = 0b11#2 → (regionOf cfg r).had = false →
      pte.getLsbD 62 = true → acc = .write →
      (walkFetch rd cfg ia acc w).2 = .done (.failure ⟨.permission, .s1, ia⟩)) ∧
    (∀ r, w.kind = .region r → leaf cfg.affd → pte.getLsbD 7 = true → acc = .write →
      (walkFetch rd cfg ia acc w).2 = .done (.failure ⟨.permission, .s1, ia⟩)) ∧
    (w.kind = .stage2 → leaf cfg.s2.affd → pte.extractLsb' 6 2 &&& accessMask acc ≠ accessMask acc →
      (walkFetch rd cfg ia acc w).2 = .done (.failure ⟨.permission, .s2, ia⟩)) ∧
    (w.kind = .stage2 → leaf cfg.s2.affd → pte.extractLsb' 6 2 &&& accessMask acc = accessMask acc →
      base.toNat ≥ 2 ^ cfg.effPs.toNat →
      (walkFetch rd cfg ia acc w).2 = .done (.failure ⟨.addrSize, .s2, ia⟩))

/-- Under a stage-2 config with a walkable descriptor the input is checked before anything is fetched: against `oas` first, an
`AddrSize` fault of stage 1 (rule R182), then against the descriptor's input size, a `Translation` fault of stage 2 (rule
R162). -/
def Obligations.Stage2InputChecksComeBeforeAnyFetch : Prop :=
  ∀ (rd : Reader) (cfg : TranslationConfig) (ia : Word) (acc : AccessKind) (g : Granule),
    cfg.stage = 2 → walkable2 cfg.s2 = some g →
    (ia.toNat ≥ 2 ^ cfg.oas.toNat → runWalk cfg ia acc rd = (rd, .failure ⟨.addrSize, .s1, ia⟩)) ∧
    (ia.toNat < 2 ^ cfg.oas.toNat → ia.toNat ≥ 2 ^ inputSize cfg.s2.tsz →
      runWalk cfg ia acc rd = (rd, .failure ⟨.translation, .s2, ia⟩))

/-- A walk makes at most four fetches, adds nothing else to what the Memory Reader has been asked, and leaves memory as it is
(rules R54, R155). The list of requests made is the model's own (log 6). -/
def Obligations.WalkMakesAtMostFourFetches : Prop :=
  ∀ (cfg : TranslationConfig) (ia : Word) (acc : AccessKind) (rd : Reader),
    (runWalk cfg ia acc rd).1.mem = rd.mem ∧ (runWalk cfg ia acc rd).1.errs = rd.errs ∧
      ∃ fetched, (runWalk cfg ia acc rd).1.issued = fetched ++ rd.issued ∧ fetched.length ≤ 4

/-- The stage a fault carries: 1 under a stage-1 config, which never reports `AddrSize`; 2 under a stage-2 config, but for the
input check against `oas`, an `AddrSize` fault of stage 1 (rules R154, R182, R252). -/
def Obligations.FaultsCarryTheirStage : Prop :=
  ∀ (cfg : TranslationConfig) (ia : Word) (acc : AccessKind) (rd : Reader) (f : FaultInfo),
    (runWalk cfg ia acc rd).2 = .failure f →
    (cfg.stage = 1 → f.stage = .s1 ∧ f.kind ≠ .addrSize) ∧
    (cfg.stage = 2 → (f.stage = .s1 ↔ ia.toNat ≥ 2 ^ cfg.oas.toNat) ∧ (f.stage = .s1 → f.kind = .addrSize ∧ f.addr = ia))

/-- What a successful walk returns: the access is permitted by the entry (rule R188), the entry's mask is that of its level and
granule, its page is the input address without the mask's bits, its output base is aligned and below `2^48` (rules R33, R50,
R151, R171). -/
def Obligations.SuccessfulWalkReturnsASoundEntry : Prop :=
  ∀ (cfg : TranslationConfig) (ia : Word) (acc : AccessKind) (rd : Reader) (e : Entry),
    (runWalk cfg ia acc rd).2 = .success e →
      e.perm &&& accessMask acc = accessMask acc ∧ EntryWf e ∧ e.iap = ia &&& ~~~ e.addrMask ∧ e.ta.toNat < 2 ^ 48

/-- `PTW` under a stage-1 config. If the selected region is enabled and walkable, Table descriptors lead from its aligned
root to a table, the word fetched from that table is a leaf with its access flag set (or the fault disabled), and for a write
neither the leaf nor (with `had` clear) a Table on the way forbids writes, then the command answers `OK` with the leaf's
mapping and the full output address, after one fetch a level, and changes nothing (rules R140 to R151, R180, R181). That the
dropped request words read zero is the model's own choice (log 18). -/
def Obligations.Stage1WalkAnswersTheMappingOfTheTables : Prop :=
  ∀ (s : State) (dev : DevId) (ia : Word) (code : BitVec 2) (acc : AccessKind) (cfg : TranslationConfig) (r : RegionIx)
    (g : Granule) (level : Nat) (base pte : Word) (forbids : Bool),
    accessOfCode code = some acc → validConfig s dev = some cfg → cfg.aa64 = true → cfg.stage = 1 →
    select cfg ia = some r → (regionOf cfg r).disabled = false → walkable1 (regionOf cfg r) = some g →
    let inputsize := inputSize (regionOf cfg r).tsz
    let start := startLevel1 inputsize g
    let root := (regionOf cfg r).tableBase.setWidth 64 &&& ~~~ mask (inputsize - levelShift start g + 3)
    let size := levelShift level g
    TablePath s.reader ia inputsize g (!(regionOf cfg r).had) start root false level base forbids →
    LeafAt s.reader ia inputsize g level base pte →
    (pte.getLsbD 10 = true ∨ cfg.affd = true) → (acc = .write → pte.getLsbD 7 = false ∧ forbids = false) →
    ∃ t, exec (.ptw dev ia code) s = .next t ∧
      Answers s t (.entry
        { ta := pte &&& mask 48 &&& ~~~ mask size, iap := ia &&& ~~~ mask size, addrMask := mask size,
          perm := if pte.getLsbD 7 || forbids then 0b01#2 else 0b11#2, level := BitVec.ofNat 2 level, granule := g } false
        ((pte &&& mask 48 &&& ~~~ mask size) ||| (ia &&& mask size))) ∧
      t.iotlb = s.iotlb ∧ SameTable s t ∧ SameOutside s t ∧
      t.reader.issued.length = s.reader.issued.length + (level - start + 1)

/-- `PTW` under a stage-2 config. If the descriptor is walkable, the address is within `oas` and within the descriptor's
input size, Table descriptors lead from the concatenated root the address selects to a table, and the word fetched from that
table is a leaf with its access flag set (or the fault disabled) that permits the access and whose output base is below
`2^eff_ps`, then the command answers `OK` with the leaf's mapping and the full output address, after one fetch a level, and
changes nothing (rules R160 to R171, R180, R182). That the dropped request words read zero is the model's own choice (log
18). -/
def Obligations.Stage2WalkAnswersTheMappingOfTheTables : Prop :=
  ∀ (s : State) (dev : DevId) (ia : Word) (code : BitVec 2) (acc : AccessKind) (cfg : TranslationConfig)
    (g : Granule) (level : Nat) (base pte : Word),
    accessOfCode code = some acc → validConfig s dev = some cfg → cfg.aa64 = true → cfg.stage = 2 →
    walkable2 cfg.s2 = some g → ia.toNat < 2 ^ cfg.oas.toNat → ia.toNat < 2 ^ inputSize cfg.s2.tsz →
    let inputsize := inputSize cfg.s2.tsz
    let start := (startLevel2 cfg.s2.sl0 g).toNat
    let root := (cfg.s2.tableBase.setWidth 64 &&& ~~~ mask (inputsize - levelShift start g + 3)) +
      (ia >>> levelShift ((start : Int) - 1) g) <<< shiftOf g
    let size := levelShift level g
    TablePath s.reader ia inputsize g false start root false level base false →
    LeafAt s.reader ia inputsize g level base pte →
    (pte.getLsbD 10 = true ∨ cfg.s2.affd = true) → pte.extractLsb' 6 2 &&& accessMask acc = accessMask acc →
    (pte &&& mask 48 &&& ~~~ mask size).toNat < 2 ^ cfg.effPs.toNat →
    ∃ t, exec (.ptw dev ia code) s = .next t ∧
      Answers s t (.entry
        { ta := pte &&& mask 48 &&& ~~~ mask size, iap := ia &&& ~~~ mask size, addrMask := mask size,
          perm := pte.extractLsb' 6 2, level := BitVec.ofNat 2 level, granule := g } false
        ((pte &&& mask 48 &&& ~~~ mask size) ||| (ia &&& mask size))) ∧
      t.iotlb = s.iotlb ∧ SameTable s t ∧ SameOutside s t ∧
      t.reader.issued.length = s.reader.issued.length + (level - start + 1)

/-- `PTW` of a device with a usable config answers what the walk of that config returns: the entry with the full output
address and `flag` 0, the fault, or `ConfigError`; the fetches made are the walk's (rules R180 to R183). Whatever it answers
it writes no state: no IOTLB entry, no counter, no record (rule R180). That the dropped request words read zero is the
model's own choice (log 18). -/
def Obligations.PtwAnswersTheWalkAndWritesNoState : Prop :=
  (∀ (s : State) (dev : DevId) (ia : Word) (code : BitVec 2) (acc : AccessKind) (cfg : TranslationConfig),
    accessOfCode code = some acc → validConfig s dev = some cfg → cfg.aa64 = true → (cfg.stage = 1 ∨ cfg.stage = 2) →
    ∃ t, exec (.ptw dev ia code) s = .next t ∧ t.reader = (runWalk cfg ia acc s.reader).1 ∧
      Answers s t (match (runWalk cfg ia acc s.reader).2 with
        | .success e => .entry e false (e.ta ||| (ia &&& e.addrMask))
        | .failure f => .fault f
        | .configError => .configError)) ∧
  (∀ (s t : State) (dev : DevId) (ia : Word) (code : BitVec 2), exec (.ptw dev ia code) s = .next t →
    t.iotlb = s.iotlb ∧ SameTable s t ∧ SameOutside s t)

/-! ### `TRANSLATE` (`spec/44_dispatch_translate.md`) -/

/-- A hit is answered from the entry, with no `ReadPTE`: `OK` with `flag = 1` when the entry permits the access, else a
`Permission` fault of the config's stage. One hit is counted, the IOTLB is unchanged (rule R186). That the dropped request
words read zero is the model's own choice (log 18). -/
def Obligations.TranslateHitIsServedFromTheEntry : Prop :=
  ∀ (s : State) (dev : DevId) (ia : Word) (code : BitVec 2) (acc : AccessKind) (cfg : TranslationConfig) (st : Stage)
    (g : Granule) (e : Entry),
    accessOfCode code = some acc → usableConfig s dev = some (cfg, st) → lookupGranule cfg st ia = .ok g →
    probe s.iotlb cfg g ia = some e →
    ∃ t, exec (.translate dev ia code) s = .next t ∧
      Answers s t (if e.perm &&& accessMask acc = accessMask acc then .entry e true (e.ta ||| (ia &&& e.addrMask))
        else .fault ⟨.permission, st, ia⟩) ∧
      Counted s t dev true ∧ t.iotlb = s.iotlb ∧ Quiet s t

/-- A miss walks; on success the entry is inserted under the config's identifiers and the answer is `OK` with `flag = 0`. One
miss is counted, with the walk's fetches and no other (rules R187, R188). That the dropped request words read zero is the
model's own choice (log 18). -/
def Obligations.TranslateMissWalksAndInserts : Prop :=
  ∀ (s : State) (dev : DevId) (ia : Word) (code : BitVec 2) (acc : AccessKind) (cfg : TranslationConfig) (st : Stage)
    (g : Granule) (e : Entry),
    accessOfCode code = some acc → usableConfig s dev = some (cfg, st) → lookupGranule cfg st ia = .ok g →
    probe s.iotlb cfg g ia = none → (runWalk cfg ia acc s.reader).2 = .success e →
    ∃ t, exec (.translate dev ia code) s = .next t ∧
      Answers s t (.entry e false (e.ta ||| (ia &&& e.addrMask))) ∧
      Inserted s t ⟨cfg.asid, cfg.vmid, ia &&& ~~~ e.addrMask, tagOf g, e.level⟩ e ∧
      Counted s t dev false ∧ SameOutside s t ∧ t.reader.issued = (runWalk cfg ia acc s.reader).1.issued

/-- A miss whose walk faults is answered with that fault; nothing is inserted, and the miss stays counted (rules R187, R189).
That the dropped request words read zero is the model's own choice (log 18). -/
def Obligations.TranslateFaultingWalkInsertsNothing : Prop :=
  ∀ (s : State) (dev : DevId) (ia : Word) (code : BitVec 2) (acc : AccessKind) (cfg : TranslationConfig) (st : Stage)
    (g : Granule) (f : FaultInfo),
    accessOfCode code = some acc → usableConfig s dev = some (cfg, st) → lookupGranule cfg st ia = .ok g →
    probe s.iotlb cfg g ia = none → (runWalk cfg ia acc s.reader).2 = .failure f →
    ∃ t, exec (.translate dev ia code) s = .next t ∧ Answers s t (.fault f) ∧
      t.iotlb = s.iotlb ∧ Counted s t dev false ∧ SameOutside s t

/-- An address that selects no region, or a disabled one, is a `Translation` fault of stage 1 before any lookup: nothing is
counted, fetched or inserted (rules R136, R137, R185). That the dropped request words read zero is the model's own choice
(log 18). -/
def Obligations.TranslateOutsideTheRegionsCountsNothing : Prop :=
  ∀ (s : State) (dev : DevId) (ia : Word) (code : BitVec 2) (acc : AccessKind) (cfg : TranslationConfig),
    accessOfCode code = some acc → validConfig s dev = some cfg → cfg.aa64 = true → cfg.stage = 1 →
    (select cfg ia = none ∨ ∃ r, select cfg ia = some r ∧ (regionOf cfg r).disabled = true) →
    ∃ t, exec (.translate dev ia code) s = .next t ∧ Answers s t (.fault ⟨.translation, .s1, ia⟩) ∧
      t.iotlb = s.iotlb ∧ SameTable s t ∧ Quiet s t

/-- Faults are precise (rule R257): when `TRANSLATE` is answered with a fault, no IOTLB entry and no memory has changed, and
of the device table at most one counter of the device, by one. That the dropped request words read zero is the model's own
choice (log 18). -/
def Obligations.TranslateFaultsArePrecise : Prop :=
  ∀ (s t : State) (dev : DevId) (ia : Word) (code : BitVec 2) (f : FaultInfo),
    exec (.translate dev ia code) s = .next t → Answers s t (.fault f) →
    t.iotlb = s.iotlb ∧ SameOutside s t ∧ (SameTable s t ∨ Counted s t dev true ∨ Counted s t dev false)

/-- Translating the same address again at once gives the same answer, now from the IOTLB: `flag` is 1, a hit is counted,
nothing is fetched (rule R191). That the dropped request words read zero is the model's own choice (log 18). -/
def Obligations.TranslateAgainIsServedFromTheIotlb : Prop :=
  ∀ (s t : State) (dev : DevId) (ia : Word) (code : BitVec 2) (e : Entry) (flag : Bool) (out : Word),
    exec (.translate dev ia code) s = .next t → Answers s t (.entry e flag out) →
    ∃ u, exec (.translate dev ia code) t = .next u ∧ Answers t u (.entry e true out) ∧
      Counted t u dev true ∧ u.iotlb = t.iotlb ∧ Quiet t u

/-! ### The IOTLB (`spec/45_iotlb.md`) -/

/-- A lookup probes levels 3, 2, 1, 0 with the address masked at each level's block size, and the first match wins: the answer is
the entry of a level at which the key is present while it is present at no finer level (rules R201 to R203). -/
def Obligations.LookupAnswersTheFinestMatch : Prop :=
  ∀ (m : List (Key × Entry)) (cfg : TranslationConfig) (g : Granule) (ia : Word) (e : Entry),
    let key := fun level : Nat =>
      (⟨cfg.asid, cfg.vmid, ia &&& ~~~ mask (levelShift level g), tagOf g, BitVec.ofNat 2 level⟩ : Key)
    probe m cfg g ia = some e ↔
      ∃ level, level ≤ 3 ∧ assocGet (key level) m = some e ∧
        ∀ finer, level < finer → finer ≤ 3 → assocGet (key finer) m = none

/-- `TLB_LOOKUP` answers the entry found, with `flag` and `out` zero, and counts a hit; or it answers `Miss`, status 1, and
counts a miss. Nothing else changes (rules R204, R205). That the dropped request words read zero is the model's own choice
(log 18). -/
def Obligations.TlbLookupAnswersAndCounts : Prop :=
  ∀ (s : State) (dev : DevId) (rgn : RegionIx) (ia : Word) (cfg : TranslationConfig) (g : Granule),
    validConfig s dev = some cfg →
    ((cfg.stage = 1 ∧ granuleOfTag (regionOf cfg rgn).tg = some g) ∨ (cfg.stage = 2 ∧ granuleOfTag cfg.s2.tg = some g)) →
    (∀ e, probe s.iotlb cfg g ia = some e →
      ∃ t, exec (.tlbLookup dev rgn ia) s = .next t ∧ Answers s t (.entry e false 0) ∧ Counted s t dev true ∧
        t.iotlb = s.iotlb ∧ Quiet s t) ∧
    (probe s.iotlb cfg g ia = none →
      ∃ t, exec (.tlbLookup dev rgn ia) s = .next t ∧ Answers s t .miss ∧ Counted s t dev false ∧
        t.iotlb = s.iotlb ∧ Quiet s t)

/-- An insert stores the entry under its key and supersedes what was there; at the cap everything else is cleared first, even if
the key was present (rules R206 to R208). The cache is read through `assocGet`; of a cache listed in the order of its keys, the
model's own form (log 5), no pair of the key is left but the new one, the order is kept, and a pair is added only if the key was
absent. -/
def Obligations.InsertSupersedesOrClears : Prop :=
  ∀ (cap : Nat) (m : List (Key × Entry)) (cfg : TranslationConfig) (e : Entry),
    let key : Key := ⟨cfg.asid, cfg.vmid, e.iap, tagOf e.granule, e.level⟩
    (∀ k, assocGet k (insertEntry cap m cfg e) =
      if k = key then some e else if cap ≤ m.length then none else assocGet k m) ∧
    (cap ≤ m.length → insertEntry cap m cfg e = [(key, e)]) ∧
    (m.length < cap → (insertEntry cap m cfg e).length ≤ m.length + 1) ∧
    (m.Pairwise (fun a b => keyCode a.1 < keyCode b.1) →
      (insertEntry cap m cfg e).Pairwise (fun a b => keyCode a.1 < keyCode b.1) ∧
      (∀ p ∈ insertEntry cap m cfg e, p.1 = key → p.2 = e) ∧
      (m.length < cap →
        (insertEntry cap m cfg e).length = if assocGet key m = none then m.length + 1 else m.length))

/-- Inserting `N + 1` entries with distinct keys into an empty cache of cap `N` leaves exactly one entry (rule R207). -/
def Obligations.OneEntryIsLeftAfterCapPlusOneInserts : Prop :=
  ∀ (cap : Nat) (inserts : List (TranslationConfig × Entry)), 1 ≤ cap → inserts.length = cap + 1 →
    (inserts.map fun p => keyOfEntry p.1 p.2).Nodup →
    (inserts.foldl (fun m p => insertEntry cap m p.1 p.2) []).length = 1

/-- `TLB_INSERT` stores the entry its operands describe, the mask computed from level and granule, and answers `OK` (rule
R209). That the dropped request words read zero is the model's own choice (log 18). -/
def Obligations.TlbInsertStoresTheEntry : Prop :=
  ∀ (s : State) (dev : DevId) (iap ta : Word) (tg lvl perm : BitVec 2) (cfg : TranslationConfig) (g : Granule),
    validConfig s dev = some cfg → granuleOfTag tg = some g →
    iap &&& mask (levelShift lvl.toNat g) = 0 → ta &&& mask (levelShift lvl.toNat g) = 0 →
    ∃ t, exec (.tlbInsert dev iap ta tg lvl perm) s = .next t ∧ Answers s t .ok ∧
      Inserted s t ⟨cfg.asid, cfg.vmid, iap, tg, lvl⟩ ⟨ta, iap, mask (levelShift lvl.toNat g), perm, lvl, g⟩ ∧
      SameTable s t ∧ Quiet s t

/-- `TLBI_ALL` empties the IOTLB. `TLBI_ASID` removes every pair whose key has the `asid`, and every other stays; `TLBI_VMID`
the same for the `vmid`. None touches anything else (rules R211, R212, R213, R222). That the dropped request words read zero
is the model's own choice (log 18). -/
def Obligations.TlbiAllAsidAndVmidRemoveExactlyTheirPairs : Prop :=
  (∀ s : State, ∃ t, exec .tlbiAll s = .next t ∧ Answers s t .ok ∧ t.iotlb = [] ∧ SameTable s t ∧ Quiet s t) ∧
  (∀ (s : State) (asid : BitVec 16), ∃ t, exec (.tlbiAsid asid) s = .next t ∧ Answers s t .ok ∧
    (∀ p, p ∈ t.iotlb ↔ p ∈ s.iotlb ∧ p.1.asid ≠ asid) ∧ SameTable s t ∧ Quiet s t) ∧
  (∀ (s : State) (vmid : BitVec 16), ∃ t, exec (.tlbiVmid vmid) s = .next t ∧ Answers s t .ok ∧
    (∀ p, p ∈ t.iotlb ↔ p ∈ s.iotlb ∧ p.1.vmid ≠ vmid) ∧ SameTable s t ∧ Quiet s t)

/-- After `TLBI_ASID` no lookup under that `asid` hits, and every lookup under another answers as before (rule R212, its
completeness and precision). -/
def Obligations.InvalidatedAsidForcesAMiss : Prop :=
  ∀ (s t : State) (asid : BitVec 16), exec (.tlbiAsid asid) s = .next t →
    ∀ (cfg : TranslationConfig) (g : Granule) (ia : Word),
      probe t.iotlb cfg g ia = if cfg.asid = asid then none else probe s.iotlb cfg g ia

/-- The fast path of `TLBI_IOVA`: with a level given, one page and no wildcard, a pair under exactly that key is removed, and
no other (rule R216). That the dropped request words read zero is the model's own choice (log 18). -/
def Obligations.TlbiIovaFastPathRemovesOneKey : Prop :=
  ∀ (s : State) (asid vmid : BitVec 16) (tg lvl : BitVec 2) (iova : Word) (e : Entry),
    lvl ≠ 0 → assocGet ⟨asid, vmid, iova, tg, lvl⟩ s.iotlb = some e →
    ∃ t, exec (.tlbiIova false false asid vmid tg lvl iova 1) s = .next t ∧ Answers s t .ok ∧
      (∀ p, p ∈ t.iotlb ↔ p ∈ s.iotlb ∧ p.1 ≠ ⟨asid, vmid, iova, tg, lvl⟩) ∧ SameTable s t ∧ Quiet s t

/-- The scan of `TLBI_IOVA`: when the fast path is not attempted or finds nothing, every pair in scope whose range intersects
the request's is removed, on unbounded integers, and every other stays; tag 0 stands for 4K pages (rules R215, R217 to R220).
That the dropped request words read zero is the model's own choice (log 18). -/
def Obligations.TlbiIovaScanRemovesExactlyTheOverlaps : Prop :=
  ∀ (s : State) (aw vw : Bool) (asid vmid : BitVec 16) (tg lvl : BitVec 2) (iova numPages : Word),
    (aw = true → asid = 0) → (vw = true → vmid = 0) →
    ¬(lvl ≠ 0 ∧ numPages = 1 ∧ aw = false ∧ vw = false ∧ assocGet ⟨asid, vmid, iova, tg, lvl⟩ s.iotlb ≠ none) →
    let granuleSize := 2 ^ (if tg = 0 then 12 else 10 + 2 * tg.toNat)
    ∃ t, exec (.tlbiIova aw vw asid vmid tg lvl iova numPages) s = .next t ∧ Answers s t .ok ∧
      (∀ p, p ∈ t.iotlb ↔ p ∈ s.iotlb ∧
        ¬((aw = true ∨ p.1.asid = asid) ∧ (vw = true ∨ p.1.vmid = vmid) ∧
          ((p.2.iap.toNat ≤ iova.toNat ∧ iova.toNat ≤ p.2.iap.toNat + p.2.addrMask.toNat) ∨
            (iova.toNat ≤ p.2.iap.toNat ∧ p.2.iap.toNat < iova.toNat + numPages.toNat * granuleSize)))) ∧
      SameTable s t ∧ Quiet s t

/-- The double test of the scan finds every overlap: for a request of at least one page it holds exactly when some address lies in
the entry's range and in the request's (rule R219's "symmetric in effect"). -/
def Obligations.IntersectionTestFindsEveryOverlap : Prop :=
  ∀ (iova numPages shift : Nat) (e : Entry), 1 ≤ numPages →
    (rangeIntersects iova numPages shift e = true ↔
      ∃ a, e.iap.toNat ≤ a ∧ a ≤ e.iap.toNat + e.addrMask.toNat ∧ iova ≤ a ∧ a < iova + numPages * 2 ^ shift)

/-! ### The device table (`spec/46_context_table.md`) -/

/-- `DEV_GET` of a device without a record creates one: no valid config, counters zero, no notifier, its bus populated; the
answer has `flag` 1 and `cfgv` 0. Of a device with a record it changes nothing; the answer has `flag` 0 and the record's
`cfg_valid`. Nothing is said of a new record's config and handle (rules R231, R232). That the notifier list of a new record
is empty follows rule R231 where rule R44 leaves it open (log 3). That the dropped request words read zero is the model's own
choice (log 18). -/
def Obligations.DevGetCreatesTheRecordOnce : Prop :=
  ∀ (s : State) (dev : DevId),
    (deviceOf s dev = none →
      ∃ t r, exec (.devGet dev) s = .next t ∧ Answers s t (.device true false) ∧ deviceOf t dev = some r ∧
        r.cfgValid = false ∧ r.hits = 0 ∧ r.misses = 0 ∧ r.notifier = [] ∧
        (∀ d, d ≠ dev → deviceOf t d = deviceOf s d) ∧
        (∀ b, b ∈ t.buses ↔ b = dev.extractLsb' 8 8 ∨ b ∈ s.buses) ∧ t.iotlb = s.iotlb ∧ Quiet s t) ∧
    (∀ r, deviceOf s dev = some r →
      ∃ t, exec (.devGet dev) s = .next t ∧ Answers s t (.device false r.cfgValid) ∧ SameTable s t ∧
        t.iotlb = s.iotlb ∧ Quiet s t)

/-- `CFG_SET` stores the config as given, valid, with both counters zero, creating the record if there is none and keeping
handle and notifiers if there is one; no IOTLB entry is touched (rules R233, R291). That the notifier list of a new record is
empty follows rule R231 where rule R44 leaves it open (log 3). That the dropped request words read zero is the model's own
choice (log 18). -/
def Obligations.CfgSetStoresTheConfig : Prop :=
  ∀ (s : State) (dev : DevId) (cfg : TranslationConfig),
    ∃ t r, exec (.cfgSet dev cfg) s = .next t ∧ Answers s t .ok ∧ deviceOf t dev = some r ∧ r.cfgValid = true ∧
      r.cfg = cfg ∧ r.hits = 0 ∧ r.misses = 0 ∧
      (∀ old, deviceOf s dev = some old → r.asHandle = old.asHandle ∧ r.notifier = old.notifier ∧ t.buses = s.buses) ∧
      (deviceOf s dev = none → r.notifier = [] ∧ ∀ b, b ∈ t.buses ↔ b = dev.extractLsb' 8 8 ∨ b ∈ s.buses) ∧
      (∀ d, d ≠ dev → deviceOf t d = deviceOf s d) ∧ t.iotlb = s.iotlb ∧ Quiet s t

/-- `CFG_INV` clears `cfg_valid` and keeps the record, its counters among it, and the IOTLB (rules R234, R291). That the
dropped request words read zero is the model's own choice (log 18). -/
def Obligations.CfgInvKeepsTheCounters : Prop :=
  ∀ (s : State) (dev : DevId) (r : DevRecord), deviceOf s dev = some r →
    ∃ t, exec (.cfgInv dev) s = .next t ∧ Answers s t .ok ∧ OnlyRecord s t dev { r with cfgValid := false } ∧
      t.iotlb = s.iotlb ∧ Quiet s t

/-- `CNT_READ` answers the two counters and changes nothing, whether the config is valid or not (rule R235); `CNT_CLR` zeroes
the two counters of the record and changes nothing else (rule R236). That the dropped request words read zero is the model's
own choice (log 18). -/
def Obligations.CntReadAnswersAndCntClrZeroesBothCounters : Prop :=
  ∀ (s : State) (dev : DevId) (r : DevRecord), deviceOf s dev = some r →
    (∃ t, exec (.cntRead dev) s = .next t ∧
      Answers s t (.counters r.hits r.misses) ∧ SameTable s t ∧ t.iotlb = s.iotlb ∧ Quiet s t) ∧
    (∃ t, exec (.cntClr dev) s = .next t ∧ Answers s t .ok ∧ OnlyRecord s t dev { r with hits := 0, misses := 0 } ∧
      t.iotlb = s.iotlb ∧ Quiet s t)

/-- `ConfigError`, status 3, and no change of state: a command that names a device without a record, and does not create one;
a translating or cache command of a device without a valid config; a config of another format, of a stage other than 1 and 2,
or with an unwalkable region or descriptor where one is walked; `TLB_LOOKUP` of a region with granule tag 0 (rules R194,
R237, R258). That the dropped request words read zero is the model's own choice (log 18). -/
def Obligations.ConfigErrorChangesNothing : Prop :=
  ∀ (s : State) (i : Instr) (dev : DevId), i.wellFormed = true →
    ((deviceOf s dev = none ∧ (i = .cfgInv dev ∨ i = .cntRead dev ∨ i = .cntClr dev)) ∨
     (validConfig s dev = none ∧
       ((∃ ia acc, i = .translate dev ia acc ∨ i = .ptw dev ia acc) ∨ (∃ rgn ia, i = .tlbLookup dev rgn ia) ∨
         ∃ a d tg l p, i = .tlbInsert dev a d tg l p)) ∨
     (∃ cfg ia acc, validConfig s dev = some cfg ∧ (i = .translate dev ia acc ∨ i = .ptw dev ia acc) ∧
       (cfg.aa64 = false ∨ cfg.stage = 0 ∨ cfg.stage = 3 ∨ (cfg.stage = 2 ∧ walkable2 cfg.s2 = none) ∨
         (cfg.stage = 1 ∧ ∃ r, select cfg ia = some r ∧ (regionOf cfg r).disabled = false ∧
           walkable1 (regionOf cfg r) = none))) ∨
     (∃ cfg rgn ia, validConfig s dev = some cfg ∧ i = .tlbLookup dev rgn ia ∧
       (cfg.stage = 0 ∨ cfg.stage = 3 ∨ (cfg.stage = 1 ∧ (regionOf cfg rgn).tg = 0) ∨ (cfg.stage = 2 ∧ cfg.s2.tg = 0)))) →
    ∃ t, exec i s = .next t ∧ Answers s t .configError ∧ t.iotlb = s.iotlb ∧ SameTable s t ∧ Quiet s t

/-- A command on one device reads and writes that device's record only (rule R238). The record of any device it does not name is as
it was; and whatever records the other devices have, it gives the same state but for their records: the same answer, IOTLB and
fetches, and the same record of the device it names. -/
def Obligations.CommandsLeaveOtherDevicesAlone : Prop :=
  (∀ (i : Instr) (s t : State) (d : DevId), exec i s = .next t → namedDevice i ≠ some d →
    deviceOf t d = deviceOf s d) ∧
  (∀ (i : Instr) (s t : State) (ctx : List (DevId × DevRecord)),
    (∀ d, namedDevice i = some d → assocGet d ctx = assocGet d s.ctx) → exec i s = .next t →
    ∃ t', exec i { s with ctx := ctx } = .next t' ∧ t' = { t with ctx := t'.ctx } ∧
      ∀ d, namedDevice i = some d → deviceOf t' d = deviceOf t d)
end

