-- ==== Sys2Proof/Laws/Operands.lean ====
section
/-! SUPPORT. The pure functions of `Machine/Operands.lean` as arithmetic: masks, alignment, the geometry of the levels. -/

namespace Sys2Proof.Machine

/-! ### Masks (rule R5) -/

theorem mask_toNat {n : Nat} (h : n ≤ 64) : (mask n).toNat = 2 ^ n - 1 := by
  have h1 := Nat.pow_le_pow_right (show 0 < 2 by omega) h
  have h2 := Nat.two_pow_pos n
  rw [mask, BitVec.toNat_ofNat, Nat.mod_eq_of_lt (by omega)]

theorem mask_getLsbD (n i : Nat) (h : n ≤ 64) : (mask n).getLsbD i = decide (i < n) := by
  rw [BitVec.getLsbD, mask_toNat h, Nat.testBit_two_pow_sub_one]

/-- Masking keeps the remainder. -/
theorem and_mask_toNat (x : Word) {n : Nat} (h : n ≤ 64) : (x &&& mask n).toNat = x.toNat % 2 ^ n := by
  rw [BitVec.toNat_and, mask_toNat h, Nat.and_two_pow_sub_one_eq_mod]

/-- Masking off drops the remainder. -/
theorem and_not_mask_toNat (x : Word) {n : Nat} (h : n ≤ 64) :
    (x &&& ~~~ mask n).toNat = x.toNat - x.toNat % 2 ^ n := by
  have hx : x = (x &&& ~~~ mask n) + (x &&& mask n) := by
    rw [BitVec.add_eq_or_of_and_eq_zero]
    · ext i hi
      simp only [BitVec.getElem_or, BitVec.getElem_and, BitVec.getElem_not]
      cases x[i] <;> simp
    · ext i hi
      simp only [BitVec.getElem_and, BitVec.getElem_not, BitVec.getElem_zero]
      cases (mask n)[i] <;> simp
  have hle : (x &&& ~~~ mask n).toNat ≤ x.toNat := by
    rw [BitVec.toNat_and]; exact Nat.and_le_left
  have hm := and_mask_toNat x h
  have ht := congrArg BitVec.toNat hx
  rw [BitVec.toNat_add, hm] at ht
  have h3 := Nat.mod_le x.toNat (2 ^ n)
  have h4 := x.isLt
  omega

/-- What is left after masking off has no bit of the mask. -/
theorem and_not_mask_and_mask (x : Word) (n : Nat) : (x &&& ~~~ mask n) &&& mask n = 0 := by
  ext i hi
  simp only [BitVec.getElem_and, BitVec.getElem_not]
  cases (mask n)[i] <;> simp

/-- Masking off gives a multiple. -/
theorem dvd_and_not_mask (x : Word) {n : Nat} (h : n ≤ 64) : 2 ^ n ∣ (x &&& ~~~ mask n).toNat := by
  rw [and_not_mask_toNat x h]
  exact Nat.dvd_sub_mod x.toNat

/-! ### The geometry (rules R110 to R112) -/

/-- `level_shift` for the levels 0 to 3, in natural numbers. -/
theorem levelShift_nat {level : Nat} (h : level ≤ 3) (g : Granule) :
    levelShift level g = shiftOf g + (3 - level) * stride g := by
  interval_cases level <;> cases g <;> rfl

theorem levelShift_le {level : Nat} (h : level ≤ 3) (g : Granule) : 12 ≤ levelShift level g ∧ levelShift level g ≤ 55 := by
  interval_cases level <;> cases g <;> decide

/-- An index never leaves its table. -/
theorem tableIndex_lt (ia : Word) (inputsize level : Nat) (g : Granule) :
    (tableIndex ia inputsize level g).toNat < 2 ^ stride g := by
  unfold tableIndex
  rw [and_mask_toNat _ (by cases g <;> simp [stride, shiftOf])]
  exact Nat.mod_lt _ (Nat.two_pow_pos _)

/-- An index uses no input bit at or above `inputsize`. -/
theorem tableIndex_lt_of_le (ia : Word) {inputsize level n : Nat} {g : Granule} (h : inputsize ≤ 64)
    (hn : inputsize ≤ levelShift level g + n) : (tableIndex ia inputsize level g).toNat < 2 ^ n := by
  unfold tableIndex
  rw [and_mask_toNat _ (by cases g <;> simp [stride, shiftOf]), BitVec.toNat_ushiftRight, and_mask_toNat _ h,
    Nat.shiftRight_eq_div_pow]
  refine Nat.lt_of_le_of_lt (Nat.mod_le _ _) ((Nat.div_lt_iff_lt_mul (Nat.two_pow_pos _)).2 ?_)
  have h1 := Nat.mod_lt ia.toNat (Nat.two_pow_pos inputsize)
  have h2 : 2 ^ inputsize ≤ 2 ^ (levelShift level g + n) := Nat.pow_le_pow_right (by omega) hn
  rw [Nat.pow_add, Nat.mul_comm] at h2
  omega

/-- `output_address` is below `2^48` and a multiple of `2^shift` (rule R114). -/
theorem outputAddress_bounds (pte : Word) {shift : Nat} (h : shift ≤ 64) :
    (outputAddress pte shift).toNat < 2 ^ 48 ∧ 2 ^ shift ∣ (outputAddress pte shift).toNat := by
  unfold outputAddress
  refine ⟨?_, dvd_and_not_mask _ h⟩
  rw [and_not_mask_toNat _ h, and_mask_toNat _ (by omega)]
  have := Nat.mod_lt pte.toNat (show 0 < 2 ^ 48 by omega)
  omega

end Sys2Proof.Machine
end

