-- ==== Sys2Proof/Laws/Maps.lean ====
section
/-! SUPPORT. What the finite maps and sets of `Machine/Ops.lean` hold after each operation, and that each keeps the order its
list is written in. -/

namespace Sys2Proof.Machine

variable {κ V : Type} [DecidableEq κ]

/-! ### Reading after writing -/

@[simp] theorem assocGet_nil (k : κ) : assocGet k ([] : List (κ × V)) = none := rfl

theorem assocGet_set_same (code : κ → Nat) (k : κ) (v : V) (m : List (κ × V)) :
    assocGet k (assocSet code k v m) = some v := by
  induction m with
  | nil => simp [assocSet, assocGet]
  | cons p m ih =>
    obtain ⟨k', v'⟩ := p
    unfold assocSet
    split
    · simp [assocGet]
    · split
      · simp [assocGet]
      · rename_i h _; simp [assocGet, h, ih]

theorem assocGet_set_other (code : κ → Nat) {k k₁ : κ} (h : k₁ ≠ k) (v : V) (m : List (κ × V)) :
    assocGet k₁ (assocSet code k v m) = assocGet k₁ m := by
  induction m with
  | nil => simp [assocSet, assocGet, Ne.symm h]
  | cons p m ih =>
    obtain ⟨k', v'⟩ := p
    unfold assocSet
    split
    · rename_i hk; subst hk; simp [assocGet, Ne.symm h]
    · split
      · simp [assocGet, Ne.symm h]
      · simp only [assocGet, ih]

theorem assocGet_set (code : κ → Nat) (k k₁ : κ) (v : V) (m : List (κ × V)) :
    assocGet k₁ (assocSet code k v m) = if k₁ = k then some v else assocGet k₁ m := by
  by_cases h : k₁ = k
  · subst h; simp [assocGet_set_same]
  · simp [h, assocGet_set_other code h]

theorem assocSet_set (code : κ → Nat) (k : κ) (v v' : V) (m : List (κ × V)) :
    assocSet code k v' (assocSet code k v m) = assocSet code k v' m := by
  induction m with
  | nil => simp [assocSet]
  | cons p m ih =>
    obtain ⟨k', w⟩ := p
    by_cases h : k' = k
    · simp [assocSet, h]
    · by_cases hc : code k < code k'
      · simp [assocSet, h, hc]
      · simp [assocSet, h, hc, ih]

theorem assocGet_filter (f : κ × V → Bool) (k : κ) (m : List (κ × V))
    (h : ∀ p ∈ m, p.1 = k → f p = true) : assocGet k (m.filter f) = assocGet k m := by
  induction m with
  | nil => rfl
  | cons p m ih =>
    obtain ⟨k', v⟩ := p
    have ih' := ih fun q hq => h q (List.mem_cons_of_mem _ hq)
    by_cases hk : k' = k
    · have := h (k', v) List.mem_cons_self hk
      rw [List.filter_cons_of_pos this]
      simp [assocGet, hk]
    · by_cases hf : f (k', v) = true
      · simp [hf, assocGet, hk, ih']
      · simp [hf, assocGet, hk, ih']

theorem assocGet_none_of_filter (f : κ × V → Bool) (k : κ) (m : List (κ × V))
    (h : ∀ p ∈ m, p.1 = k → f p = false) : assocGet k (m.filter f) = none := by
  induction m with
  | nil => rfl
  | cons p m ih =>
    obtain ⟨k', v⟩ := p
    have ih' := ih fun q hq => h q (List.mem_cons_of_mem _ hq)
    by_cases hf : f (k', v) = true
    · have hk : k' ≠ k := fun e => by have := h (k', v) List.mem_cons_self e; simp_all
      simp [hf, assocGet, hk, ih']
    · simp [hf, ih']

theorem assocGet_erase_same (k : κ) (m : List (κ × V)) : assocGet k (assocErase k m) = none :=
  assocGet_none_of_filter _ k m fun p _ h => by simp [h]

theorem assocGet_erase_other {k k₁ : κ} (h : k₁ ≠ k) (m : List (κ × V)) :
    assocGet k₁ (assocErase k m) = assocGet k₁ m :=
  assocGet_filter _ k₁ m fun p _ hp => by simp [hp, h]

theorem assocGet_mem {k : κ} {v : V} {m : List (κ × V)} (h : assocGet k m = some v) : (k, v) ∈ m := by
  induction m with
  | nil => simp at h
  | cons p m ih =>
    obtain ⟨k', w⟩ := p
    simp only [assocGet] at h
    split at h
    · rename_i hk; subst hk; simp_all
    · exact List.mem_cons_of_mem _ (ih h)

theorem assocGet_isSome_of_mem {k : κ} {v : V} {m : List (κ × V)} (h : (k, v) ∈ m) : (assocGet k m).isSome := by
  induction m with
  | nil => simp at h
  | cons p m ih =>
    obtain ⟨k', w⟩ := p
    simp only [assocGet]
    split
    · rfl
    · rename_i hk
      rcases List.mem_cons.mp h with h | h
      · exact absurd (congrArg Prod.fst h).symm hk
      · exact ih h

/-! ### Members -/

theorem mem_assocSet {code : κ → Nat} {k : κ} {v : V} {p : κ × V} {m : List (κ × V)} (h : p ∈ assocSet code k v m) :
    p = (k, v) ∨ p ∈ m := by
  induction m with
  | nil => simpa [assocSet] using h
  | cons q m ih =>
    obtain ⟨k', v'⟩ := q
    unfold assocSet at h
    split at h
    · rcases List.mem_cons.mp h with h | h
      · exact .inl h
      · exact .inr (List.mem_cons_of_mem _ h)
    · split at h
      · rcases List.mem_cons.mp h with h | h
        · exact .inl h
        · exact .inr h
      · rcases List.mem_cons.mp h with h | h
        · exact .inr (h ▸ List.mem_cons_self)
        · exact (ih h).imp id (List.mem_cons_of_mem _)

theorem mem_assocErase {k : κ} {p : κ × V} {m : List (κ × V)} : p ∈ assocErase k m ↔ p ∈ m ∧ p.1 ≠ k := by
  simp [assocErase]

theorem mem_setAdd {code : κ → Nat} {k x : κ} {m : List κ} : x ∈ setAdd code k m ↔ x = k ∨ x ∈ m := by
  induction m with
  | nil => simp [setAdd]
  | cons y m ih =>
    unfold setAdd
    split
    · rename_i h; subst h; simp
    · split
      · simp
      · simp only [List.mem_cons, ih]; tauto

theorem length_assocSet_le (code : κ → Nat) (k : κ) (v : V) (m : List (κ × V)) :
    (assocSet code k v m).length ≤ m.length + 1 := by
  induction m with
  | nil => simp [assocSet]
  | cons p m ih =>
    obtain ⟨k', v'⟩ := p
    unfold assocSet
    split
    · simp
    · split
      · simp
      · simp only [List.length_cons]; omega

/-! ### Order -/

/-- A map's list is in order: the keys' codes strictly rise. -/
abbrev Ordered (code : κ → Nat) (m : List (κ × V)) : Prop := m.Pairwise fun a b => code a.1 < code b.1

theorem ordered_assocSet {code : κ → Nat} (inj : ∀ a b, code a = code b → a = b) (k : κ) (v : V) {m : List (κ × V)}
    (h : Ordered code m) : Ordered code (assocSet code k v m) := by
  induction m with
  | nil => simp [assocSet, Ordered]
  | cons p m ih =>
    obtain ⟨k', v'⟩ := p
    have hm := List.pairwise_cons.mp h
    unfold assocSet
    split
    · rename_i hk; subst hk; exact List.pairwise_cons.mpr ⟨hm.1, hm.2⟩
    · rename_i hk
      split
      · rename_i hlt
        refine List.pairwise_cons.mpr ⟨fun q hq => ?_, h⟩
        rcases List.mem_cons.mp hq with rfl | hq
        · exact hlt
        · exact Nat.lt_trans hlt (hm.1 q hq)
      · rename_i hge
        refine List.pairwise_cons.mpr ⟨fun q hq => ?_, ih hm.2⟩
        rcases mem_assocSet hq with rfl | hq
        · have : code k' ≠ code k := fun e => hk (inj _ _ e)
          simp only; omega
        · exact hm.1 q hq

omit [DecidableEq κ] in
theorem ordered_filter {code : κ → Nat} (f : κ × V → Bool) {m : List (κ × V)} (h : Ordered code m) :
    Ordered code (m.filter f) := List.Pairwise.filter _ h

theorem ordered_setAdd {code : κ → Nat} (inj : ∀ a b, code a = code b → a = b) (k : κ) {m : List κ}
    (h : m.Pairwise fun a b => code a < code b) : (setAdd code k m).Pairwise fun a b => code a < code b := by
  induction m with
  | nil => simp [setAdd]
  | cons y m ih =>
    have hm := List.pairwise_cons.mp h
    unfold setAdd
    split
    · exact h
    · rename_i hk
      split
      · rename_i hlt
        refine List.pairwise_cons.mpr ⟨fun q hq => ?_, h⟩
        rcases List.mem_cons.mp hq with rfl | hq
        · exact hlt
        · exact Nat.lt_trans hlt (hm.1 q hq)
      · rename_i hge
        refine List.pairwise_cons.mpr ⟨fun q hq => ?_, ih hm.2⟩
        rcases mem_setAdd.mp hq with rfl | hq
        · have : code y ≠ code q := fun e => hk (inj _ _ e)
          omega
        · exact hm.1 q hq

/-- A pair of an ordered map is the one its key reads. -/
theorem assocGet_of_mem {code : κ → Nat} {k : κ} {v : V} {m : List (κ × V)} (h : Ordered code m) (hm : (k, v) ∈ m) :
    assocGet k m = some v := by
  induction m with
  | nil => simp at hm
  | cons p m ih =>
    obtain ⟨k', w⟩ := p
    have hp := List.pairwise_cons.mp h
    rcases List.mem_cons.mp hm with e | hm
    · cases e; simp [assocGet]
    · have : k' ≠ k := fun e => by
        have := hp.1 _ hm
        simp only [e] at this
        exact Nat.lt_irrefl _ this
      simp [assocGet, this, ih hp.2 hm]

end Sys2Proof.Machine
end

