-- ==== Sys2Proof/Laws/State.lean ====
section
/-! SUPPORT. One lemma per field per update of State, each true by `rfl`, so that no proof unfolds a record update; and what a
record, a reader or a port is after the updates of its own. -/

namespace Sys2Proof.Machine

/-! ### `setPort` -/

@[simp] theorem setPort_params (s : State) (p : Nat) (pt : Port) : (setPort s p pt).params = s.params := rfl
@[simp] theorem setPort_iotlb (s : State) (p : Nat) (pt : Port) : (setPort s p pt).iotlb = s.iotlb := rfl
@[simp] theorem setPort_ctx (s : State) (p : Nat) (pt : Port) : (setPort s p pt).ctx = s.ctx := rfl
@[simp] theorem setPort_buses (s : State) (p : Nat) (pt : Port) : (setPort s p pt).buses = s.buses := rfl
@[simp] theorem setPort_ports (s : State) (p : Nat) (pt : Port) : (setPort s p pt).ports = assocSet id p pt s.ports := rfl
@[simp] theorem setPort_reader (s : State) (p : Nat) (pt : Port) : (setPort s p pt).reader = s.reader := rfl
@[simp] theorem setPort_active (s : State) (p : Nat) (pt : Port) : (setPort s p pt).active = s.active := rfl
@[simp] theorem setPort_draws (s : State) (p : Nat) (pt : Port) : (setPort s p pt).draws = s.draws := rfl
@[simp] theorem setPort_inputs (s : State) (p : Nat) (pt : Port) : (setPort s p pt).inputs = s.inputs := rfl

/-! ### `acceptRequest` -/

@[simp] theorem acceptRequest_params (s : State) (p : Nat) (req : Request) : (acceptRequest s p req).params = s.params := rfl
@[simp] theorem acceptRequest_iotlb (s : State) (p : Nat) (req : Request) : (acceptRequest s p req).iotlb = s.iotlb := rfl
@[simp] theorem acceptRequest_ctx (s : State) (p : Nat) (req : Request) : (acceptRequest s p req).ctx = s.ctx := rfl
@[simp] theorem acceptRequest_buses (s : State) (p : Nat) (req : Request) : (acceptRequest s p req).buses = s.buses := rfl
@[simp] theorem acceptRequest_ports (s : State) (p : Nat) (req : Request) : (acceptRequest s p req).ports = assocSet id p { portOf s p with request := req } s.ports := rfl
@[simp] theorem acceptRequest_reader (s : State) (p : Nat) (req : Request) : (acceptRequest s p req).reader = s.reader := rfl
@[simp] theorem acceptRequest_active (s : State) (p : Nat) (req : Request) : (acceptRequest s p req).active = p := rfl
@[simp] theorem acceptRequest_draws (s : State) (p : Nat) (req : Request) : (acceptRequest s p req).draws = s.draws := rfl
@[simp] theorem acceptRequest_inputs (s : State) (p : Nat) (req : Request) : (acceptRequest s p req).inputs = s.inputs := rfl

/-! ### `keepInFlight` -/

@[simp] theorem keepInFlight_params (s : State) (j : Job) : (keepInFlight s j).params = s.params := rfl
@[simp] theorem keepInFlight_iotlb (s : State) (j : Job) : (keepInFlight s j).iotlb = s.iotlb := rfl
@[simp] theorem keepInFlight_ctx (s : State) (j : Job) : (keepInFlight s j).ctx = s.ctx := rfl
@[simp] theorem keepInFlight_buses (s : State) (j : Job) : (keepInFlight s j).buses = s.buses := rfl
@[simp] theorem keepInFlight_ports (s : State) (j : Job) : (keepInFlight s j).ports = assocSet id s.active { portOf s s.active with inflight := some j } s.ports := rfl
@[simp] theorem keepInFlight_reader (s : State) (j : Job) : (keepInFlight s j).reader = s.reader := rfl
@[simp] theorem keepInFlight_active (s : State) (j : Job) : (keepInFlight s j).active = s.active := rfl
@[simp] theorem keepInFlight_draws (s : State) (j : Job) : (keepInFlight s j).draws = s.draws := rfl
@[simp] theorem keepInFlight_inputs (s : State) (j : Job) : (keepInFlight s j).inputs = s.inputs := rfl

/-! ### `respond` -/

@[simp] theorem respond_params (r : Reply) (s : State) : (respond r s).params = s.params := rfl
@[simp] theorem respond_iotlb (r : Reply) (s : State) : (respond r s).iotlb = s.iotlb := rfl
@[simp] theorem respond_ctx (r : Reply) (s : State) : (respond r s).ctx = s.ctx := rfl
@[simp] theorem respond_buses (r : Reply) (s : State) : (respond r s).buses = s.buses := rfl
@[simp] theorem respond_ports (r : Reply) (s : State) : (respond r s).ports = assocSet id s.active { request := noRequest, inflight := none, response := replyWords r } s.ports := rfl
@[simp] theorem respond_reader (r : Reply) (s : State) : (respond r s).reader = s.reader := rfl
@[simp] theorem respond_active (r : Reply) (s : State) : (respond r s).active = s.active := rfl
@[simp] theorem respond_draws (r : Reply) (s : State) : (respond r s).draws = s.draws := rfl
@[simp] theorem respond_inputs (r : Reply) (s : State) : (respond r s).inputs = s.inputs := rfl

/-! ### `setDevice` -/

@[simp] theorem setDevice_params (s : State) (d : DevId) (r : DevRecord) : (setDevice s d r).params = s.params := rfl
@[simp] theorem setDevice_iotlb (s : State) (d : DevId) (r : DevRecord) : (setDevice s d r).iotlb = s.iotlb := rfl
@[simp] theorem setDevice_ctx (s : State) (d : DevId) (r : DevRecord) : (setDevice s d r).ctx = assocSet BitVec.toNat d r s.ctx := rfl
@[simp] theorem setDevice_buses (s : State) (d : DevId) (r : DevRecord) : (setDevice s d r).buses = s.buses := rfl
@[simp] theorem setDevice_ports (s : State) (d : DevId) (r : DevRecord) : (setDevice s d r).ports = s.ports := rfl
@[simp] theorem setDevice_reader (s : State) (d : DevId) (r : DevRecord) : (setDevice s d r).reader = s.reader := rfl
@[simp] theorem setDevice_active (s : State) (d : DevId) (r : DevRecord) : (setDevice s d r).active = s.active := rfl
@[simp] theorem setDevice_draws (s : State) (d : DevId) (r : DevRecord) : (setDevice s d r).draws = s.draws := rfl
@[simp] theorem setDevice_inputs (s : State) (d : DevId) (r : DevRecord) : (setDevice s d r).inputs = s.inputs := rfl

/-! ### `createDevice` -/

@[simp] theorem createDevice_params (s : State) (d : DevId) : (createDevice s d).params = s.params := rfl
@[simp] theorem createDevice_iotlb (s : State) (d : DevId) : (createDevice s d).iotlb = s.iotlb := rfl
@[simp] theorem createDevice_ctx (s : State) (d : DevId) : (createDevice s d).ctx = assocSet BitVec.toNat d (newRecord s.draws) s.ctx := rfl
@[simp] theorem createDevice_buses (s : State) (d : DevId) : (createDevice s d).buses = setAdd BitVec.toNat (busOf d) s.buses := rfl
@[simp] theorem createDevice_ports (s : State) (d : DevId) : (createDevice s d).ports = s.ports := rfl
@[simp] theorem createDevice_reader (s : State) (d : DevId) : (createDevice s d).reader = s.reader := rfl
@[simp] theorem createDevice_active (s : State) (d : DevId) : (createDevice s d).active = s.active := rfl
@[simp] theorem createDevice_draws (s : State) (d : DevId) : (createDevice s d).draws = s.draws + 1 := rfl
@[simp] theorem createDevice_inputs (s : State) (d : DevId) : (createDevice s d).inputs = s.inputs := rfl

/-! ### The ends of a command -/

@[simp] theorem raiseFault_eq (f : FaultInfo) (s : State) : raiseFault f s = respond (.fault f) s := rfl
@[simp] theorem refuseConfig_eq (s : State) : refuseConfig s = respond .configError s := rfl
@[simp] theorem badCommand_eq (s : State) : badCommand s = respond .badCommand s := rfl

/-! ### `countLookup`: only the device table changes -/

@[simp] theorem countLookup_params (s : State) (d : DevId) (h : Bool) : (countLookup s d h).params = s.params := by
  unfold countLookup; split <;> rfl
@[simp] theorem countLookup_iotlb (s : State) (d : DevId) (h : Bool) : (countLookup s d h).iotlb = s.iotlb := by
  unfold countLookup; split <;> rfl
@[simp] theorem countLookup_buses (s : State) (d : DevId) (h : Bool) : (countLookup s d h).buses = s.buses := by
  unfold countLookup; split <;> rfl
@[simp] theorem countLookup_ports (s : State) (d : DevId) (h : Bool) : (countLookup s d h).ports = s.ports := by
  unfold countLookup; split <;> rfl
@[simp] theorem countLookup_reader (s : State) (d : DevId) (h : Bool) : (countLookup s d h).reader = s.reader := by
  unfold countLookup; split <;> rfl
@[simp] theorem countLookup_active (s : State) (d : DevId) (h : Bool) : (countLookup s d h).active = s.active := by
  unfold countLookup; split <;> rfl
@[simp] theorem countLookup_draws (s : State) (d : DevId) (h : Bool) : (countLookup s d h).draws = s.draws := by
  unfold countLookup; split <;> rfl
@[simp] theorem countLookup_inputs (s : State) (d : DevId) (h : Bool) : (countLookup s d h).inputs = s.inputs := by
  unfold countLookup; split <;> rfl

/-! ### The Memory Reader -/

@[simp] theorem noteRead_mem (rd : Reader) (pa : Word) : (noteRead rd pa).mem = rd.mem := rfl
@[simp] theorem noteRead_errs (rd : Reader) (pa : Word) : (noteRead rd pa).errs = rd.errs := rfl
@[simp] theorem noteRead_issued (rd : Reader) (pa : Word) : (noteRead rd pa).issued = pa :: rd.issued := rfl
@[simp] theorem setReaderErr_mem (rd : Reader) (pa : Word) (b : Bool) : (setReaderErr rd pa b).mem = rd.mem := rfl
@[simp] theorem setReaderErr_issued (rd : Reader) (pa : Word) (b : Bool) : (setReaderErr rd pa b).issued = rd.issued := rfl

/-! ### Records -/

@[simp] theorem bumpCounter_cfgValid (p : Params) (h : Bool) (r : DevRecord) :
    (bumpCounter p h r).cfgValid = r.cfgValid := by unfold bumpCounter; split <;> rfl
@[simp] theorem bumpCounter_cfg (p : Params) (h : Bool) (r : DevRecord) : (bumpCounter p h r).cfg = r.cfg := by
  unfold bumpCounter; split <;> rfl
@[simp] theorem bumpCounter_hits (p : Params) (h : Bool) (r : DevRecord) :
    (bumpCounter p h r).hits = if h then (r.hits + 1) % 2 ^ p.cntW else r.hits := by
  unfold bumpCounter; split <;> rfl
@[simp] theorem bumpCounter_misses (p : Params) (h : Bool) (r : DevRecord) :
    (bumpCounter p h r).misses = if h then r.misses else (r.misses + 1) % 2 ^ p.cntW := by
  unfold bumpCounter; split <;> rfl
@[simp] theorem bumpCounter_asHandle (p : Params) (h : Bool) (r : DevRecord) :
    (bumpCounter p h r).asHandle = r.asHandle := by unfold bumpCounter; split <;> rfl
@[simp] theorem bumpCounter_notifier (p : Params) (h : Bool) (r : DevRecord) :
    (bumpCounter p h r).notifier = r.notifier := by unfold bumpCounter; split <;> rfl

/-! ### Reset and arrival -/

@[simp] theorem engineReset_params (s : State) : (engineReset s).params = s.params := rfl
@[simp] theorem engineReset_iotlb (s : State) : (engineReset s).iotlb = [] := rfl
@[simp] theorem engineReset_ctx (s : State) : (engineReset s).ctx = [] := rfl
@[simp] theorem engineReset_buses (s : State) : (engineReset s).buses = [] := rfl
@[simp] theorem engineReset_ports (s : State) : (engineReset s).ports = [] := rfl
@[simp] theorem engineReset_reader (s : State) : (engineReset s).reader = s.reader := rfl
@[simp] theorem engineReset_active (s : State) : (engineReset s).active = 0 := rfl
@[simp] theorem engineReset_draws (s : State) : (engineReset s).draws = s.draws := rfl
@[simp] theorem engineReset_inputs (s : State) : (engineReset s).inputs = s.inputs := rfl
@[simp] theorem withRequest_inputs (s : State) (r : Request) :
    (withRequest s r).inputs = .command (freshPort s) r :: s.inputs := rfl

end Sys2Proof.Machine
end

