-- ==== Sys2Proof/Laws/Memory.lean ====
section
/-! SUPPORT. Memory: reading a byte after writing one, and that every operation keeps the canonical form. -/

namespace Sys2Proof.Machine

theorem readByte_writeByte_same (m : Memory) (a : Nat) (b : Byte) : readByte (writeByte m a b) a = b := by
  unfold readByte writeByte
  split
  · rename_i h; simp [assocGet_erase_same, h]
  · simp [assocGet_set_same]

theorem readByte_writeByte_other (m : Memory) {a a' : Nat} (h : a' ≠ a) (b : Byte) :
    readByte (writeByte m a b) a' = readByte m a' := by
  unfold readByte writeByte
  split
  · rw [assocGet_erase_other h]
  · rw [assocGet_set_other _ h]

/-- A write of consecutive bytes leaves every other byte. -/
theorem readByte_writeBytes_other (bs : List Byte) : ∀ (m : Memory) (pa : Word) (a : Nat),
    (∀ i, i < bs.length → a ≠ (pa + BitVec.ofNat 64 i).toNat) → readByte (writeBytes m pa bs) a = readByte m a := by
  induction bs with
  | nil => intros; rfl
  | cons b bs ih =>
    intro m pa a h
    show readByte (writeBytes (writeByte m pa.toNat b) (pa + 1) bs) a = _
    rw [ih, readByte_writeByte_other]
    · have := h 0 (by simp); simpa using this
    · intro i hi; have := h (i + 1) (by simpa using hi)
      have e : pa + BitVec.ofNat 64 (i + 1) = pa + 1 + BitVec.ofNat 64 i := by
        rw [BitVec.ofNat_add]; ac_rfl
      rwa [e] at this

/-- The bytes of a word are the bytes it was made of, the first the least significant (rule R52). -/
theorem leWord_byte (b : Nat → Byte) : ∀ i, i < 8 → (leWord b).extractLsb' (8 * i) 8 = b i := by
  intro i hi
  unfold leWord
  apply BitVec.eq_of_getLsbD_eq
  intro j hj
  simp only [BitVec.getLsbD_extractLsb', BitVec.getLsbD_append, hj, decide_true, Bool.true_and]
  interval_cases i <;> interval_cases j <;> simp

theorem wf_writeByte {m : Memory} (h : m.wf) {a : Nat} (ha : a < 2 ^ 64) (b : Byte) : (writeByte m a b).wf := by
  unfold writeByte
  split
  · exact ⟨ordered_filter (code := id) _ h.1, fun c hc => h.2 c (mem_assocErase.mp hc).1⟩
  · rename_i hb
    refine ⟨ordered_assocSet (code := id) (fun _ _ e => e) a b h.1, fun c hc => ?_⟩
    rcases mem_assocSet hc with rfl | hc
    · exact ⟨ha, hb⟩
    · exact h.2 c hc

theorem wf_writeBytes {m : Memory} (h : m.wf) (pa : Word) (bs : List Byte) : (writeBytes m pa bs).wf := by
  induction bs generalizing m pa with
  | nil => exact h
  | cons b bs ih => exact ih (wf_writeByte h pa.isLt b) _

theorem wf_reset : State.reset.reader.mem.wf := by decide

/-- A memory in canonical form is determined by what its bytes read as. -/
theorem assocGet_eq_of_readByte {m : Memory} (h : m.wf) (a : Nat) :
    assocGet a m = if readByte m a = 0 then none else some (readByte m a) := by
  unfold readByte
  cases hg : assocGet a m with
  | none => simp
  | some b =>
    have := (h.2 _ (assocGet_mem hg)).2
    simpa using this

end Sys2Proof.Machine
end

