-- ==== Sys2Proof/Laws/Ops.lean ====
section
/-! SUPPORT. What each shared operation of `Machine/Ops.lean`, `Machine/Walk.lean` and `Machine/Translate.lean` can do, said once,
to be cited instead of unfolding it. -/

namespace Sys2Proof.Machine

/-! ### Ports -/

theorem portOf_setPort (s : State) (p q : Nat) (pt : Port) :
    portOf (setPort s p pt) q = if q = p then pt else portOf s q := by
  unfold portOf setPort
  rw [assocGet_set]
  split <;> rfl

/-- A port reads only the ports' list. -/
theorem portOf_congr {s t : State} (h : t.ports = s.ports) (p : Nat) : portOf t p = portOf s p := by
  unfold portOf; rw [h]

theorem portOf_respond (r : Reply) (s : State) (p : Nat) :
    portOf (respond r s) p =
      if p = s.active then { request := noRequest, inflight := none, response := replyWords r } else portOf s p :=
  portOf_setPort s s.active p _

/-- `respond` on a state that differs from `s` outside its ports answers the active port of `s`. -/
theorem answers_respond {s s' : State} (r : Reply) (hp : s'.ports = s.ports) (ha : s'.active = s.active) :
    Answers s (respond r s') r := fun p => by
  rw [portOf_respond, ha, portOf_congr hp]

theorem portOf_acceptRequest (s : State) (p q : Nat) (req : Request) :
    portOf (acceptRequest s p req) q = if q = p then { portOf s p with request := req } else portOf s q :=
  portOf_setPort s p q _

theorem portOf_keepInFlight (s : State) (j : Job) (q : Nat) :
    portOf (keepInFlight s j) q = if q = s.active then { portOf s q with inflight := some j } else portOf s q := by
  unfold keepInFlight
  rw [portOf_setPort]
  split
  · rename_i h; rw [h]
  · rfl

/-! ### The device table -/

theorem deviceOf_congr {s t : State} (h : t.ctx = s.ctx) (d : DevId) : deviceOf t d = deviceOf s d := by
  unfold deviceOf; rw [h]

theorem deviceOf_setDevice (s : State) (d d' : DevId) (r : DevRecord) :
    deviceOf (setDevice s d r) d' = if d' = d then some r else deviceOf s d' := by
  unfold deviceOf setDevice
  rw [assocGet_set]

theorem deviceOf_createDevice (s : State) (d d' : DevId) :
    deviceOf (createDevice s d) d' = if d' = d then some (newRecord s.draws) else deviceOf s d' :=
  deviceOf_setDevice s d d' _

@[simp] theorem deviceOf_respond (r : Reply) (s : State) (d : DevId) : deviceOf (respond r s) d = deviceOf s d := rfl

/-- A valid config belongs to a record that says so. -/
theorem validConfig_eq_some {s : State} {d : DevId} {cfg : TranslationConfig} :
    validConfig s d = some cfg ↔ ∃ r, deviceOf s d = some r ∧ r.cfgValid = true ∧ r.cfg = cfg := by
  unfold validConfig
  cases deviceOf s d with
  | none => simp
  | some r => cases h : r.cfgValid <;> simp [h]

theorem validConfig_congr {s t : State} (h : ∀ d, deviceOf t d = deviceOf s d) (d : DevId) :
    validConfig t d = validConfig s d := by
  unfold validConfig; rw [h]

/-- Counting a lookup changes the record of the device, if there is one, by one counter, and no other record. -/
theorem deviceOf_countLookup (s : State) (d d' : DevId) (hit : Bool) :
    deviceOf (countLookup s d hit) d' =
      if d' = d then (deviceOf s d).map (bumpCounter s.params hit) else deviceOf s d' := by
  unfold countLookup
  cases h : deviceOf s d with
  | none => by_cases hd : d' = d <;> simp [hd, h]
  | some r => simp [deviceOf_setDevice]

/-- Counting keeps the config a command would read. -/
theorem validConfig_countLookup (s : State) (d d' : DevId) (hit : Bool) :
    validConfig (countLookup s d hit) d' = validConfig s d' := by
  unfold validConfig
  rw [deviceOf_countLookup]
  by_cases h : d' = d
  · subst h
    cases h : deviceOf s d' with
    | none => simp
    | some r => simp
  · simp [h]

/-! ### The IOTLB -/

/-- Two concatenations of the same widths are equal only part by part. -/
theorem append_inj {n m : Nat} {a c : BitVec n} {b d : BitVec m} (h : a ++ b = c ++ d) : a = c ∧ b = d := by
  constructor
  · have := congrArg (BitVec.extractLsb' m n) h
    simpa [BitVec.extractLsb'_append_eq_left] using this
  · have := congrArg (BitVec.extractLsb' 0 m) h
    simpa [BitVec.extractLsb'_append_eq_right] using this

theorem keyCode_injective : ∀ a b : Key, keyCode a = keyCode b → a = b := by
  intro a b h
  obtain ⟨a1, a2, a3, a4, a5⟩ := a
  obtain ⟨b1, b2, b3, b4, b5⟩ := b
  have h := BitVec.eq_of_toNat_eq h
  obtain ⟨h, h5⟩ := append_inj h
  obtain ⟨h, h4⟩ := append_inj h
  obtain ⟨h, h3⟩ := append_inj h
  obtain ⟨h1, h2⟩ := append_inj h
  simp_all

theorem assocGet_insertEntry (cap : Nat) (m : List (Key × Entry)) (cfg : TranslationConfig) (e : Entry) (k : Key) :
    assocGet k (insertEntry cap m cfg e) =
      if k = keyOfEntry cfg e then some e else if cap ≤ m.length then none else assocGet k m := by
  unfold insertEntry
  rw [assocGet_set]
  split
  · rfl
  · split <;> rfl

theorem insertEntry_of_full {cap : Nat} {m : List (Key × Entry)} (h : cap ≤ m.length) (cfg : TranslationConfig)
    (e : Entry) : insertEntry cap m cfg e = [(keyOfEntry cfg e, e)] := by
  simp [insertEntry, h, assocSet]

theorem mem_evict {gone : Key × Entry → Bool} {p : Key × Entry} {m : List (Key × Entry)} :
    p ∈ evict gone m ↔ p ∈ m ∧ gone p = false := by
  simp [evict]

/-! ### The walk -/

theorem pteAnswer_noteRead (rd : Reader) (pa pa' : Word) : pteAnswer (noteRead rd pa) pa' = pteAnswer rd pa' := rfl

/-- One fetch asks the Memory Reader for at most one word and changes nothing else of it. -/
theorem walkFetch_reader (rd : Reader) (cfg : TranslationConfig) (ia : Word) (acc : AccessKind) (w : Walk) :
    (walkFetch rd cfg ia acc w).1 = if 4 ≤ w.level then rd else noteRead rd (pteAddr w ia) := by
  unfold walkFetch
  split <;> rfl

theorem finishWalk_done (cfg : TranslationConfig) (ia : Word) (acc : AccessKind) (n : Nat) (rd : Reader)
    (r : WalkResult) : finishWalk cfg ia acc n rd (.done r) = (rd, r) := by
  cases n <;> rfl

theorem finishWalk_walking (cfg : TranslationConfig) (ia : Word) (acc : AccessKind) (n : Nat) (rd : Reader) (w : Walk) :
    finishWalk cfg ia acc (n + 1) rd (.walking w) =
      finishWalk cfg ia acc n (walkFetch rd cfg ia acc w).1 (walkFetch rd cfg ia acc w).2 := rfl

/-- What holds of a walk between fetches and of its result holds of the result of the whole walk, if each fetch keeps it. -/
theorem finishWalk_induction {cfg : TranslationConfig} {ia : Word} {acc : AccessKind}
    (P : Reader → Phase → Prop) (Q : Reader → WalkResult → Prop)
    (hdone : ∀ rd r, P rd (.done r) → Q rd r)
    (hout : ∀ rd w, P rd (.walking w) → Q rd (.failure ⟨.translation, walkStage w, ia⟩))
    (hstep : ∀ rd w, P rd (.walking w) →
      P (walkFetch rd cfg ia acc w).1 (walkFetch rd cfg ia acc w).2)
    (n : Nat) (rd : Reader) (ph : Phase) (h : P rd ph) :
    Q (finishWalk cfg ia acc n rd ph).1 (finishWalk cfg ia acc n rd ph).2 := by
  induction n generalizing rd ph with
  | zero =>
    cases ph with
    | done r => exact hdone rd r h
    | walking w => exact hout rd w h
  | succ n ih =>
    cases ph with
    | done r => exact hdone rd r h
    | walking w => exact ih _ _ (hstep rd w h)

/-! ### The end of a command -/

/-- The last step of a command changes the ports, and the IOTLB of a `TRANSLATE` that succeeded. -/
theorem finishJob_cases (cmd : WalkCommand) (cfg : TranslationConfig) (ia : Word) (r : WalkResult) (s : State) :
    ∃ m reply, finishJob cmd cfg ia r s = respond reply { s with iotlb := m } ∧
      (m = s.iotlb ∨ ∃ e, cmd = .translate ∧ r = .success e ∧ m = insertEntry s.params.iotlbCap s.iotlb cfg e) := by
  cases r with
  | success e =>
    cases cmd with
    | translate => exact ⟨_, _, rfl, .inr ⟨e, rfl, rfl, rfl⟩⟩
    | ptw => exact ⟨s.iotlb, _, rfl, .inl rfl⟩
  | failure f => exact ⟨s.iotlb, .fault f, rfl, .inl rfl⟩
  | configError => exact ⟨s.iotlb, .configError, rfl, .inl rfl⟩

end Sys2Proof.Machine
end

