-- ==== Sys2Proof/Laws/Walk.lean ====
section
/-! SUPPORT. What one atomic step of a walk can do and how a walk can begin, each said once with everything it can do, and what
that means for every address a walk fetches from and every entry it returns. -/

namespace Sys2Proof.Machine

/-! ### One leaf, one table, one fetch -/

theorem leafStep1_cases (affd : Bool) (ia : Word) (acc : AccessKind) (w : Walk) (pte : Word) :
    (∃ f : FaultInfo, leafStep1 affd ia acc w pte = .failure f ∧ f.stage = .s1 ∧ f.addr = ia ∧
      (f.kind = .access ∨ f.kind = .permission)) ∨
    ∃ perm, leafStep1 affd ia acc w pte = .success (leafEntry ia w pte perm) ∧
      ((acc = .write → w.wrForbid = false) → perm &&& accessMask acc = accessMask acc) := by
  unfold leafStep1
  split_ifs with h1 h2
  · exact .inl ⟨_, rfl, rfl, rfl, .inl rfl⟩
  · exact .inl ⟨_, rfl, rfl, rfl, .inr rfl⟩
  · refine .inr ⟨_, rfl, fun hw => ?_⟩
    cases acc with
    | read => unfold s1Permission; split <;> decide
    | write =>
      have hap : (accessPermission pte).getLsbD 1 = false := by simpa [s1LeafPermFault] using h2
      rw [hw rfl]
      unfold s1Permission
      rw [hap]
      decide

theorem leafStep2_cases (cfg : TranslationConfig) (ia : Word) (acc : AccessKind) (w : Walk) (pte : Word) :
    (∃ f : FaultInfo, leafStep2 cfg ia acc w pte = .failure f ∧ f.stage = .s2 ∧ f.addr = ia ∧
      (f.kind = .access ∨ f.kind = .permission ∨ f.kind = .addrSize)) ∨
    leafStep2 cfg ia acc w pte = .success (leafEntry ia w pte (accessPermission pte)) ∧
      accessPermission pte &&& accessMask acc = accessMask acc := by
  unfold leafStep2
  split_ifs with h1 h2 h3
  · exact .inl ⟨_, rfl, rfl, rfl, .inl rfl⟩
  · exact .inl ⟨_, rfl, rfl, rfl, .inr (.inl rfl)⟩
  · exact .inl ⟨_, rfl, rfl, rfl, .inr (.inr rfl)⟩
  · exact .inr ⟨rfl, by simpa [s2LeafPermFault, permits] using h2⟩

theorem tableStep1_cases (had : Bool) (ia : Word) (acc : AccessKind) (w : Walk) (pte : Word) :
    tableStep1 had ia acc w pte = .done (.failure ⟨.permission, .s1, ia⟩) ∨
    ∃ b, tableStep1 had ia acc w pte = .walking (descend w pte b) ∧ (acc = .write → w.wrForbid = false → b = false) := by
  unfold tableStep1
  simp only
  split_ifs with h
  · exact .inl rfl
  · refine .inr ⟨_, rfl, fun ha hw => ?_⟩
    subst ha
    simpa [hw] using h

/-- A Table is classified above level 3 only (rule R115). -/
theorem classify_table {pte : Word} {level : Nat} (h : classify pte level = .table) : level < 3 := by
  unfold classify at h
  split_ifs at h
  rename_i h4
  exact h4.1

/-- Everything a fetch can do: end the walk with a fault of the walk's stage; go one level down below a Table; or end at a leaf
with the leaf's entry (rules R143 to R152, R164 to R172). -/
theorem walkFetch_cases (rd : Reader) (cfg : TranslationConfig) (ia : Word) (acc : AccessKind) (w : Walk) :
    (∃ f : FaultInfo, (walkFetch rd cfg ia acc w).2 = .done (.failure f) ∧ f.stage = walkStage w ∧
      (f.kind = .addrSize → w.kind = .stage2) ∧ (f.addr = ia ∨ (f.kind = .walkExternalAbort ∧ f.addr = pteAddr w ia))) ∨
    (∃ pte b, w.level < 3 ∧ pteAnswer rd (pteAddr w ia) = some pte ∧ classify pte w.level = .table ∧
      (walkFetch rd cfg ia acc w).2 = .walking (descend w pte b) ∧ (acc = .write → w.wrForbid = false → b = false)) ∨
    (∃ pte perm, w.level ≤ 3 ∧ pteAnswer rd (pteAddr w ia) = some pte ∧
      (walkFetch rd cfg ia acc w).2 = .done (.success (leafEntry ia w pte perm)) ∧
      ((acc = .write → w.wrForbid = false) → perm &&& accessMask acc = accessMask acc)) := by
  unfold walkFetch
  split_ifs with hl
  · exact .inl ⟨_, rfl, rfl, by simp, .inl rfl⟩
  · cases ha : pteAnswer rd (pteAddr w ia) with
    | none => exact .inl ⟨_, rfl, rfl, by simp, .inr ⟨rfl, rfl⟩⟩
    | some pte =>
      have leaf : ∀ r, (∃ i, w.kind = .region i ∧ r = leafStep1 cfg.affd ia acc w pte) ∨
          (w.kind = .stage2 ∧ r = leafStep2 cfg ia acc w pte) →
          (∃ f : FaultInfo, r = .failure f ∧ f.stage = walkStage w ∧ (f.kind = .addrSize → w.kind = .stage2) ∧ f.addr = ia) ∨
          ∃ perm, r = .success (leafEntry ia w pte perm) ∧
            ((acc = .write → w.wrForbid = false) → perm &&& accessMask acc = accessMask acc) := by
        rintro r (⟨i, hk, rfl⟩ | ⟨hk, rfl⟩)
        · rcases leafStep1_cases cfg.affd ia acc w pte with ⟨f, h, hs, hd, hf⟩ | ⟨perm, h, hp⟩
          · refine .inl ⟨f, h, by rw [hs, walkStage, hk], fun h' => ?_, hd⟩
            rcases hf with hf | hf <;> rw [hf] at h' <;> cases h'
          · exact .inr ⟨perm, h, hp⟩
        · rcases leafStep2_cases cfg ia acc w pte with ⟨f, h, hs, hd, -⟩ | ⟨h, hp⟩
          · exact .inl ⟨f, h, by rw [hs, walkStage, hk], fun _ => hk, hd⟩
          · exact .inr ⟨_, h, fun _ => hp⟩
      have done : ∀ r, ((∃ i, w.kind = .region i ∧ r = leafStep1 cfg.affd ia acc w pte) ∨
          (w.kind = .stage2 ∧ r = leafStep2 cfg ia acc w pte)) → pteStep cfg ia acc w pte = .done r →
          (∃ f : FaultInfo, pteStep cfg ia acc w pte = .done (.failure f) ∧ f.stage = walkStage w ∧
            (f.kind = .addrSize → w.kind = .stage2) ∧ (f.addr = ia ∨ (f.kind = .walkExternalAbort ∧ f.addr = pteAddr w ia))) ∨
          ∃ pte' perm, w.level ≤ 3 ∧ some pte = some pte' ∧
            pteStep cfg ia acc w pte = .done (.success (leafEntry ia w pte' perm)) ∧
            ((acc = .write → w.wrForbid = false) → perm &&& accessMask acc = accessMask acc) := by
        intro r hr h
        rcases leaf r hr with ⟨f, rfl, hs, hk, hd⟩ | ⟨perm, rfl, hp⟩
        · exact .inl ⟨f, h, hs, hk, .inl hd⟩
        · exact .inr ⟨pte, perm, by omega, rfl, h, hp⟩
      show (∃ f : FaultInfo, pteStep cfg ia acc w pte = .done (.failure f) ∧ _) ∨
        (∃ pte' b, w.level < 3 ∧ some pte = some pte' ∧ classify pte' w.level = .table ∧
          pteStep cfg ia acc w pte = .walking (descend w pte' b) ∧ _) ∨
        (∃ pte' perm, w.level ≤ 3 ∧ some pte = some pte' ∧
          pteStep cfg ia acc w pte = .done (.success (leafEntry ia w pte' perm)) ∧ _)
      cases hc : classify pte w.level with
      | invalid => exact .inl ⟨_, by unfold pteStep; rw [hc], rfl, by simp, .inl rfl⟩
      | reserved => exact .inl ⟨_, by unfold pteStep; rw [hc], rfl, by simp, .inl rfl⟩
      | table =>
        cases hk : w.kind with
        | region i =>
          have hp : pteStep cfg ia acc w pte = tableStep1 (regionOf cfg i).had ia acc w pte := by
            unfold pteStep; rw [hc, hk]
          rcases tableStep1_cases (regionOf cfg i).had ia acc w pte with h | ⟨b, h, hb⟩
          · exact .inl ⟨_, hp.trans h, by rw [walkStage, hk], by simp, .inl rfl⟩
          · exact .inr (.inl ⟨pte, b, classify_table hc, rfl, hc, hp.trans h, hb⟩)
        | stage2 =>
          have hp : pteStep cfg ia acc w pte = .walking (descend w pte w.wrForbid) := by
            unfold pteStep; rw [hc, hk]
          exact .inr (.inl ⟨pte, _, classify_table hc, rfl, hc, hp, fun _ h => h⟩)
      | page =>
        cases hk : w.kind with
        | region i =>
          rcases done _ (.inl ⟨i, hk, rfl⟩) (by unfold pteStep; rw [hc, hk]) with h | h
          · rw [hk] at h; exact .inl h
          · exact .inr (.inr h)
        | stage2 =>
          rcases done _ (.inr ⟨hk, rfl⟩) (by unfold pteStep; rw [hc, hk]) with h | h
          · rw [hk] at h; exact .inl h
          · exact .inr (.inr h)
      | block =>
        cases hk : w.kind with
        | region i =>
          rcases done _ (.inl ⟨i, hk, rfl⟩) (by unfold pteStep; rw [hc, hk]) with h | h
          · rw [hk] at h; exact .inl h
          · exact .inr (.inr h)
        | stage2 =>
          rcases done _ (.inr ⟨hk, rfl⟩) (by unfold pteStep; rw [hc, hk]) with h | h
          · rw [hk] at h; exact .inl h
          · exact .inr (.inr h)

/-! ### How a walk begins -/

/-- The region a stage-1 walk goes through, or why there is none (rules R140, R185). -/
theorem stage1Region_cases (cfg : TranslationConfig) (ia : Word) :
    stage1Region cfg ia = .error (.failure ⟨.translation, .s1, ia⟩) ∨ stage1Region cfg ia = .error .configError ∨
    ∃ r g, stage1Region cfg ia = .ok (r, g) ∧ select cfg ia = some r ∧ (regionOf cfg r).disabled = false ∧
      walkable1 (regionOf cfg r) = some g := by
  unfold stage1Region
  cases hs : select cfg ia with
  | none => exact .inl rfl
  | some r =>
    cases hd : (regionOf cfg r).disabled with
    | true => exact .inl (by simp [hd])
    | false =>
      cases hw : walkable1 (regionOf cfg r) with
      | none => exact .inr (.inl (by simp [hd, hw]))
      | some g => exact .inr (.inr ⟨r, g, by simp [hd, hw], rfl, hd, hw⟩)

/-- Everything the dispatcher can do (rules R181 to R183). -/
theorem dispatch_cases (cfg : TranslationConfig) (ia : Word) :
    dispatch cfg ia = .done .configError ∨
    (stageOfCode cfg.stage = some .s1 ∧ dispatch cfg ia = .done (.failure ⟨.translation, .s1, ia⟩)) ∨
    (∃ r g, stageOfCode cfg.stage = some .s1 ∧ stage1Region cfg ia = .ok (r, g) ∧ walkable1 (regionOf cfg r) = some g ∧
      dispatch cfg ia = .walking (rootWalk1 (regionOf cfg r) r g)) ∨
    (∃ g, stageOfCode cfg.stage = some .s2 ∧ walkable2 cfg.s2 = some g ∧
      ((ia >>> cfg.oas.toNat ≠ 0 ∧ dispatch cfg ia = .done (.failure ⟨.addrSize, .s1, ia⟩)) ∨
       (ia >>> cfg.oas.toNat = 0 ∧ ia >>> inputSize cfg.s2.tsz ≠ 0 ∧
          dispatch cfg ia = .done (.failure ⟨.translation, .s2, ia⟩)) ∨
       (ia >>> cfg.oas.toNat = 0 ∧ ia >>> inputSize cfg.s2.tsz = 0 ∧
          dispatch cfg ia = .walking (rootWalk2 cfg.s2 g ia)))) := by
  cases hs : stageOfCode cfg.stage with
  | none => exact .inl (by unfold dispatch; rw [hs])
  | some st =>
    cases st with
    | s1 =>
      rcases stage1Region_cases cfg ia with h | h | ⟨r, g, h, -, -, hw⟩
      · exact .inr (.inl ⟨rfl, by unfold dispatch beginWalk1; rw [hs, h]⟩)
      · exact .inl (by unfold dispatch beginWalk1; rw [hs, h])
      · exact .inr (.inr (.inl ⟨r, g, rfl, h, hw, by unfold dispatch beginWalk1; rw [hs, h]⟩))
    | s2 =>
      cases hw : walkable2 cfg.s2 with
      | none => exact .inl (by unfold dispatch; rw [hs]; simp [hw])
      | some g =>
        refine .inr (.inr (.inr ⟨g, rfl, rfl, ?_⟩))
        by_cases ho : ia >>> cfg.oas.toNat = 0
        · by_cases hi : ia >>> inputSize cfg.s2.tsz = 0
          · exact .inr (.inr ⟨ho, hi, by unfold dispatch beginWalk2; rw [hs]; simp [hw, ho, hi]⟩)
          · exact .inr (.inl ⟨ho, hi, by
            unfold dispatch beginWalk2
            simp only [hs, hw]
            rw [if_neg (by simp), if_neg (not_not.2 ho), if_pos hi]⟩)
        · exact .inl ⟨ho, by
            unfold dispatch
            simp only [hs, hw]
            rw [if_neg (by simp), if_pos ho]⟩

/-! ### The ends of the walkable ranges (rules R26, R28) -/

/-- The conditions of rule R26, spelled out. -/
theorem walkable1_eq_some {tt : TableInfo} {g : Granule} (h : walkable1 tt = some g) :
    granuleOfTag tt.tg = some g ∧ shiftOf g + 1 ≤ inputSize tt.tsz ∧ inputSize tt.tsz ≤ 48 := by
  unfold walkable1 at h
  split at h
  · cases h
  · split_ifs at h with hc
    cases h
    exact ⟨by assumption, hc⟩

/-- The conditions of rule R28, spelled out. -/
theorem walkable2_eq_some {s2 : Stage2Info} {g : Granule} (h : walkable2 s2 = some g) :
    granuleOfTag s2.tg = some g ∧ 0 ≤ startLevel2 s2.sl0 g ∧ startLevel2 s2.sl0 g ≤ 3 ∧
      levelShift (startLevel2 s2.sl0 g) g + 1 ≤ inputSize s2.tsz ∧
      inputSize s2.tsz ≤ min 48 (levelShift (startLevel2 s2.sl0 g - 1) g + 4) := by
  unfold walkable2 at h
  split at h
  · cases h
  · split_ifs at h with hc
    cases h
    exact ⟨by assumption, hc⟩

/-! ### Alignment and range of what is fetched (rules R50, R53) -/

/-- Below a Table the next fetch is aligned and in range whatever the Table says. -/
theorem fetchAddress_descend (w : Walk) (pte ia : Word) (b : Bool) : FetchAddress (pteAddr (descend w pte b) ia) := by
  obtain ⟨h1, h2⟩ := outputAddress_bounds pte (shift := shiftOf w.granule) (by cases w.granule <;> decide)
  have h3 := tableIndex_lt ia w.inputsize (w.level + 1) w.granule
  have h4 : 2 ^ shiftOf w.granule = 8 * 2 ^ stride w.granule := by cases w.granule <;> rfl
  have h5 : 2 ^ stride w.granule ≤ 2 ^ 13 := by cases w.granule <;> decide
  have h6 : 8 * 2 ^ stride w.granule ∣ 2 ^ 48 := by cases w.granule <;> decide
  unfold FetchAddress pteAddr descend
  simp only [BitVec.toNat_add, BitVec.toNat_shiftLeft, Nat.shiftLeft_eq]
  generalize (outputAddress pte (shiftOf w.granule)).toNat = base at *
  generalize (tableIndex ia w.inputsize (w.level + 1) w.granule).toNat = idx at *
  rw [h4] at h2
  obtain ⟨q, rfl⟩ := h2
  obtain ⟨c, hc⟩ := h6
  have h7 : q < c := by
    rw [hc] at h1
    exact Nat.lt_of_mul_lt_mul_left h1
  have h8 : 8 * 2 ^ stride w.granule * (q + 1) ≤ 8 * 2 ^ stride w.granule * c := Nat.mul_le_mul_left _ h7
  rw [← hc, Nat.mul_add, Nat.mul_one] at h8
  have h9 : 8 * 2 ^ stride w.granule * q = 8 * (2 ^ stride w.granule * q) := Nat.mul_assoc ..
  generalize 2 ^ stride w.granule * q = z at *
  rw [h9] at h8 ⊢
  generalize 2 ^ stride w.granule = y at *
  omega

/-- A root aligned to `8 * 2^n` bytes below `2^48`, indexed by fewer than `2^n`. -/
theorem fetchAddress_of_root {base : BitVec 48} {n i : Nat} (hn : n + 3 ≤ 48) (hi : i < 2 ^ n) {a : Word}
    (ha : a.toNat = (base.setWidth 64 &&& ~~~ mask (n + 3)).toNat + 8 * i) : FetchAddress a := by
  have h1 := dvd_and_not_mask (base.setWidth 64) (n := n + 3) (by omega)
  have h2 : (base.setWidth 64 &&& ~~~ mask (n + 3)).toNat < 2 ^ 48 := by
    rw [and_not_mask_toNat _ (by omega)]
    have := base.isLt
    simp only [BitVec.toNat_setWidth]
    omega
  unfold FetchAddress
  rw [ha]
  generalize (base.setWidth 64 &&& ~~~ mask (n + 3)).toNat = b at *
  obtain ⟨q, rfl⟩ := h1
  obtain ⟨c, hc⟩ : 2 ^ (n + 3) ∣ 2 ^ 48 := Nat.pow_dvd_pow 2 hn
  have h7 : q < c := by
    rw [hc] at h2
    exact Nat.lt_of_mul_lt_mul_left h2
  have h8 : 2 ^ (n + 3) * (q + 1) ≤ 2 ^ (n + 3) * c := Nat.mul_le_mul_left _ h7
  rw [← hc, Nat.mul_add, Nat.mul_one] at h8
  rw [Nat.pow_add, Nat.mul_comm (2 ^ n), Nat.mul_assoc] at *
  generalize 2 ^ n * q = z at *
  generalize 2 ^ n = y at *
  omega

theorem startLevel1_le {tt : TableInfo} {g : Granule} (h : walkable1 tt = some g) :
    startLevel1 (inputSize tt.tsz) g ≤ 3 ∧
      inputSize tt.tsz ≤ levelShift (startLevel1 (inputSize tt.tsz) g) g + stride g := by
  obtain ⟨-, h1, h2⟩ := walkable1_eq_some h
  generalize inputSize tt.tsz = n at *
  cases g <;> simp only [shiftOf] at h1 <;> (interval_cases n <;> decide)

/-- The first fetch of a stage-1 walk is aligned and in range. -/
theorem fetchAddress_root1 {tt : TableInfo} {g : Granule} (h : walkable1 tt = some g) (r : RegionIx) (ia : Word) :
    FetchAddress (pteAddr (rootWalk1 tt r g) ia) := by
  obtain ⟨-, h1, h2⟩ := walkable1_eq_some h
  obtain ⟨hl, hs⟩ := startLevel1_le h
  have h12 := (levelShift_le hl g).1
  have hi := tableIndex_lt_of_le ia (inputsize := inputSize tt.tsz) (level := startLevel1 (inputSize tt.tsz) g)
    (n := inputSize tt.tsz - levelShift (startLevel1 (inputSize tt.tsz) g) g) (g := g) (by omega) (by omega)
  refine fetchAddress_of_root (base := tt.tableBase) (by omega) hi ?_
  unfold pteAddr rootWalk1 alignDown
  simp only [BitVec.toNat_add, BitVec.toNat_shiftLeft, Nat.shiftLeft_eq]
  have hb : (tt.tableBase.setWidth 64 &&& ~~~ mask (inputSize tt.tsz -
      levelShift (startLevel1 (inputSize tt.tsz) g) g + 3)).toNat < 2 ^ 48 := by
    rw [and_not_mask_toNat _ (by omega)]
    have := tt.tableBase.isLt
    simp only [BitVec.toNat_setWidth]
    omega
  have hp : 2 ^ (inputSize tt.tsz - levelShift (startLevel1 (inputSize tt.tsz) g) g) ≤ 2 ^ 36 :=
    Nat.pow_le_pow_right (by omega) (by omega)
  omega

/-- The index into the concatenated roots and the index into the root it selects make one index of the whole root structure
(rule R163's closing remark). -/
theorem concat_index {x k m : Nat} : x / 2 ^ (k + m) * 2 ^ m + x / 2 ^ k % 2 ^ m = x / 2 ^ k := by
  rw [Nat.pow_add, ← Nat.div_div_eq_div_mul, Nat.mul_comm]
  exact Nat.div_add_mod _ _

/-- The first fetch of a stage-2 walk is aligned and in range. -/
theorem fetchAddress_root2 {s2 : Stage2Info} {g : Granule} (h : walkable2 s2 = some g) {ia : Word}
    (hia : ia >>> inputSize s2.tsz = 0) : FetchAddress (pteAddr (rootWalk2 s2 g ia) ia) := by
  obtain ⟨-, h0, h3, h1, h2⟩ := walkable2_eq_some h
  obtain ⟨l, hl⟩ := Int.eq_ofNat_of_zero_le h0
  rw [hl] at h3 h1 h2
  have hl3 : l ≤ 3 := by omega
  have h12 := (levelShift_le hl3 g).1
  have hx : ia.toNat < 2 ^ inputSize s2.tsz := by
    have := congrArg BitVec.toNat hia
    rw [BitVec.toNat_ushiftRight, Nat.shiftRight_eq_div_pow] at this
    rcases Nat.div_eq_zero_iff.1 this with h | h
    · exact absurd h (Nat.two_pow_pos _).ne'
    · exact h
  have hup : levelShift ((l : Int) - 1) g = levelShift (l : Int) g + stride g := by
    cases g <;> simp [levelShift, shiftOf, stride] <;> omega
  have hn : inputSize s2.tsz ≤ 48 := by omega
  have hi : ia.toNat / 2 ^ levelShift (l : Int) g < 2 ^ (inputSize s2.tsz - levelShift (l : Int) g) := by
    rw [Nat.div_lt_iff_lt_mul (Nat.two_pow_pos _), ← Nat.pow_add]
    rwa [show inputSize s2.tsz - levelShift (l : Int) g + levelShift (l : Int) g = inputSize s2.tsz by omega]
  have hp : 2 ^ (inputSize s2.tsz - levelShift (l : Int) g) ≤ 2 ^ 36 := Nat.pow_le_pow_right (by omega) (by omega)
  have hb : (s2.tableBase.setWidth 64 &&& ~~~ mask (inputSize s2.tsz - levelShift (l : Int) g + 3)).toNat < 2 ^ 48 := by
    rw [and_not_mask_toNat _ (by omega)]
    have := s2.tableBase.isLt
    simp only [BitVec.toNat_setWidth]
    omega
  refine fetchAddress_of_root (base := s2.tableBase) (n := inputSize s2.tsz - levelShift (l : Int) g) (by omega) hi ?_
  unfold pteAddr rootWalk2 alignDown
  simp only [hl, Int.toNat_natCast, BitVec.toNat_add, BitVec.toNat_shiftLeft, Nat.shiftLeft_eq,
    BitVec.toNat_ushiftRight, Nat.shiftRight_eq_div_pow]
  have ht : (tableIndex ia (inputSize s2.tsz) l g).toNat = ia.toNat / 2 ^ levelShift (l : Int) g % 2 ^ stride g := by
    unfold tableIndex
    rw [and_mask_toNat _ (by cases g <;> simp [stride, shiftOf]), BitVec.toNat_ushiftRight, and_mask_toNat _ (by omega),
      Nat.shiftRight_eq_div_pow, Nat.mod_eq_of_lt hx]
  have hc := concat_index (x := ia.toNat) (k := levelShift (l : Int) g) (m := stride g)
  rw [hup, ht]
  have hg : 2 ^ shiftOf g = 8 * 2 ^ stride g := by cases g <;> rfl
  rw [hg]
  generalize hA : ia.toNat / 2 ^ (levelShift (l : Int) g + stride g) = A at *
  have hA2 : A * (8 * 2 ^ stride g) = 8 * (A * 2 ^ stride g) := by
    rw [Nat.mul_comm A, Nat.mul_assoc, Nat.mul_comm _ A]
  rw [hA2]
  generalize A * 2 ^ stride g = B at *
  generalize ia.toNat / 2 ^ levelShift (l : Int) g % 2 ^ stride g = C at *
  omega

end Sys2Proof.Machine
end

