-- ==== Sys2Proof/Laws/Exec.lean ====
section
/-! SUPPORT. What `exec` calls for each command, and the end of a command of several atomic steps. -/

namespace Sys2Proof.Machine

/-! ### The arms of `exec` -/

theorem exec_translate (dev : DevId) (addr : Word) (acc : BitVec 2) (s : State) :
    exec (.translate dev addr acc) s = execTranslate dev addr acc s := rfl
theorem exec_ptw (dev : DevId) (addr : Word) (acc : BitVec 2) (s : State) :
    exec (.ptw dev addr acc) s = execPtw dev addr acc s := rfl
theorem exec_tlbLookup (dev : DevId) (rgn : RegionIx) (addr : Word) (s : State) :
    exec (.tlbLookup dev rgn addr) s = execTlbLookup dev rgn addr s := rfl
theorem exec_tlbInsert (dev : DevId) (addr data : Word) (tg lvl perm : BitVec 2) (s : State) :
    exec (.tlbInsert dev addr data tg lvl perm) s = execTlbInsert dev addr data tg lvl perm s := rfl
theorem exec_tlbiAll (s : State) : exec .tlbiAll s = execTlbiAll s := rfl
theorem exec_tlbiAsid (asid : BitVec 16) (s : State) : exec (.tlbiAsid asid) s = execTlbiAsid asid s := rfl
theorem exec_tlbiVmid (vmid : BitVec 16) (s : State) : exec (.tlbiVmid vmid) s = execTlbiVmid vmid s := rfl
theorem exec_tlbiIova (aw vw : Bool) (asid vmid : BitVec 16) (tg lvl : BitVec 2) (addr data : Word) (s : State) :
    exec (.tlbiIova aw vw asid vmid tg lvl addr data) s = execTlbiIova aw vw asid vmid tg lvl addr data s := rfl
theorem exec_devGet (dev : DevId) (s : State) : exec (.devGet dev) s = execDevGet dev s := rfl
theorem exec_cfgSet (dev : DevId) (cfg : TranslationConfig) (s : State) :
    exec (.cfgSet dev cfg) s = execCfgSet dev cfg s := rfl
theorem exec_cfgInv (dev : DevId) (s : State) : exec (.cfgInv dev) s = execCfgInv dev s := rfl
theorem exec_cntRead (dev : DevId) (s : State) : exec (.cntRead dev) s = execCntRead dev s := rfl
theorem exec_cntClr (dev : DevId) (s : State) : exec (.cntClr dev) s = execCntClr dev s := rfl

/-! ### `TRANSLATE` and `PTW` -/

/-- A usable config is a valid one of the 64-bit format with a legal stage (rules R183, R194). -/
theorem usableConfig_eq_some {s : State} {dev : DevId} {cfg : TranslationConfig} {st : Stage} :
    usableConfig s dev = some (cfg, st) ↔
      validConfig s dev = some cfg ∧ cfg.aa64 = true ∧ stageOfCode cfg.stage = some st := by
  unfold usableConfig
  cases validConfig s dev with
  | none => simp
  | some c =>
    by_cases ha : c.aa64 = true
    · cases hs : stageOfCode c.stage with
      | none => simp only [ha, if_true, hs, Option.some.injEq]; constructor
                · intro h; cases h
                · rintro ⟨rfl, -, h⟩; rw [hs] at h; cases h
      | some st' =>
        simp only [ha, if_true, hs, Option.some.injEq, Prod.mk.injEq]
        constructor
        · rintro ⟨rfl, rfl⟩; exact ⟨rfl, ha, hs⟩
        · rintro ⟨rfl, -, h⟩; rw [hs] at h; exact ⟨rfl, Option.some.inj h⟩
    · simp only [ha, Bool.false_eq_true, if_false, Option.some.injEq]
      constructor
      · intro h; cases h
      · rintro ⟨rfl, h, -⟩; exact absurd h ha

theorem usableConfig_congr {s t : State} (h : ∀ d, validConfig t d = validConfig s d) (dev : DevId) :
    usableConfig t dev = usableConfig s dev := by
  unfold usableConfig; rw [h]

/-- What a lookup counted: of a device that has a valid config, its record's counter (rule R204). -/
theorem counted_of_countLookup {s t : State} {dev : DevId} {hit : Bool} {cfg : TranslationConfig}
    (hv : validConfig s dev = some cfg) (hc : t.ctx = (countLookup s dev hit).ctx) (hb : t.buses = s.buses)
    (hd : t.draws = s.draws) : Counted s t dev hit := by
  obtain ⟨r, hr, -, -⟩ := validConfig_eq_some.1 hv
  refine ⟨r, hr, fun d => ?_, hb, hd⟩
  rw [deviceOf_congr hc, deviceOf_countLookup]
  split
  · rw [hr]; cases hit <;> simp [bumpCounter]
  · rfl

/-- A walk leaves memory and what the Memory Reader fails to deliver as they are (rules R56, R57). -/
theorem finishWalk_mem (cfg : TranslationConfig) (ia : Word) (acc : AccessKind) (n : Nat) (rd : Reader) (ph : Phase) :
    (finishWalk cfg ia acc n rd ph).1.mem = rd.mem ∧ (finishWalk cfg ia acc n rd ph).1.errs = rd.errs := by
  refine finishWalk_induction (P := fun r _ => r.mem = rd.mem ∧ r.errs = rd.errs)
    (Q := fun r _ => r.mem = rd.mem ∧ r.errs = rd.errs) (fun _ _ h => h) (fun _ _ h => h) (fun r w h => ?_) n rd ph
    ⟨rfl, rfl⟩
  rw [walkFetch_reader]
  split
  · exact h
  · exact h

/-- Everything a `TRANSLATE` of a legal access can do (rules R184 to R189). -/
theorem execTranslate_cases (s : State) (dev : DevId) (ia : Word) {code : BitVec 2} {acc : AccessKind}
    (ha : accessOfCode code = some acc) :
    (usableConfig s dev = none ∧ execTranslate dev ia code s = .next (refuseConfig s)) ∨
    ∃ cfg st, usableConfig s dev = some (cfg, st) ∧
      ((∃ r, lookupGranule cfg st ia = .error r ∧ execTranslate dev ia code s = .next (finishJob .translate cfg ia r s)) ∨
       ∃ g, lookupGranule cfg st ia = .ok g ∧
        ((∃ e, probe s.iotlb cfg g ia = some e ∧
            execTranslate dev ia code s = .next (answerHit e st ia acc (countLookup s dev true))) ∨
         (probe s.iotlb cfg g ia = none ∧
            execTranslate dev ia code s = .next (finishJob .translate cfg ia (runWalk cfg ia acc s.reader).2
              { countLookup s dev false with reader := (runWalk cfg ia acc s.reader).1 })))) := by
  unfold execTranslate translateStepA
  rw [ha]
  cases hu : usableConfig s dev with
  | none => exact .inl ⟨rfl, rfl⟩
  | some p =>
    obtain ⟨cfg, st⟩ := p
    refine .inr ⟨cfg, st, rfl, ?_⟩
    cases hg : lookupGranule cfg st ia with
    | error r => exact .inl ⟨r, rfl, by simp only [hg]; rfl⟩
    | ok g =>
      refine .inr ⟨g, rfl, ?_⟩
      cases hp : probe s.iotlb cfg g ia with
      | some e => exact .inl ⟨e, rfl, by simp only [hg, hp]; rfl⟩
      | none => exact .inr ⟨rfl, by simp only [hg, hp, runToEnd, runWalk, countLookup_reader]⟩

/-- Everything a `PTW` of a legal access can do (rules R180 to R183). -/
theorem execPtw_cases (s : State) (dev : DevId) (ia : Word) {code : BitVec 2} {acc : AccessKind}
    (ha : accessOfCode code = some acc) :
    (usableConfig s dev = none ∧ execPtw dev ia code s = .next (refuseConfig s)) ∨
    ∃ cfg st, usableConfig s dev = some (cfg, st) ∧
      execPtw dev ia code s = .next (finishJob .ptw cfg ia (runWalk cfg ia acc s.reader).2
        { s with reader := (runWalk cfg ia acc s.reader).1 }) := by
  unfold execPtw ptwStepA
  rw [ha]
  cases hu : usableConfig s dev with
  | none => exact .inl ⟨rfl, rfl⟩
  | some p => exact .inr ⟨p.1, p.2, rfl, rfl⟩

/-! ### Every command -/

/-- A command executed at once ends with one answer, given on a state whose ports are as they were (rules R96, R265). -/
theorem exec_responds {i : Instr} {s t : State} (h : exec i s = .next t) :
    ∃ r s', t = respond r s' ∧ s'.ports = s.ports ∧ s'.active = s.active := by
  cases i with
  | translate dev addr acc =>
    simp only [exec_translate, execTranslate] at h
    split at h
    · cases h; exact ⟨_, s, rfl, rfl, rfl⟩
    · rename_i a ha
      have h' : execTranslate dev addr acc s = .next t := by simp only [execTranslate, ha]; exact h
      rcases execTranslate_cases s dev addr ha with ⟨-, h2⟩ | ⟨cfg, st, -, h2⟩
      · rw [h2] at h'; cases h'; exact ⟨_, s, rfl, rfl, rfl⟩
      · rcases h2 with ⟨r, -, h2⟩ | ⟨g, -, ⟨e, -, h2⟩ | ⟨-, h2⟩⟩
        · rw [h2] at h'; cases h'
          obtain ⟨m, rep, h3, -⟩ := finishJob_cases .translate cfg addr r s
          exact ⟨rep, _, h3, rfl, rfl⟩
        · rw [h2] at h'; cases h'
          unfold answerHit; split
          · exact ⟨_, _, rfl, by simp, by simp⟩
          · exact ⟨_, _, rfl, by simp, by simp⟩
        · rw [h2] at h'; cases h'
          obtain ⟨m, rep, h3, -⟩ := finishJob_cases .translate cfg addr (runWalk cfg addr a s.reader).2 { countLookup s dev false with reader := (runWalk cfg addr a s.reader).1 }
          exact ⟨rep, _, h3, by simp, by simp⟩
  | ptw dev addr acc =>
    simp only [exec_ptw, execPtw] at h
    split at h
    · cases h; exact ⟨_, s, rfl, rfl, rfl⟩
    · cases h
      unfold ptwStepA
      split
      · exact ⟨_, s, rfl, rfl, rfl⟩
      · unfold runToEnd
        simp only
        rename_i a _ _ cfg _ _
        obtain ⟨m, rep, h3, -⟩ := finishJob_cases .ptw cfg addr (finishWalk cfg addr a 4 s.reader (dispatch cfg addr)).2 { s with reader := (finishWalk cfg addr a 4 s.reader (dispatch cfg addr)).1 }
        exact ⟨rep, _, h3, rfl, rfl⟩
  | tlbLookup dev rgn addr =>
    simp only [exec_tlbLookup, execTlbLookup] at h
    split at h
    · cases h; exact ⟨_, s, rfl, rfl, rfl⟩
    · split at h
      · cases h; exact ⟨_, s, rfl, rfl, rfl⟩
      · split at h <;> (cases h; exact ⟨_, _, rfl, by simp, by simp⟩)
  | tlbInsert dev addr data tg lvl perm =>
    simp only [exec_tlbInsert, execTlbInsert] at h
    split at h
    · cases h; exact ⟨_, s, rfl, rfl, rfl⟩
    · split at h
      · cases h; exact ⟨_, s, rfl, rfl, rfl⟩
      · cases h; exact ⟨_, _, rfl, rfl, rfl⟩
  | tlbiAll => cases h; exact ⟨_, _, rfl, rfl, rfl⟩
  | tlbiAsid _ => cases h; exact ⟨_, _, rfl, rfl, rfl⟩
  | tlbiVmid _ => cases h; exact ⟨_, _, rfl, rfl, rfl⟩
  | tlbiIova aw vw asid vmid tg lvl addr data =>
    simp only [exec_tlbiIova, execTlbiIova] at h
    split at h <;> (cases h; exact ⟨_, _, rfl, rfl, rfl⟩)
  | devGet dev =>
    simp only [exec_devGet, execDevGet] at h
    split at h <;> (cases h; exact ⟨_, _, rfl, rfl, rfl⟩)
  | cfgSet dev cfg =>
    cases h; refine ⟨_, _, rfl, ?_, ?_⟩ <;> (unfold programDevice; split <;> rfl)
  | cfgInv dev =>
    simp only [exec_cfgInv, execCfgInv] at h
    split at h <;> (cases h; exact ⟨_, _, rfl, rfl, rfl⟩)
  | cntRead dev =>
    simp only [exec_cntRead, execCntRead] at h
    split at h <;> (cases h; exact ⟨_, _, rfl, rfl, rfl⟩)
  | cntClr dev =>
    simp only [exec_cntClr, execCntClr] at h
    split at h <;> (cases h; exact ⟨_, _, rfl, rfl, rfl⟩)

end Sys2Proof.Machine
end

