-- ==== Sys2Proof/Laws/PerInstr.lean ====
section
/-! SUPPORT. A law of every command, one lemma per constructor: the low byte of `W0` of its encoding is the `op` code of its row
of `spec/30_encoding.md` rule R93. -/

namespace Sys2Proof.Laws.EncodedOpcode

/-- The encoding of a command carries the command's own `op` code (rules R91, R93). -/
def Statement (i : Instr) : Prop := opField (encode i) = opcodeCode i.opcode

/-- The low byte of a packed `W0`. -/
theorem packW0_op (vmid asid : BitVec 16) (perm lvl tg : BitVec 2) (vw aw : Bool) (rgn : RegionIx) (acc : BitVec 2)
    (op : BitVec 8) : (packW0 vmid asid perm lvl tg vw aw rgn acc op).extractLsb' 0 8 = op := by
  unfold packW0
  exact BitVec.extractLsb'_append_eq_right

theorem translate (dev : DevId) (addr : Word) (acc : BitVec 2) : Statement (.translate dev addr acc) := packW0_op ..

theorem ptw (dev : DevId) (addr : Word) (acc : BitVec 2) : Statement (.ptw dev addr acc) := packW0_op ..

theorem tlbLookup (dev : DevId) (rgn : RegionIx) (addr : Word) : Statement (.tlbLookup dev rgn addr) := packW0_op ..

theorem tlbInsert (dev : DevId) (addr data : Word) (tg lvl perm : BitVec 2) : Statement (.tlbInsert dev addr data tg lvl perm) := packW0_op ..

theorem tlbiAll : Statement .tlbiAll := packW0_op ..

theorem tlbiAsid (asid : BitVec 16) : Statement (.tlbiAsid asid) := packW0_op ..

theorem tlbiVmid (vmid : BitVec 16) : Statement (.tlbiVmid vmid) := packW0_op ..

theorem tlbiIova (aw vw : Bool) (asid vmid : BitVec 16) (tg lvl : BitVec 2) (addr data : Word) : Statement (.tlbiIova aw vw asid vmid tg lvl addr data) := packW0_op ..

theorem devGet (dev : DevId) : Statement (.devGet dev) := packW0_op ..

theorem cfgSet (dev : DevId) (cfg : TranslationConfig) : Statement (.cfgSet dev cfg) := packW0_op ..

theorem cfgInv (dev : DevId) : Statement (.cfgInv dev) := packW0_op ..

theorem cntRead (dev : DevId) : Statement (.cntRead dev) := packW0_op ..

theorem cntClr (dev : DevId) : Statement (.cntClr dev) := packW0_op ..

end Sys2Proof.Laws.EncodedOpcode
end

