-- ==== Sys2Proof/Machine/Assembly.lean ====
section
/-! DEFINITION. The textual form of a command (`spec/30_encoding.md` rule R101). No other file uses it. -/

namespace Sys2Proof.Machine

/-- A number in C notation, hexadecimal. -/
def hexText (n : Nat) : String := "0x" ++ String.ofList (Nat.toDigits 16 n)

/-- `d<n>`. -/
def devText (d : DevId) : String := "d" ++ hexText d.toNat

/-- `R` or `W`; an illegal `acc` has no textual form and is shown as its code. -/
def accText (acc : BitVec 2) : String :=
  match accessOfCode acc with
  | some .read => "R"
  | some .write => "W"
  | none => hexText acc.toNat

/-- `r0` or `r1`. -/
def regionText : RegionIx → String
  | .r0 => "r0"
  | .r1 => "r1"

/-- `4K`, `16K`, `64K`, or `-` for tag 0. -/
def granuleText (tg : BitVec 2) : String :=
  match granuleOfTag tg with
  | some .g4K => "4K"
  | some .g16K => "16K"
  | some .g64K => "64K"
  | none => "-"

/-- One of `--`, `R-`, `-W`, `RW`. -/
def permText (p : BitVec 2) : String :=
  (if p.getLsbD 0 then "R" else "-") ++ (if p.getLsbD 1 then "W" else "-")

/-- An identifier, or `*` for a wildcard. -/
def scopeText (wild : Bool) (n : BitVec 16) : String := if wild then "*" else hexText n.toNat

/-- `name=value`, one field of a config. -/
def fieldText (name : String) (n : Nat) : String := name ++ "=" ++ hexText n

/-- The fields of a stage-1 region under their names of rule R100. -/
def tableInfoText (name : String) (t : TableInfo) : List String :=
  [fieldText (name ++ ".table_base") t.tableBase.toNat, fieldText (name ++ ".tsz") t.tsz.toNat,
   name ++ ".granule=" ++ granuleText t.tg, fieldText (name ++ ".disabled") t.disabled.toNat,
   fieldText (name ++ ".had") t.had.toNat]

/-- The fields of a config under their names of rule R100. -/
def configText (c : TranslationConfig) : List String :=
  [fieldText "stage" c.stage.toNat, fieldText "aa64" c.aa64.toNat, fieldText "affd" c.affd.toNat,
   fieldText "tbi" c.tbi.toNat, fieldText "oas" c.oas.toNat, fieldText "asid" c.asid.toNat,
   fieldText "vmid" c.vmid.toNat, fieldText "eff_ps" c.effPs.toNat] ++
  tableInfoText "tt[0]" c.tt0 ++ tableInfoText "tt[1]" c.tt1 ++
  [fieldText "s2.table_base" c.s2.tableBase.toNat, fieldText "s2.tsz" c.s2.tsz.toNat,
   "s2.granule=" ++ granuleText c.s2.tg, fieldText "s2.sl0" c.s2.sl0.toNat, fieldText "s2.affd" c.s2.affd.toNat]

/-- A field list between the opening and the closing brace, which are characters 123 and 125. -/
def bracedText (fields : List String) : String :=
  String.ofList [Char.ofNat 123] ++ String.intercalate ", " fields ++ String.ofList [Char.ofNat 125]

/-- One command, one line (rule R101). -/
def assemblyText : Instr → String
  | .translate dev addr acc => "TRANSLATE " ++ devText dev ++ ", " ++ hexText addr.toNat ++ ", " ++ accText acc
  | .ptw dev addr acc => "PTW " ++ devText dev ++ ", " ++ hexText addr.toNat ++ ", " ++ accText acc
  | .tlbLookup dev rgn addr => "TLB_LOOKUP " ++ devText dev ++ ", " ++ regionText rgn ++ ", " ++ hexText addr.toNat
  | .tlbInsert dev addr data tg lvl perm =>
    "TLB_INSERT " ++ devText dev ++ ", " ++ hexText addr.toNat ++ ", " ++ hexText data.toNat ++ ", " ++
      granuleText tg ++ ", L" ++ toString lvl.toNat ++ ", " ++ permText perm
  | .tlbiAll => "TLBI_ALL"
  | .tlbiAsid asid => "TLBI_ASID " ++ hexText asid.toNat
  | .tlbiVmid vmid => "TLBI_VMID " ++ hexText vmid.toNat
  | .tlbiIova aw vw asid vmid tg lvl addr data =>
    "TLBI_IOVA " ++ scopeText aw asid ++ ", " ++ scopeText vw vmid ++ ", " ++ hexText addr.toNat ++ ", " ++
      granuleText tg ++ ", " ++ hexText data.toNat ++ ", ttl=" ++ toString lvl.toNat
  | .devGet dev => "DEV_GET " ++ devText dev
  | .cfgSet dev cfg => "CFG_SET " ++ devText dev ++ ", " ++ bracedText (configText cfg)
  | .cfgInv dev => "CFG_INV " ++ devText dev
  | .cntRead dev => "CNT_READ " ++ devText dev
  | .cntClr dev => "CNT_CLR " ++ devText dev

end Sys2Proof.Machine
end

