-- ==== Sys2Proof/Tests/Slice0.lean ====
section
/-! SUPPORT. The model's own tests, and the witnesses of the statements' hypotheses. Expected values are those of
`spec/95_test_vectors.md` (the vector is named) or of the worked examples of the rules, never the model's own answer. -/

-- The theorems below are elaborated one after another: in parallel their threads can exceed the memory limit.
set_option Elab.async false

namespace Sys2Proof.Tests

open Sys2Proof.Machine

/-! ### Small states -/

/-- A region that is missing (rule R23): disabled, `tsz` 0. -/
def noRegion : TableInfo := { disabled := true, tableBase := 0, tsz := 0, tg := 0, had := false }

/-- `CFG1` of `spec/95_test_vectors.md`. -/
def cfg1 : TranslationConfig where
  stage := 1
  aa64 := true
  affd := false
  tbi := 0
  oas := 48
  asid := 1
  vmid := 0
  effPs := 48
  tt0 := { disabled := false, tableBase := 0x1000, tsz := 16, tg := 1, had := false }
  tt1 := noRegion
  s2 := { tableBase := 0, tsz := 0, tg := 0, sl0 := 0, affd := false }

/-- `CFG2` of `spec/95_test_vectors.md`. -/
def cfg2 : TranslationConfig where
  stage := 2
  aa64 := true
  affd := false
  tbi := 0
  oas := 40
  asid := 0
  vmid := 7
  effPs := 40
  tt0 := noRegion
  tt1 := noRegion
  s2 := { tableBase := 0x10000, tsz := 24, tg := 1, sl0 := 1, affd := false }

/-- Memory with a 64-bit word written, little-endian. -/
def poke (m : Memory) (pa v : Word) : Memory :=
  writeBytes m pa ((List.range 8).map fun i => v.extractLsb' (8 * i) 8)

/-- `MEM1` of `spec/95_test_vectors.md` with `leaf` at `0x4A28`. -/
def mem1 (leaf : Word) : Memory :=
  poke (poke (poke (poke [] 0x1000 0x2003) 0x2000 0x3003) 0x3488 0x4003) 0x4A28 leaf

/-- `MEM2` of `spec/95_test_vectors.md` with `leaf` at `0x20010`. -/
def mem2 (leaf : Word) : Memory := poke (poke [] 0x11018 0x20003) 0x20010 leaf

/-- After reset, with device 0 under `cfg` and `m` behind the Memory Reader. -/
def machine (cfg : TranslationConfig) (m : Memory) : State :=
  { State.reset with
    ctx := [(0, { cfgValid := true, cfg := cfg, hits := 0, misses := 0, asHandle := 0, notifier := [] })]
    buses := [0]
    reader := { mem := m, errs := [], issued := [] } }

/-- `CFG1` and `MEM1`. -/
def walker1 : State := machine cfg1 (mem1 0x80000443)

/-- `CFG2` and `MEM2`. -/
def walker2 : State := machine cfg2 (mem2 0x402004C1)

/-- A pair of the IOTLB under `vmid` 0, of 4K granule. -/
def pair (asid : BitVec 16) (iap ta addrMask : Word) (level perm : BitVec 2) : Key × Entry :=
  (⟨asid, 0, iap, 1, level⟩, ⟨ta, iap, addrMask, perm, level, .g4K⟩)

/-- `E1` of family INV. -/
def e1 : Key × Entry := pair 1 0x12345000 0x80000000 0xFFF 3 3
/-- `E2` of family INV. -/
def e2 : Key × Entry := pair 1 0x40000000 0x100000000 0x3FFFFFFF 1 1
/-- `E3` of family INV. -/
def e3 : Key × Entry := pair 2 0x12345000 0x90000000 0xFFF 3 3

/-- Device 0 under `CFG1` and the start state of family INV, with a cap of 4 as in Program P3. -/
def cached : State := { machine cfg1 [] with iotlb := [e1, e2, e3], params := ⟨4, 32⟩ }

/-- The state after a command. -/
def after (i : Instr) (s : State) : State :=
  match exec i s with
  | .next t => t
  | .fault _ => s
  | .refused _ => s

/-- The response of a command. -/
def reply (i : Instr) (s : State) : Response := (portOf (after i s) s.active).response

/-- The hits and misses of device 0 after a command. -/
def counts (i : Instr) (s : State) : Option (Nat × Nat) := (deviceOf (after i s) 0).map fun r => (r.hits, r.misses)

/-- The addresses a command fetches, in order. -/
def reads (i : Instr) (s : State) : List Word := (after i s).reader.issued.reverse

/-- The keys left in the IOTLB after a command. -/
def keys (i : Instr) (s : State) : List Key := (after i s).iotlb.map (·.1)

/-! ### WellFormed: an ill-formed term for each check of rule R94 (vectors B4, B5, B13 to B17) -/

theorem test_wf_acc_none_refused : (Instr.translate 0 0x12345678 0).wellFormed = false := by decide
theorem test_wf_acc_both_refused : (Instr.ptw 0 0x12345678 3).wellFormed = false := by decide
theorem test_wf_insert_without_granule_refused :
    (Instr.tlbInsert 0 0x12345000 0x80000000 0 3 3).wellFormed = false := by decide +kernel
theorem test_wf_insert_unaligned_iap_refused :
    (Instr.tlbInsert 0 0x12345678 0x80000000 1 3 3).wellFormed = false := by decide +kernel
theorem test_wf_insert_unaligned_ta_refused :
    (Instr.tlbInsert 0 0x40000000 0x80200000 1 1 1).wellFormed = false := by decide +kernel
theorem test_wf_wildcard_with_asid_refused :
    (Instr.tlbiIova true false 1 0 1 0 0x12345000 1).wellFormed = false := by decide
theorem test_wf_wildcard_with_vmid_refused :
    (Instr.tlbiIova false true 0 7 1 0 0x12345000 1).wellFormed = false := by decide
theorem test_wf_legal_insert : (Instr.tlbInsert 0 0x40000000 0x100000000 1 1 1).wellFormed = true := by decide +kernel

/-! ### Decoding: one word written out for every command (rules R91, R93, R100) -/

theorem test_decode_translate :
    decode ⟨0x0000000000000201, 0x12345678, 0, 0x0108, 0, 0, 0, 0⟩ = .ok (.translate 0x0108 0x12345678 2) := by rfl
theorem test_decode_ptw :
    decode ⟨0x0000000000000102, 0x80C0403ABC, 0, 1, 0, 0, 0, 0⟩ = .ok (.ptw 1 0x80C0403ABC 1) := by rfl
theorem test_decode_tlbLookup :
    decode ⟨0x0000000000000403, 0x12345FFF, 0, 0, 0, 0, 0, 0⟩ = .ok (.tlbLookup 0 .r1 0x12345FFF) := by rfl
theorem test_decode_tlbInsert :
    decode ⟨0x000000000002A004, 0x40000000, 0x100000000, 0, 0, 0, 0, 0⟩ =
      .ok (.tlbInsert 0 0x40000000 0x100000000 1 1 1) := by rfl
theorem test_decode_tlbiAll : decode ⟨0x08, 0, 0, 0, 0, 0, 0, 0⟩ = .ok .tlbiAll := by rfl
theorem test_decode_tlbiAsid : decode ⟨0x0000000300000009, 0, 0, 0, 0, 0, 0, 0⟩ = .ok (.tlbiAsid 3) := by rfl
theorem test_decode_tlbiVmid : decode ⟨0x000700000000000A, 0, 0, 0, 0, 0, 0, 0⟩ = .ok (.tlbiVmid 7) := by rfl
theorem test_decode_tlbiIova :
    decode ⟨0x000000020001900B, 0x12345000, 1, 0, 0, 0, 0, 0⟩ =
      .ok (.tlbiIova false true 2 0 0 3 0x12345000 1) := by rfl
theorem test_decode_devGet : decode ⟨0x10, 0, 0, 0x0108, 0, 0, 0, 0⟩ = .ok (.devGet 0x0108) := by rfl
theorem test_decode_cfgSet :
    decode ⟨0x11, 0, 0, 0x0100, 0x0002800070000A06, 0x0100000000000000, 0x0100000000000000, 0x0158000000010000⟩ =
      .ok (.cfgSet 0x0100 cfg2) := by rfl
theorem test_decode_cfgInv : decode ⟨0x12, 0, 0, 1, 0, 0, 0, 0⟩ = .ok (.cfgInv 1) := by rfl
theorem test_decode_cntRead : decode ⟨0x13, 0, 0, 1, 0, 0, 0, 0⟩ = .ok (.cntRead 1) := by rfl
theorem test_decode_cntClr : decode ⟨0x14, 0, 0, 0xFFFF, 0, 0, 0, 0⟩ = .ok (.cntClr 0xFFFF) := by rfl
/-- `K0..K3` of `CFG1`. -/
theorem test_encode_cfg1 :
    encode (.cfgSet 0 cfg1) = ⟨0x11, 0, 0, 0, 0x0003000000001C05, 0x0050000000001000, 0x0100000000000000, 0⟩ := by
  decide

/-! Rejected by name (vectors B2, B6, B8, B10, B11, B20). -/

theorem test_decode_reserved_opcode : decode ⟨0x05, 0, 0, 0, 0, 0, 0, 0⟩ = .error (.reservedOpcode 0x05) := by rfl
theorem test_decode_unused_field : decode ⟨0x601, 0x12345678, 0, 0, 0, 0, 0, 0⟩ = .error .nonzeroW0 := by rfl
theorem test_decode_reserved_bit : decode ⟨0x80201, 0x12345678, 0, 0, 0, 0, 0, 0⟩ = .error .nonzeroW0 := by rfl
theorem test_decode_reserved_W3 : decode ⟨0x201, 0x12345678, 0, 0x10000, 0, 0, 0, 0⟩ = .error .nonzeroW3 := by rfl
theorem test_decode_unused_addr : decode ⟨0x08, 1, 0, 0, 0, 0, 0, 0⟩ = .error .nonzeroW1 := by rfl
theorem test_decode_reserved_K0 :
    decode ⟨0x11, 0, 0, 0, 0x0007000000001C05, 0, 0, 0⟩ = .error .nonzeroConfigWord := by rfl
/-- Bit 64 of a table word is bit 0 of `W1`. -/
theorem test_decode_table_word :
    decodeTableWord 256 (0x0201 + 0x12345678 * 2 ^ 64 + 0x0108 * 2 ^ 192) = some (.translate 0x0108 0x12345678 2) := by
  decide +kernel
/-- The textual form of rule R101. -/
theorem test_assembly : assemblyText (.tlbInsert 0 0x40000000 0x100000000 1 1 1) =
    "TLB_INSERT d0x0, 0x40000000, 0x100000000, 4K, L1, R-" := by decide +kernel

/-! ### The walk functions (families DEC and SEL) -/

theorem test_index : [tableIndex 0x12345678 48 2 .g4K, tableIndex 0xFFFFFFFFFFFFF000 48 0 .g4K,
    tableIndex 0xABCDEF123 36 1 .g4K, tableIndex 0x123456789ABC 47 2 .g16K] = [0x91, 0x1FF, 0x2A, 0x22B] := by
  decide +kernel
theorem test_classify : [classify 0 0, classify 0x80000441 2, classify 0x80000441 3, classify 0x80000443 2,
    classify 0x80000443 3] = [.invalid, .block, .reserved, .table, .page] := by decide
theorem test_output_address : [outputAddress 0x402FF441 21, outputAddress 0xFFFFFFFFFFFFFFFF 30,
    outputAddress 0xFFFFFFFFFFFFFFFF 55] = [0x40200000, 0xFFFFC0000000, 0] := by decide +kernel
theorem test_start_level : [startLevel1 13 .g4K, startLevel1 39 .g4K, startLevel1 40 .g4K, startLevel1 47 .g16K,
    startLevel1 48 .g16K, startLevel1 43 .g64K] = [3, 1, 0, 1, 0, 1] := by decide

/-- `cfg1` with the selector's inputs replaced. -/
def selecting (tbi : BitVec 2) (tsz0 tsz1 : BitVec 6) : TranslationConfig :=
  { cfg1 with tbi := tbi, tt0 := { cfg1.tt0 with tsz := tsz0 }, tt1 := { cfg1.tt1 with tsz := tsz1 } }

theorem test_select_steps : [select (selecting 0 16 16) 0x0000123456789ABC, select (selecting 0 16 16) 0xFFFF800000000000,
    select (selecting 0 16 16) 0x0001000000000000, select (selecting 0 0 16) 0x0001000000000000,
    select (selecting 0 25 0) 0x0000008000000000, select (selecting 0 16 25) 0xFFFFFF0000000000] =
    [some .r0, some .r1, none, some .r0, some .r1, none] := by decide +kernel
theorem test_select_top_byte : [select (selecting 1 16 16) 0xAB00123456789ABC, select (selecting 2 16 16) 0x00FFFFFFFFFFFFFF,
    select (selecting 1 16 16) 0x00FFFFFFFFFFFFFF, select (selecting 3 8 8) 0x1280000000000000] =
    [some .r0, some .r1, none, some .r0] := by decide +kernel

/-! ### One step of each command -/

/-- S1, line 1. -/
theorem test_translate_walks : reply (.translate 0 0x12345678 2) walker1 = ⟨0x3E00, 0x80000678, 0x80000000, 0x12345000⟩ ∧
    reads (.translate 0 0x12345678 2) walker1 = [0x1000, 0x2000, 0x3488, 0x4A28] ∧
    keys (.translate 0 0x12345678 2) walker1 = [⟨1, 0, 0x12345000, 1, 3⟩] := by decide +kernel
/-- Program P4, line 10, on `E2`: a hit whose entry forbids the write. -/
theorem test_translate_hit_without_write : reply (.translate 0 0x40123456 2) cached = ⟨0xD2, 0x40123456, 0, 0⟩ ∧
    counts (.translate 0 0x40123456 2) cached = some (1, 0) := by decide +kernel
/-- X1. -/
theorem test_ptw_stage2 : reply (.ptw 0 0x80C0403ABC 1) walker2 = ⟨0x3600, 0x40203ABC, 0x40200000, 0x80C0400000⟩ ∧
    reads (.ptw 0 0x80C0403ABC 1) walker2 = [0x11018, 0x20010] := by decide +kernel
/-- W6. -/
theorem test_ptw_access_before_permission :
    reply (.ptw 0 0x12345678 2) (machine cfg1 (mem1 0x800000C3)) = ⟨0xC2, 0x12345678, 0, 0⟩ := by decide +kernel
/-- Program P3, line 7. -/
theorem test_tlbLookup_hit : reply (.tlbLookup 0 .r0 0x40123456) cached = ⟨0x2A00, 0, 0x100000000, 0x40000000⟩ := by
  decide +kernel
/-- Family TLB, line 10. -/
theorem test_tlbLookup_without_granule : reply (.tlbLookup 0 .r1 0x12345000) cached = ⟨3, 0, 0, 0⟩ ∧
    counts (.tlbLookup 0 .r1 0x12345000) cached = some (0, 0) := by decide +kernel
/-- Program P3, line 4. -/
theorem test_tlbInsert : (after (.tlbInsert 0 0x40000000 0x100000000 1 1 1) walker1).iotlb = [e2] := by decide +kernel
/-- Program P3, line 13: at the cap, a full clear although the key is present. -/
theorem test_tlbInsert_at_cap :
    (after (.tlbInsert 0 0x12345000 0x80000000 1 3 3) { cached with params := ⟨3, 32⟩ }).iotlb = [e1] := by
  decide +kernel
/-- V1. -/
theorem test_tlbiAll : (after .tlbiAll cached).iotlb = [] := by decide +kernel
/-- V2. -/
theorem test_tlbiAsid : (after (.tlbiAsid 1) cached).iotlb = [e3] := by decide +kernel
/-- V5 and V6. -/
theorem test_tlbiVmid : (after (.tlbiVmid 0) cached).iotlb = [] ∧ (after (.tlbiVmid 7) cached).iotlb = [e1, e2, e3] := by
  decide +kernel
/-- V7: the fast path leaves every other entry. -/
theorem test_tlbiIova_fast : (after (.tlbiIova false false 1 0 1 3 0x12345000 1) cached).iotlb = [e2, e3] := by
  decide +kernel
/-- V10, V15, V20 and V21. -/
theorem test_tlbiIova_scan : (after (.tlbiIova true false 0 0 1 0 0x12340000 16) cached).iotlb = [e2] ∧
    (after (.tlbiIova false false 1 0 1 0 0x12344000 1) cached).iotlb = [e1, e2, e3] ∧
    (after (.tlbiIova false false 1 0 1 0 0xFFFFFFFFFFFFF000 0xFFFFFFFFFFFFFFFF) cached).iotlb = [e1, e2, e3] ∧
    (after (.tlbiIova true true 0 0 1 0 0 0x10000000000000) cached).iotlb = [] := by decide +kernel
/-- Family CTX, lines 3 and 8. -/
theorem test_devGet : reply (.devGet 0x0108) walker1 = ⟨0x8000, 0, 0, 0⟩ ∧
    (after (.devGet 0x0108) walker1).buses = [0, 1] ∧ reply (.devGet 0) walker1 = ⟨0x10000, 0, 0, 0⟩ := by
  decide +kernel
/-- Rule R233: the counters of a new config begin at 0, the IOTLB stays. -/
theorem test_cfgSet : counts (.cfgSet 0 cfg2) (after (.translate 0 0x40123456 1) cached) = some (0, 0) ∧
    (after (.cfgSet 0 cfg2) cached).iotlb = [e1, e2, e3] := by decide +kernel
/-- Rule R234: the counters stay, `TRANSLATE` is refused. -/
theorem test_cfgInv : counts (.cfgInv 0) (after (.translate 0 0x40123456 1) cached) = some (1, 0) ∧
    reply (.translate 0 0x40123456 1) (after (.cfgInv 0) cached) = ⟨3, 0, 0, 0⟩ := by decide +kernel
/-- Rule R235. -/
theorem test_cntRead : reply (.cntRead 0) (after (.tlbLookup 0 .r0 0) cached) = ⟨0, 0, 1, 0⟩ ∧
    reply (.cntRead 9) cached = ⟨3, 0, 0, 0⟩ := by decide +kernel
/-- Rule R236. -/
theorem test_cntClr : counts (.cntClr 0) (after (.tlbLookup 0 .r0 0) cached) = some (0, 0) := by decide +kernel
/-- Rule R29: a counter at its largest value wraps. -/
theorem test_counter_wraps : (bumpCounter ⟨256, 32⟩ true ⟨true, cfg1, 0xFFFFFFFF, 5, 0, []⟩).hits = 0 := by decide

/-! ### Witnesses: encoding, steps and events -/

theorem witness_EncodeOfDecodedRequestIsTheRequest :
    decode ⟨0x201, 0x12345678, 0, 0x0108, 5, 6, 7, 8⟩ = .ok (.translate 0x0108 0x12345678 2) ∧
    decode ⟨0x11, 0, 0, 0, 0x0003000000001C05, 0x0050000000001000, 0x0100000000000000, 0⟩ = .ok (.cfgSet 0 cfg1) :=
  ⟨rfl, rfl⟩

/-- `TLBI_ALL` as it is sent. -/
def flush : Request := ⟨0x08, 0, 0, 0, 0, 0, 0, 0⟩
/-- `TRANSLATE d0, 0x12345678, W` as it is sent. -/
def translate0 : Request := ⟨0x201, 0x12345678, 0, 0, 0, 0, 0, 0⟩

theorem witness_StepExecutesTheDecodedCommand :
    (∃ s : State, s.inputs = .command 3 translate0 :: [.reset] ∧ portBusy s 3 = false ∧
      decode translate0 = .ok (.translate 0 0x12345678 2)) ∧
    (∃ s : State, s.inputs = .start 3 translate0 :: [] ∧ portBusy s 3 = false ∧
      decode translate0 = .ok (.translate 0 0x12345678 2)) :=
  ⟨⟨{ walker1 with inputs := [.command 3 translate0, .reset] }, rfl, by decide, rfl⟩,
   ⟨{ walker1 with inputs := [.start 3 translate0] }, rfl, by decide, rfl⟩⟩

/-- Both ways a request is illegal: it decodes to no command (B2), or to one that breaks rule R94 (B4). -/
theorem witness_IllegalRequestChangesNothing :
    (∃ s : State, s.inputs = .command 0 ⟨0x05, 0, 0, 0, 0, 0, 0, 0⟩ :: [] ∧ portBusy s 0 = false ∧
      ∀ i, decode ⟨0x05, 0, 0, 0, 0, 0, 0, 0⟩ = .ok i → i.wellFormed = false) ∧
    (∃ s : State, s.inputs = .start 0 ⟨0x01, 0x12345678, 0, 0, 0, 0, 0, 0⟩ :: [] ∧ portBusy s 0 = false ∧
      ∀ i, decode ⟨0x01, 0x12345678, 0, 0, 0, 0, 0, 0⟩ = .ok i → i.wellFormed = false) := by
  refine ⟨⟨{ walker1 with inputs := [.command 0 ⟨0x05, 0, 0, 0, 0, 0, 0, 0⟩] }, rfl, by decide, ?_⟩,
    ⟨{ walker1 with inputs := [.start 0 ⟨0x01, 0x12345678, 0, 0, 0, 0, 0, 0⟩] }, rfl, by decide, ?_⟩⟩
  · intro i h
    have h' : decode ⟨0x05, 0, 0, 0, 0, 0, 0, 0⟩ = .error (.reservedOpcode 0x05) := rfl
    rw [h'] at h
    cases h
  · intro i h
    have h' : decode ⟨0x01, 0x12345678, 0, 0, 0, 0, 0, 0⟩ = .ok (.translate 0 0x12345678 0) := rfl
    rw [h'] at h
    cases h
    decide

/-- A `TRANSLATE` of device 0 between its step A and its first fetch. -/
def walkingJob : Job := ⟨.translate, cfg1, 0x12345678, .write, dispatch cfg1 0x12345678⟩
/-- A `TRANSLATE` of device 0 whose walk has succeeded, before its step Z. -/
def endedJob : Job := ⟨.translate, cfg1, 0x12345678, .write, .done (.success e1.2)⟩
/-- `CFG1`, `MEM1`, with a job in flight at port 0 and events to come. -/
def busy (j : Job) (inputs : List Input) : State :=
  { walker1 with ports := [(0, { Port.reset with request := translate0, inflight := some j })], inputs := inputs }

theorem witness_EngineWaitsForEventsAndResponses :
    State.reset.inputs = [] ∧
    (busy walkingJob [.command 0 flush]).inputs = .command 0 flush :: [] ∧
    (portOf (busy walkingJob [.command 0 flush]) 0).inflight = some walkingJob ∧
    (busy endedJob [.start 0 flush]).inputs = .start 0 flush :: [] ∧
    (portOf (busy endedJob [.start 0 flush]) 0).inflight = some endedJob := ⟨rfl, rfl, rfl, rfl, rfl⟩

theorem witness_StepwiseExecutionIsTheWholeCommand : portBusy walker1 0 = false := by decide

theorem witness_RacingInsertMaySurviveOrNot : (1 : Nat) ≠ 0 ∧
    (portOf (busy endedJob []) 0).inflight = some ⟨.translate, cfg1, 0x12345678, .write, .done (.success e1.2)⟩ ∧
    portBusy (busy endedJob []) 1 = false := ⟨by decide, rfl, by decide⟩

theorem witness_ResetDropsCommandsInFlight :
    (busy walkingJob [.reset, .turn 0]).inputs = .reset :: [.turn 0] ∧
    (portOf (busy walkingJob [.reset, .turn 0]) 0).inflight ≠ none := ⟨rfl, by decide⟩

/-- A running engine: an entry cached, a record, a walk in flight, memory and past fetches. -/
def running (inputs : List Input) : State :=
  { busy walkingJob inputs with
    iotlb := [e1], reader := { mem := mem1 0x80000443, errs := [0x3000], issued := [0x2000, 0x1000] } }

theorem witness_EveryStepKeepsTheInvariant : Inv (running [.turn 0]) ∧ ∃ t, step (running [.turn 0]) = .next t := by
  refine ⟨⟨by decide, ⟨by decide +kernel, by decide +kernel, ?_⟩, ⟨by decide, by decide +kernel⟩, ⟨by decide, ?_⟩,
    ⟨by decide, ?_⟩, ⟨by decide +kernel, by decide, ?_⟩⟩, ⟨_, rfl⟩⟩
  · intro p hp
    obtain rfl : p = e1 := by simpa [running] using hp
    exact ⟨rfl, rfl, rfl, by decide +kernel, by decide +kernel, by decide +kernel⟩
  · intro b
    constructor
    · intro h
      obtain rfl : b = 0 := by simpa [running, busy, walker1, machine] using h
      exact ⟨_, List.mem_cons_self .., rfl⟩
    · rintro ⟨p, hp, rfl⟩
      obtain rfl := List.mem_singleton.1 hp
      decide
  · intro p hp
    obtain rfl := List.mem_singleton.1 hp
    refine ⟨fun h => (by cases h), fun j hj => ?_⟩
    obtain rfl : walkingJob = j := by simpa using hj
    refine ⟨?_, 0, 2, rfl, rfl⟩
    exact (show (rootWalk1 cfg1.tt0 .r0 .g4K).level ≤ 3 ∧ FetchAddress (pteAddr (rootWalk1 cfg1.tt0 .r0 .g4K) 0x12345678)
      from ⟨by decide, by decide +kernel, by decide +kernel⟩)
  · intro pa hpa
    have : pa = 0x2000 ∨ pa = 0x1000 := by simpa [running] using hpa
    rcases this with rfl | rfl <;> exact ⟨by decide, by decide⟩

theorem witness_EngineNeverWritesMemory :
    (∀ pa bytes, (running [.turn 0]).inputs.head? ≠ some (.write pa bytes)) ∧ ∃ t, step (running [.turn 0]) = .next t :=
  ⟨fun _ _ h => (by cases h), ⟨_, rfl⟩⟩

/-- A command executed at once, one by its first step, a fetch turn, and a turn and a request that a step takes. -/
theorem witness_CommandsLeaveOtherPortsAlone :
    ((∃ t, exec .tlbiAll { running [] with active := 1 } = .next t) ∧
      (∃ t, startCommand (.translate 0 0x12345678 2) { running [] with active := 1 } = .next t) ∧
      (0 : Nat) ≠ { running [] with active := 1 }.active) ∧
    (walkingJob.phase = .walking (rootWalk1 cfg1.tt0 .r0 .g4K) ∧ (1 : Nat) ≠ (running []).active) ∧
    ((running [.turn 0]).inputs = .turn 0 :: [] ∧ (∃ t, step (running [.turn 0]) = .next t) ∧ (1 : Nat) ≠ 0) ∧
    ((running [.command 1 flush]).inputs = .command 1 flush :: [] ∧ ∃ t, step (running [.command 1 flush]) = .next t) :=
  ⟨⟨⟨_, rfl⟩, ⟨_, rfl⟩, by decide⟩, ⟨rfl, by decide⟩, ⟨rfl, ⟨_, rfl⟩, by decide⟩, ⟨rfl, ⟨_, rfl⟩⟩⟩

/-! ### Witnesses: the Memory Reader -/

/-- The word at `0x1000`, and an address that fails. -/
theorem witness_ReadPteAnswersTheEightBytes :
    pteAnswer (running []).reader 0x1000 = some 0x2003 ∧ (0x3000 : Word).toNat ∈ (running []).reader.errs ∧ (7 : Nat) < 8 := by
  decide +kernel

/-- A write across the top of the address space, seen at both its bytes and beside them; a failure that is added, and the one
there is. -/
theorem witness_OutsideEventsChangeOnlyTheReader :
    ((running [.write 0xFFFFFFFFFFFFFFFF [1, 2]]).inputs = .write 0xFFFFFFFFFFFFFFFF [1, 2] :: [] ∧
      [(1 : Byte), 2].length ≤ 2 ^ 64 ∧ [(1 : Byte), 2][1]? = some 2 ∧
      ∀ i, i < [(1 : Byte), 2].length → (1 : Nat) ≠ ((0xFFFFFFFFFFFFFFFF : Word) + BitVec.ofNat 64 i).toNat) ∧
    ((running [.readerErr 0x1000 true]).inputs = .readerErr 0x1000 true :: [] ∧ 0x3000 ∈ (running []).reader.errs) := by
  refine ⟨⟨rfl, by decide, rfl, ?_⟩, rfl, by decide⟩
  decide

/-! ### Witnesses: decoder, geometry, selector -/

/-- The ranges of the arguments have both ends: for `ClassifyFollowsTheTypeField` (levels), `OutputAddressIsTheAddressField` and
`TableIndexIsAnInputField`. -/
theorem witness_ranges : (0 : Nat) ≤ 3 ∧ (3 : Nat) ≤ 3 ∧ (12 : Nat) ≤ 64 ∧ (55 : Nat) ≤ 64 ∧ (1 : Nat) ≤ 64 := by decide

/-- The ends of rule R26's range for 4K, `tsz` 51 (13 bits) and 16 (48 bits), and the values beyond them. -/
theorem witness_WalkableRegionsStartInsideTheTree :
    walkable1 cfg1.tt0 = some .g4K ∧ walkable1 { cfg1.tt0 with tsz := 51 } = some .g4K ∧
      walkable1 { cfg1.tt0 with tsz := 52 } = none ∧ walkable1 { cfg1.tt0 with tsz := 15 } = none := by decide

/-- The ends of rule R28's range for 4K and `sl0` 1, `tsz` 33 (31 bits) and 21 (43 bits), and the values beyond them. -/
theorem witness_WalkableStage2HasAtMostSixteenRoots :
    walkable2 { cfg2.s2 with tsz := 33 } = some .g4K ∧ walkable2 { cfg2.s2 with tsz := 21 } = some .g4K ∧
      walkable2 { cfg2.s2 with tsz := 34 } = none ∧ walkable2 { cfg2.s2 with tsz := 20 } = none := by decide

/-- The three clauses, by the first, second and third line of the table of rule R139, and by its last line but two. -/
theorem witness_SelectorFollowsThePriorityChain :
    ((selecting 0 16 16).tt0.tsz ≠ 0 ∧
      ∀ i, 64 - (selecting 0 16 16).tt0.tsz.toNat ≤ i → i ≤ 63 → (0x0000123456789ABC : Word).getLsbD i = false) ∧
    (¬(∀ i, 64 - (selecting 0 16 16).tt0.tsz.toNat ≤ i → i ≤ 63 → (0xFFFF800000000000 : Word).getLsbD i = false) ∧
      ∀ i, 64 - (selecting 0 16 16).tt1.tsz.toNat ≤ i → i ≤ 63 → (0xFFFF800000000000 : Word).getLsbD i = true) ∧
    (¬(∀ i, 64 - (selecting 0 16 16).tt0.tsz.toNat ≤ i → i ≤ 63 → (0x0001000000000000 : Word).getLsbD i = false) ∧
      ¬(∀ i, 64 - (selecting 0 16 16).tt1.tsz.toNat ≤ i → i ≤ 63 → (0x0001000000000000 : Word).getLsbD i = true)) ∧
    (selecting 0 0 16).tt0.tsz = 0 := by
  refine ⟨⟨by decide, ?_⟩, ⟨fun h => absurd (h 48 (by decide) (by decide)) (by decide), ?_⟩,
    ⟨fun h => absurd (h 48 (by decide) (by decide)) (by decide), fun h => absurd (h 63 (by decide) (by decide)) (by decide)⟩,
    rfl⟩
  · intro i h1 h2
    have h1 : 48 ≤ i := h1
    interval_cases i <;> rfl
  · intro i h1 h2
    have h1 : 48 ≤ i := h1
    interval_cases i <;> rfl

theorem witness_SelectorIgnoresAnIgnoredTopByte :
    (0xAB00123456789ABC : Word).extractLsb' 0 56 = (0xCD00123456789ABC : Word).extractLsb' 0 56 ∧
    tbiActive (selecting 1 16 16) 0xAB00123456789ABC = true := by decide

/-! ### Witnesses: the walks -/

/-- The walk of `CFG1` at its level 3 table. -/
def atLeaf1 : Walk := { rootWalk1 cfg1.tt0 .r0 .g4K with level := 3, base := 0x4000 }
/-- The walk of `CFG1` at its level 1 table. -/
def atTable1 : Walk := { rootWalk1 cfg1.tt0 .r0 .g4K with level := 1, base := 0x2000 }
/-- The walk of `CFG2` at its level 2 table. -/
def atLeaf2 : Walk := { rootWalk2 cfg2.s2 .g4K 0x80C0403ABC with level := 2, base := 0x20000 }
/-- A Memory Reader over some memory. -/
def reader (m : Memory) : Reader := { mem := m, errs := [], issued := [] }

/-- W4, W2 and W3: no answer, the word 0, a Reserved word. -/
theorem witness_FailedFetchIsNotAnEmptyEntry : atLeaf1.level ≤ 3 ∧
    pteAnswer { reader [] with errs := [0x4A28] } (pteAddr atLeaf1 0x12345678) = none ∧
    (pteAnswer (reader []) (pteAddr atLeaf1 0x12345678) = some 0 ∧ (0 : Word).getLsbD 0 = false) ∧
    (pteAnswer (reader (mem1 0x80000441)) (pteAddr atLeaf1 0x12345678) = some 0x80000441 ∧ atLeaf1.level = 3 ∧
      (0x80000441 : Word).extractLsb' 0 2 = 0b01#2) := by decide +kernel

/-- W6 (a Page at stage 1) and X11 (a Block at stage 2). -/
theorem witness_AccessFaultComesBeforePermission :
    (atLeaf1.level ≤ 3 ∧ pteAnswer (reader (mem1 0x800000C3)) (pteAddr atLeaf1 0x12345678) = some 0x800000C3 ∧
      (0x800000C3 : Word).extractLsb' 0 2 = (if atLeaf1.level = 3 then 0b11#2 else 0b01#2) ∧
      (0x800000C3 : Word).getLsbD 10 = false ∧ cfg1.affd = false) ∧
    (atLeaf2.level ≤ 3 ∧ pteAnswer (reader (mem2 0x40200001)) (pteAddr atLeaf2 0x80C0403ABC) = some 0x40200001 ∧
      (0x40200001 : Word).extractLsb' 0 2 = (if atLeaf2.level = 3 then 0b11#2 else 0b01#2) ∧
      (0x40200001 : Word).getLsbD 10 = false ∧ cfg2.s2.affd = false) := by decide +kernel

/-- A Table that forbids writes (T3's word), W8, X6 and X5 (`eff_ps` 30); then W6's and X11's words under a set `affd`. -/
theorem witness_PermissionAndSizeFaultsOfAFetchedWord :
    (atTable1.level < 3 ∧ atTable1.kind = .region .r0 ∧ (regionOf cfg1 .r0).had = false ∧
      pteAnswer (reader (poke [] 0x2000 0x4000000000003003)) (pteAddr atTable1 0x12345678) = some 0x4000000000003003 ∧
      (0x4000000000003003 : Word).extractLsb' 0 2 = 0b11#2 ∧ (0x4000000000003003 : Word).getLsbD 62 = true) ∧
    (pteAnswer (reader (mem1 0x800004C3)) (pteAddr atLeaf1 0x12345678) = some 0x800004C3 ∧
      (0x800004C3 : Word).extractLsb' 0 2 = (if atLeaf1.level = 3 then 0b11#2 else 0b01#2) ∧
      (0x800004C3 : Word).getLsbD 10 = true ∧ (0x800004C3 : Word).getLsbD 7 = true) ∧
    (atLeaf2.kind = .stage2 ∧ pteAnswer (reader (mem2 0x40200441)) (pteAddr atLeaf2 0x80C0403ABC) = some 0x40200441 ∧
      (0x40200441 : Word).extractLsb' 0 2 = (if atLeaf2.level = 3 then 0b11#2 else 0b01#2) ∧
      (0x40200441 : Word).getLsbD 10 = true ∧ (0x40200441 : Word).extractLsb' 6 2 &&& accessMask .write ≠ accessMask .write) ∧
    (pteAnswer (reader (mem2 0x402004C1)) (pteAddr atLeaf2 0x80C0403ABC) = some 0x402004C1 ∧
      (0x402004C1 : Word).extractLsb' 0 2 = (if atLeaf2.level = 3 then 0b11#2 else 0b01#2) ∧
      (0x402004C1 : Word).getLsbD 10 = true ∧
      (0x402004C1 : Word).extractLsb' 6 2 &&& accessMask .read = accessMask .read ∧
      ((0x402004C1 : Word) &&& mask 48 &&& ~~~ mask (levelShift atLeaf2.level atLeaf2.granule)).toNat ≥
        2 ^ { cfg2 with effPs := 30 }.effPs.toNat) ∧
    (pteAnswer (reader (mem1 0x800000C3)) (pteAddr atLeaf1 0x12345678) = some 0x800000C3 ∧
      (0x800000C3 : Word).getLsbD 10 = false ∧ (0x800000C3 : Word).getLsbD 7 = true ∧
      { cfg1 with affd := true }.affd = true) ∧
    (pteAnswer (reader (mem2 0x40200001)) (pteAddr atLeaf2 0x80C0403ABC) = some 0x40200001 ∧
      (0x40200001 : Word).getLsbD 10 = false ∧
      (0x40200001 : Word).extractLsb' 6 2 &&& accessMask .read ≠ accessMask .read ∧
      { cfg2 with s2 := { cfg2.s2 with affd := true } }.s2.affd = true) := by decide +kernel

/-- X3a (`2^40` exactly, `oas` 40) and X4 (`oas` 44, input size 40). -/
theorem witness_Stage2InputChecksComeBeforeAnyFetch : cfg2.stage = 2 ∧ walkable2 cfg2.s2 = some .g4K ∧
    (0x10000000000 : Word).toNat ≥ 2 ^ cfg2.oas.toNat ∧ { cfg2 with oas := 44 }.stage = 2 ∧
    (0x20000000000 : Word).toNat < 2 ^ { cfg2 with oas := 44 }.oas.toNat ∧
    (0x20000000000 : Word).toNat ≥ 2 ^ inputSize cfg2.s2.tsz := by decide

/-- W2, X3, X4 (`oas` 44) and X15. -/
theorem witness_FaultsCarryTheirStage :
    (cfg1.stage = 1 ∧ (runWalk cfg1 0x12345678 .write (reader [])).2 = .failure ⟨.translation, .s1, 0x12345678⟩) ∧
    (cfg2.stage = 2 ∧ (runWalk cfg2 0x20000000000 .read (reader [])).2 = .failure ⟨.addrSize, .s1, 0x20000000000⟩) ∧
    ((runWalk { cfg2 with oas := 44 } 0x20000000000 .read (reader [])).2 =
      .failure ⟨.translation, .s2, 0x20000000000⟩) ∧
    (runWalk cfg2 0x80C0403ABC .read (reader [])).2 = .failure ⟨.translation, .s2, 0x80C0403ABC⟩ := by decide +kernel

/-- W1. -/
theorem witness_SuccessfulWalkReturnsASoundEntry :
    (runWalk cfg1 0x12345678 .write walker1.reader).2 =
      .success ⟨0x80000000, 0x12345000, 0xFFF, 3, 3, .g4K⟩ := by decide +kernel

/-- W1: three Tables and a Page, for a write. -/
theorem witness_Stage1WalkAnswersTheMappingOfTheTables :
    (accessOfCode 2 = some .write ∧ validConfig walker1 0 = some cfg1 ∧ cfg1.aa64 = true ∧ cfg1.stage = 1 ∧
      select cfg1 0x12345678 = some .r0 ∧ (regionOf cfg1 .r0).disabled = false ∧
      walkable1 (regionOf cfg1 .r0) = some .g4K) ∧
    ∃ base, TablePath walker1.reader 0x12345678 48 .g4K true 0
        ((0x1000#48).setWidth 64 &&& ~~~ mask (48 - levelShift (0 : Nat) .g4K + 3)) false 3 base false ∧
      LeafAt walker1.reader 0x12345678 48 .g4K 3 base 0x80000443 ∧ (0x80000443 : Word).getLsbD 10 = true ∧
      (0x80000443 : Word).getLsbD 7 = false := by
  refine ⟨by decide +kernel, _,
    .table (pte := 0x2003) (by decide) (by decide +kernel) (by decide)
      (.table (pte := 0x3003) (by decide) (by decide +kernel) (by decide)
        (.table (pte := 0x4003) (by decide) (by decide +kernel) (by decide) (.stop _ _ _))),
    ⟨by decide, ?_, by decide⟩, by decide, by decide⟩
  decide +kernel

/-- X1: a Table and a Block below two concatenated roots. -/
theorem witness_Stage2WalkAnswersTheMappingOfTheTables :
    (accessOfCode 1 = some .read ∧ validConfig walker2 0 = some cfg2 ∧ cfg2.aa64 = true ∧ cfg2.stage = 2 ∧
      walkable2 cfg2.s2 = some .g4K ∧ (0x80C0403ABC : Word).toNat < 2 ^ cfg2.oas.toNat ∧
      (0x80C0403ABC : Word).toNat < 2 ^ inputSize cfg2.s2.tsz) ∧
    ∃ base, TablePath walker2.reader 0x80C0403ABC 40 .g4K false 1
        (((0x10000#48).setWidth 64 &&& ~~~ mask (40 - levelShift (1 : Nat) .g4K + 3)) +
          ((0x80C0403ABC : Word) >>> levelShift ((1 : Nat) - 1 : Int) .g4K) <<< shiftOf .g4K) false 2 base false ∧
      LeafAt walker2.reader 0x80C0403ABC 40 .g4K 2 base 0x402004C1 ∧ (0x402004C1 : Word).getLsbD 10 = true ∧
      (0x402004C1 : Word).extractLsb' 6 2 &&& accessMask .read = accessMask .read ∧
      ((0x402004C1 : Word) &&& mask 48 &&& ~~~ mask (levelShift (2 : Nat) .g4K)).toNat < 2 ^ cfg2.effPs.toNat := by
  refine ⟨by decide +kernel, _,
    .table (pte := 0x20003) (by decide) (by decide +kernel) (by decide) (.stop _ _ _),
    ⟨by decide, ?_, by decide⟩, by decide, by decide, by decide +kernel⟩
  decide +kernel

theorem witness_PtwAnswersTheWalkAndWritesNoState :
    (accessOfCode 2 = some .write ∧ validConfig walker1 0 = some cfg1 ∧ cfg1.aa64 = true ∧ cfg1.stage = 1) ∧
    (validConfig walker2 0 = some cfg2 ∧ cfg2.aa64 = true ∧ cfg2.stage = 2) ∧
    ∃ t, exec (.ptw 0 0x12345678 2) walker1 = .next t := ⟨by decide +kernel, by decide +kernel, ⟨_, rfl⟩⟩

/-! ### Witnesses: `TRANSLATE` -/

/-- S1, line 2, as a read of `E2`, and Program P4, line 10, as a write of it. -/
theorem witness_TranslateHitIsServedFromTheEntry :
    accessOfCode 1 = some .read ∧ accessOfCode 2 = some .write ∧ usableConfig cached 0 = some (cfg1, .s1) ∧
    (∀ ia : Word, ia = 0x40123456 → lookupGranule cfg1 .s1 ia = .ok .g4K) ∧
    probe cached.iotlb cfg1 .g4K 0x40123456 = some e2.2 ∧ e2.2.perm &&& accessMask .read = accessMask .read ∧
    e2.2.perm &&& accessMask .write ≠ accessMask .write := by
  refine ⟨by decide, by decide, by decide +kernel, ?_, by decide +kernel, by decide, by decide⟩
  rintro ia rfl
  rfl

/-- S1, line 1. -/
theorem witness_TranslateMissWalksAndInserts :
    accessOfCode 2 = some .write ∧ usableConfig walker1 0 = some (cfg1, .s1) ∧
    lookupGranule cfg1 .s1 0x12345678 = .ok .g4K ∧ probe walker1.iotlb cfg1 .g4K 0x12345678 = none ∧
    (runWalk cfg1 0x12345678 .write walker1.reader).2 = .success e1.2 :=
  ⟨by decide, by decide +kernel, rfl, by decide +kernel, by decide +kernel⟩

/-- W3 as a `TRANSLATE`. -/
theorem witness_TranslateFaultingWalkInsertsNothing :
    usableConfig (machine cfg1 (mem1 0x80000441)) 0 = some (cfg1, .s1) ∧ accessOfCode 2 = some .write ∧
    lookupGranule cfg1 .s1 0x12345678 = .ok .g4K ∧
    probe (machine cfg1 (mem1 0x80000441)).iotlb cfg1 .g4K 0x12345678 = none ∧
    (runWalk cfg1 0x12345678 .write (machine cfg1 (mem1 0x80000441)).reader).2 =
      .failure ⟨.translation, .s1, 0x12345678⟩ :=
  ⟨by decide +kernel, by decide, rfl, by decide +kernel, by decide +kernel⟩

/-- T5 (no region), and a disabled region 1 reached through step 5 of the selector. -/
theorem witness_TranslateOutsideTheRegionsCountsNothing :
    (validConfig (machine (selecting 0 16 16) []) 0 = some (selecting 0 16 16) ∧ (selecting 0 16 16).aa64 = true ∧
      (selecting 0 16 16).stage = 1 ∧ select (selecting 0 16 16) 0x0001000000000000 = none) ∧
    (validConfig walker1 0 = some cfg1 ∧ select cfg1 0x0001000000000000 = some .r1 ∧
      (regionOf cfg1 .r1).disabled = true) := by decide +kernel

/-- W3 as a `TRANSLATE`: the command answers the fault. -/
theorem witness_TranslateFaultsArePrecise : ∃ t,
    exec (.translate 0 0x12345678 2) (machine cfg1 (mem1 0x80000441)) = .next t ∧
    Answers (machine cfg1 (mem1 0x80000441)) t (.fault ⟨.translation, .s1, 0x12345678⟩) := by
  refine ⟨_, rfl, ?_⟩
  have hr : (runToEnd (translateStepA 0 0x12345678 .write (machine cfg1 (mem1 0x80000441)))) =
      respond (.fault ⟨.translation, .s1, 0x12345678⟩)
        { countLookup (machine cfg1 (mem1 0x80000441)) 0 false with
          reader := (runWalk cfg1 0x12345678 .write (machine cfg1 (mem1 0x80000441)).reader).1 } := by decide +kernel
  show Answers _ (runToEnd _) _
  rw [hr]
  exact answers_respond _ rfl rfl

/-- S1: both lines. -/
theorem witness_TranslateAgainIsServedFromTheIotlb : ∃ t, exec (.translate 0 0x12345678 2) walker1 = .next t ∧
    Answers walker1 t (.entry e1.2 false 0x80000678) := by
  refine ⟨_, rfl, ?_⟩
  have hr : (runToEnd (translateStepA 0 0x12345678 .write walker1)) = respond (.entry e1.2 false 0x80000678)
      { countLookup walker1 0 false with
        iotlb := [e1], reader := (runWalk cfg1 0x12345678 .write walker1.reader).1 } := by decide +kernel
  show Answers _ (runToEnd _) _
  rw [hr]
  exact answers_respond _ rfl rfl

/-! ### Witnesses: the IOTLB -/

/-- Program P3, lines 7 and 14, under a stage-1 and under a stage-2 config. -/
theorem witness_TlbLookupAnswersAndCounts :
    (validConfig cached 0 = some cfg1 ∧ cfg1.stage = 1 ∧ granuleOfTag (regionOf cfg1 .r0).tg = some .g4K ∧
      probe cached.iotlb cfg1 .g4K 0x40123456 = some e2.2 ∧ probe cached.iotlb cfg1 .g4K 0 = none) ∧
    (validConfig walker2 0 = some cfg2 ∧ cfg2.stage = 2 ∧ granuleOfTag cfg2.s2.tg = some .g4K ∧
      probe walker2.iotlb cfg2 .g4K 0 = none) := by decide +kernel

/-- A cache one below its cap, and one at it; listed in order, with a key that is present and one that is not. -/
theorem witness_InsertSupersedesOrClears : cached.iotlb.length < 4 ∧ (3 : Nat) ≤ cached.iotlb.length ∧
    cached.iotlb.Pairwise (fun a b => keyCode a.1 < keyCode b.1) ∧ assocGet (keyOfEntry cfg1 e2.2) cached.iotlb ≠ none ∧
    assocGet (keyOfEntry { cfg1 with asid := 9 } e2.2) cached.iotlb = none := by decide +kernel

/-- S8 with a cap of 2. -/
theorem witness_OneEntryIsLeftAfterCapPlusOneInserts : (1 : Nat) ≤ 2 ∧
    [(cfg1, e1.2), (cfg1, e2.2), ({ cfg1 with asid := 2 }, e3.2)].length = 2 + 1 ∧
    ([(cfg1, e1.2), (cfg1, e2.2), ({ cfg1 with asid := 2 }, e3.2)].map fun p => keyOfEntry p.1 p.2).Nodup := by
  decide +kernel

/-- Program P3, line 4. -/
theorem witness_TlbInsertStoresTheEntry : validConfig walker1 0 = some cfg1 ∧ granuleOfTag 1 = some .g4K ∧
    (0x40000000 : Word) &&& mask (levelShift (1#2).toNat .g4K) = 0 ∧
    (0x100000000 : Word) &&& mask (levelShift (1#2).toNat .g4K) = 0 := by decide +kernel

theorem witness_InvalidatedAsidForcesAMiss : (∃ t, exec (.tlbiAsid 1) cached = .next t) ∧
    probe cached.iotlb cfg1 .g4K 0x12345678 = some e1.2 := ⟨⟨_, rfl⟩, by decide +kernel⟩

/-- V7. -/
theorem witness_TlbiIovaFastPathRemovesOneKey : (3#2 : BitVec 2) ≠ 0 ∧
    assocGet ⟨1, 0, 0x12345000, 1, 3⟩ cached.iotlb = some e1.2 := by decide +kernel

/-- V9 (no level given), V10 (wildcard), V13 (unmasked address) and V16 (no page). -/
theorem witness_TlbiIovaScanRemovesExactlyTheOverlaps :
    ¬((0#2 : BitVec 2) ≠ 0 ∧ (1 : Word) = 1 ∧ false = false ∧ false = false ∧
      assocGet ⟨1, 0, 0x40123000, 1, 0⟩ cached.iotlb ≠ none) ∧
    (((true = true → (0#16) = 0) ∧ (false = true → (0#16) = 0)) ∧
      ¬((0#2 : BitVec 2) ≠ 0 ∧ (16 : Word) = 1 ∧ true = false ∧ false = false ∧
        assocGet ⟨0, 0, 0x12340000, 1, 0⟩ cached.iotlb ≠ none)) ∧
    ¬((3#2 : BitVec 2) ≠ 0 ∧ (1 : Word) = 1 ∧ false = false ∧ false = false ∧
      assocGet ⟨1, 0, 0x12345678, 1, 3⟩ cached.iotlb ≠ none) ∧
    ¬((0#2 : BitVec 2) ≠ 0 ∧ (0 : Word) = 1 ∧ false = false ∧ false = false ∧
      assocGet ⟨1, 0, 0x12345000, 1, 0⟩ cached.iotlb ≠ none) := by decide +kernel

theorem witness_IntersectionTestFindsEveryOverlap : (1 : Nat) ≤ 1 ∧ rangeIntersects 0x40123000 1 12 e2.2 = true := by
  decide +kernel

/-! ### Witnesses: the device table -/

/-- A record, and a device that has none: for `DevGetCreatesTheRecordOnce`, `CfgSetStoresTheConfig`, `CfgInvKeepsTheCounters`,
and `CntReadAnswersAndCntClrZeroesBothCounters`. -/
theorem witness_records : (∃ r, deviceOf cached 0 = some r ∧ r.cfgValid = true) ∧ deviceOf cached 0x0108 = none :=
  ⟨⟨_, rfl, rfl⟩, rfl⟩

/-- Device 0 under `CFG1` with one field changed. -/
def under (cfg : TranslationConfig) : State := machine cfg []

/-- T8; T7; T9, T10 and X12; an enabled region that is not walkable; family TLB, line 10. -/
theorem witness_ConfigErrorChangesNothing :
    (deviceOf cached 9 = none ∧ (Instr.cntRead 9).wellFormed = true) ∧
    (validConfig cached 9 = none ∧ (Instr.tlbInsert 9 0x1000 0x2000 1 3 3).wellFormed = true) ∧
    (validConfig (under { cfg1 with aa64 := false }) 0 = some { cfg1 with aa64 := false }) ∧
    (validConfig (under { cfg1 with stage := 3 }) 0 = some { cfg1 with stage := 3 }) ∧
    (validConfig (under { cfg2 with s2 := { cfg2.s2 with sl0 := 3 } }) 0 =
        some { cfg2 with s2 := { cfg2.s2 with sl0 := 3 } } ∧ walkable2 { cfg2.s2 with sl0 := 3 } = none) ∧
    (validConfig (under { cfg1 with tt0 := { cfg1.tt0 with tg := 0 } }) 0 =
        some { cfg1 with tt0 := { cfg1.tt0 with tg := 0 } } ∧
      select { cfg1 with tt0 := { cfg1.tt0 with tg := 0 } } 0 = some .r0 ∧
      walkable1 { cfg1.tt0 with tg := 0 } = none) ∧
    (validConfig cached 0 = some cfg1 ∧ cfg1.stage = 1 ∧ (regionOf cfg1 .r1).tg = 0) := by decide +kernel

/-- A command on device 5 beside device 0; a command on device 0 beside a device 5 that has a record or none. -/
theorem witness_CommandsLeaveOtherDevicesAlone :
    ((∃ t, exec (.cntClr 5) cached = .next t) ∧ namedDevice (.cntClr 5) ≠ some 0) ∧
    ((∃ t, exec (.tlbLookup 0 .r0 0x40123456) cached = .next t) ∧
      ∀ d, namedDevice (.tlbLookup 0 .r0 0x40123456) = some d →
        assocGet d (cached.ctx ++ [(5, newRecord 0)]) = assocGet d cached.ctx) := by
  refine ⟨⟨⟨_, rfl⟩, by decide⟩, ⟨_, rfl⟩, fun d hd => ?_⟩
  obtain rfl : (0 : DevId) = d := by simpa [namedDevice] using hd
  rfl

end Sys2Proof.Tests
end

section
/-! SUPPORT. Every step answers a next state and keeps the parameters: first what each shared operation does to `params`, then
one lemma per layer, from the commands to the events. And what reset leaves. -/

namespace Sys2Proof.Machine

/-! ### A step that goes on under the same parameters -/

/-- What is answered is a next state, with the parameters of `s` (rules R3, R260). -/
def GoesOn (s : State) (o : Host.Outcome State Fault Refusal) : Prop := ∃ t, o = .next t ∧ t.params = s.params

@[simp] theorem goesOn_next {s t : State} : GoesOn s (.next t) ↔ t.params = s.params := by simp [GoesOn]

theorem GoesOn.of_params_eq {s s' : State} {o : Host.Outcome State Fault Refusal} (h : GoesOn s' o)
    (hp : s'.params = s.params) : GoesOn s o := by
  obtain ⟨t, ht, htp⟩ := h
  exact ⟨t, ht, htp.trans hp⟩

/-! ### What writes no parameter -/

@[simp] theorem programDevice_params (s : State) (dev : DevId) (cfg : TranslationConfig) :
    (programDevice s dev cfg).params = s.params := by
  unfold programDevice; split <;> rfl

@[simp] theorem finishJob_params (cmd : WalkCommand) (cfg : TranslationConfig) (ia : Word) (r : WalkResult) (s : State) :
    (finishJob cmd cfg ia r s).params = s.params := by
  obtain ⟨m, reply, h, -⟩ := finishJob_cases cmd cfg ia r s
  rw [h, respond_params]

@[simp] theorem answerHit_params (e : Entry) (st : Stage) (ia : Word) (acc : AccessKind) (s : State) :
    (answerHit e st ia acc s).params = s.params := by
  unfold answerHit; split <;> rfl

@[simp] theorem translateStepA_params (dev : DevId) (ia : Word) (acc : AccessKind) (s : State) :
    (translateStepA dev ia acc s).1.params = s.params := by
  unfold translateStepA
  cases usableConfig s dev with
  | none => rfl
  | some p =>
    obtain ⟨cfg, st⟩ := p
    cases hg : lookupGranule cfg st ia with
    | error r => simp [hg]
    | ok g => cases hp : probe s.iotlb cfg g ia <;> simp [hg, hp]

@[simp] theorem ptwStepA_params (dev : DevId) (ia : Word) (acc : AccessKind) (s : State) :
    (ptwStepA dev ia acc s).1.params = s.params := by
  unfold ptwStepA; split <;> rfl

@[simp] theorem runToEnd_params (a : StepA) : (runToEnd a).params = a.1.params := by
  obtain ⟨s, _ | j⟩ := a
  · rfl
  · simp [runToEnd]

@[simp] theorem leaveInFlight_params (a : StepA) : (leaveInFlight a).params = a.1.params := by
  obtain ⟨s, _ | j⟩ := a <;> rfl

@[simp] theorem jobStep_params (j : Job) (s : State) : (jobStep j s).params = s.params := by
  unfold jobStep; split <;> simp

@[simp] theorem takeTurn_params (p : Nat) (s : State) : (takeTurn p s).params = s.params := by
  unfold takeTurn; split <;> simp

/-! ### Every command, executed at once and by its first step -/

theorem exec_goesOn (i : Instr) (s : State) : GoesOn s (exec i s) := by
  cases i with
  | translate dev addr acc => rw [exec_translate, execTranslate]; split <;> simp
  | ptw dev addr acc => rw [exec_ptw, execPtw]; split <;> simp
  | tlbLookup dev rgn addr =>
    rw [exec_tlbLookup, execTlbLookup]
    split
    · simp
    · split
      · simp
      · split <;> simp
  | tlbInsert dev addr data tg lvl perm =>
    rw [exec_tlbInsert, execTlbInsert]
    split
    · simp
    · split <;> simp
  | tlbiAll => simp [exec_tlbiAll, execTlbiAll]
  | tlbiAsid asid => simp [exec_tlbiAsid, execTlbiAsid]
  | tlbiVmid vmid => simp [exec_tlbiVmid, execTlbiVmid]
  | tlbiIova aw vw asid vmid tg lvl addr data => rw [exec_tlbiIova, execTlbiIova]; split <;> simp
  | devGet dev => rw [exec_devGet, execDevGet]; split <;> simp
  | cfgSet dev cfg => simp [exec_cfgSet, execCfgSet]
  | cfgInv dev => rw [exec_cfgInv, execCfgInv]; split <;> simp
  | cntRead dev => rw [exec_cntRead, execCntRead]; split <;> simp
  | cntClr dev => rw [exec_cntClr, execCntClr]; split <;> simp

/-- Only `TRANSLATE` and `PTW` have a first step that is not the whole command (rule R62). -/
theorem startCommand_goesOn (i : Instr) (s : State) : GoesOn s (startCommand i s) := by
  cases i with
  | translate dev addr acc =>
    change GoesOn s (startTranslate dev addr acc s)
    unfold startTranslate; split <;> simp
  | ptw dev addr acc =>
    change GoesOn s (startPtw dev addr acc s)
    unfold startPtw; split <;> simp
  | _ => simp only [startCommand, exec_goesOn]

/-! ### Every event -/

theorem takeRequest_goesOn (whole : Bool) (p : Nat) (req : Request) (s : State) :
    GoesOn s (takeRequest whole p req s) := by
  unfold takeRequest
  split
  · simp
  · cases whole with
    | true => exact (exec_goesOn _ _).of_params_eq (acceptRequest_params s p req)
    | false => exact (startCommand_goesOn _ _).of_params_eq (acceptRequest_params s p req)

theorem takeInput_goesOn (e : Input) (s : State) : GoesOn s (takeInput e s) := by
  cases e with
  | command p req => exact takeRequest_goesOn true p req s
  | start p req => exact takeRequest_goesOn false p req s
  | turn p => exact goesOn_next.2 (takeTurn_params p s)
  | write pa bytes => exact goesOn_next.2 rfl
  | readerErr pa fails => exact goesOn_next.2 rfl
  | reset => exact goesOn_next.2 (engineReset_params s)

theorem step_goesOn (s : State) : GoesOn s (step s) := by
  unfold step takeNext
  split
  · exact goesOn_next.2 rfl
  · split
    · exact goesOn_next.2 (takeTurn_params _ s)
    · exact (takeInput_goesOn _ _).of_params_eq rfl

/-- Settles O9: a walk through the layers of `step`, each of which answers a next state with the parameters it was given. -/
theorem everyStepGoesOnAndKeepsTheParameters : Obligations.EveryStepGoesOnAndKeepsTheParameters :=
  step_goesOn

/-! ### Reset -/

/-- Settles O12: a map with no pair holds nothing for any device, and a port not listed is as before its first command. -/
theorem resetLeavesTheEngineEmpty : Obligations.ResetLeavesTheEngineEmpty := by
  have noDevice (d : DevId) : deviceOf State.reset d = none := rfl
  have portReset (p : Nat) : portOf State.reset p = Port.reset := rfl
  exact ⟨rfl, noDevice, rfl, fun p => congrArg Port.inflight (portReset p), rfl, rfl⟩

/-- With IOTLB, device table, bus-number array and ports empty, as after any reset, only the parameters and the Memory Reader
have something to satisfy. -/
theorem inv_of_engineEmpty {s : State} (hparams : s.params.wf) (hiotlb : s.iotlb = []) (hctx : s.ctx = [])
    (hbuses : s.buses = []) (hports : s.ports = []) (hreader : ReaderWf s) : Inv s :=
  have iotlbWf : IotlbWf s := by simp [IotlbWf, hiotlb]
  have ctxWf : CtxWf s := by simp [CtxWf, hctx]
  have busesWf : BusesWf s := by simp [BusesWf, hbuses, hctx]
  have portsWf : PortsWf s := by simp [PortsWf, hports]
  ⟨hparams, iotlbWf, ctxWf, busesWf, portsWf, hreader⟩

theorem default_params_wf : Params.default.wf := by decide

theorem readerWf_reset : ReaderWf State.reset := by simp [ReaderWf, Memory.wf, State.reset]

/-- Settles O14: the reset state is an empty engine with the default parameters and a Memory Reader that lists nothing. -/
theorem resetSatisfiesTheInvariant : Obligations.ResetSatisfiesTheInvariant :=
  inv_of_engineEmpty default_params_wf rfl rfl rfl rfl readerWf_reset

end Sys2Proof.Machine
end

section
/-! SUPPORT. The codes of rules R23, R38, R39, R88, R89 and R215, and which regions and descriptors can be walked, with where
their walks start (rules R26, R28, R141, R161). -/

namespace Sys2Proof.Machine

/-! ### Codes -/

/-- A permission's bit 0 is for reads, its bit 1 for writes (rule R39). -/
theorem permits_eq_getLsbD (p : BitVec 2) : permits p .read = p.getLsbD 0 ∧ permits p .write = p.getLsbD 1 := by
  revert p; decide

/-- Settles O22: the code tables by evaluation, the permission bits for every permission. -/
theorem codesOfGranulesAndAccesses : Obligations.CodesOfGranulesAndAccesses :=
  ⟨rfl, rfl, rfl, rfl, rfl, rfl, permits_eq_getLsbD, rfl⟩

/-- A granule tag is `(g - 10) / 2` of the granule it names (rule R88). -/
theorem granuleOfTag_eq_some_iff {t : BitVec 2} {g : Granule} :
    granuleOfTag t = some g ↔ shiftOf g = 10 + 2 * t.toNat := by
  revert t; cases g <;> decide

/-! ### Stage-1 regions (rules R26, R141) -/

theorem walkable1_eq_some_iff {tt : TableInfo} {g : Granule} : walkable1 tt = some g ↔
    granuleOfTag tt.tg = some g ∧ shiftOf g + 1 ≤ inputSize tt.tsz ∧ inputSize tt.tsz ≤ 48 := by
  refine ⟨walkable1_eq_some, fun ⟨hg, hsize⟩ => ?_⟩
  unfold walkable1
  simp only [hg]
  exact if_pos hsize

/-- `g = stride(g) + 3` (rule R111). -/
theorem shiftOf_eq (g : Granule) : shiftOf g = stride g + 3 := by cases g <;> rfl

theorem stride_bounds (g : Granule) : 9 ≤ stride g ∧ stride g ≤ 13 := by cases g <;> decide

/-- The floor form of rule R141 is its ceil form: both count the levels of the walk. -/
theorem ceil_levels_eq {n : Nat} {g : Granule} (h : shiftOf g + 1 ≤ n) :
    (n - shiftOf g + (stride g - 1)) / stride g = (n - 4) / stride g := by
  have hg := shiftOf_eq g
  have hs := stride_bounds g
  congr 1
  omega

/-- A walkable region resolves its input in one to four levels. -/
theorem levels_bounds {n : Nat} {g : Granule} (hlow : shiftOf g + 1 ≤ n) (hhigh : n ≤ 48) :
    1 ≤ (n - 4) / stride g ∧ (n - 4) / stride g ≤ 4 := by
  have hg := shiftOf_eq g
  have hs := stride_bounds g
  constructor
  · exact (Nat.le_div_iff_mul_le (by omega)).2 (by omega)
  · exact Nat.le_of_lt_succ ((Nat.div_lt_iff_lt_mul (by omega)).2 (by omega))

/-- The table at the start level has at least one input bit to resolve (rules R26, R141). -/
theorem levelShift_startLevel1_lt {n : Nat} {g : Granule} (hlow : shiftOf g + 1 ≤ n) (hhigh : n ≤ 48) :
    levelShift (startLevel1 n g) g + 1 ≤ n := by
  obtain ⟨hone, hfour⟩ := levels_bounds hlow hhigh
  have hg := shiftOf_eq g
  have hmul := Nat.div_mul_le_self (n - 4) (stride g)
  unfold startLevel1
  rw [levelShift_nat (by omega)]
  generalize (n - 4) / stride g = q at *
  obtain ⟨k, rfl⟩ : ∃ k, q = k + 1 := ⟨q - 1, by omega⟩
  rw [show 3 - (4 - (k + 1)) = k by omega]
  rw [Nat.add_mul] at hmul
  omega

/-- Settles O25: rule R26 spelled out, and the start level counted from the number of levels. -/
theorem walkableRegionsStartInsideTheTree : Obligations.WalkableRegionsStartInsideTheTree := by
  refine ⟨fun tt g => ?_, fun tt g h => ?_⟩
  · rw [walkable1_eq_some_iff, granuleOfTag_eq_some_iff]; rfl
  · obtain ⟨-, hlow, hhigh⟩ := walkable1_eq_some h
    obtain ⟨hstart, htop⟩ := startLevel1_le h
    have hlevels := levels_bounds hlow hhigh
    refine ⟨hstart, ?_, levelShift_startLevel1_lt hlow hhigh, htop⟩
    rw [ceil_levels_eq hlow, startLevel1]
    omega

/-! ### Stage-2 descriptors (rules R28, R161) -/

theorem walkable2_eq_some_iff {s2 : Stage2Info} {g : Granule} : walkable2 s2 = some g ↔
    granuleOfTag s2.tg = some g ∧ 0 ≤ startLevel2 s2.sl0 g ∧ startLevel2 s2.sl0 g ≤ 3 ∧
      levelShift (startLevel2 s2.sl0 g) g + 1 ≤ inputSize s2.tsz ∧
      inputSize s2.tsz ≤ min 48 (levelShift (startLevel2 s2.sl0 g - 1) g + 4) := by
  refine ⟨walkable2_eq_some, fun ⟨hg, hrest⟩ => ?_⟩
  unfold walkable2
  simp only [hg]
  exact if_pos hrest

theorem startLevel2_eq (sl0 : BitVec 2) (g : Granule) :
    startLevel2 sl0 g = (if g = .g4K then 2 else 3) - (sl0.toNat : Int) := by
  cases g <;> rfl

/-- One level up, an index more (rule R110). -/
theorem levelShift_pred {level : Int} (h : level ≤ 3) (g : Granule) :
    levelShift (level - 1) g = levelShift level g + stride g := by
  cases g <;> simp only [levelShift, shiftOf, stride] <;> omega

/-- Four bits above the span of one root table are sixteen root tables (rule R163). -/
theorem two_pow_le_sixteen_tables {bits n : Nat} (h : bits ≤ n + 4) : 2 ^ bits ≤ 16 * 2 ^ n :=
  calc 2 ^ bits ≤ 2 ^ (n + 4) := Nat.pow_le_pow_right (by decide) h
    _ = 16 * 2 ^ n := by rw [Nat.pow_add, Nat.mul_comm]

/-- Settles O26: rule R28 spelled out; the four bits it allows above one table are the sixteen roots. -/
theorem walkableStage2HasAtMostSixteenRoots : Obligations.WalkableStage2HasAtMostSixteenRoots := by
  refine ⟨fun s2 g => ?_, fun s2 g h => ?_⟩
  · intro start
    rw [walkable2_eq_some_iff, granuleOfTag_eq_some_iff, startLevel2_eq, le_min_iff]
    rfl
  · obtain ⟨-, hzero, hthree, hlow, hhigh⟩ := walkable2_eq_some h
    rw [levelShift_pred hthree, le_min_iff] at hhigh
    exact ⟨hzero, hthree, hhigh.1, hlow, two_pow_le_sixteen_tables (by omega)⟩

end Sys2Proof.Machine
end

section
/-! SUPPORT. What one event executes (rules R60, R62), and what a command, whole or step by step, does to the ports (rules R20,
R47, R222). -/

namespace Sys2Proof.Machine

/-! ### The events of a step (rules R44, R60) -/

theorem step_nil {s : State} (h : s.inputs = []) : step s = .next s := by
  unfold step takeNext
  rw [h]

/-- A port that has been answered does not hold an event back (rule R60). -/
theorem step_cons_of_ready {s : State} {e : Input} {rest : List Input} (h : s.inputs = e :: rest)
    (hready : waitingFor e s = none) : step s = takeInput e { s with inputs := rest } := by
  unfold step takeNext
  rw [h]
  simp only [hready]

/-- While its port has not been answered, an event gives that port a turn (rule R60). -/
theorem step_cons_of_waiting {s : State} {e : Input} {rest : List Input} {p : Nat} (h : s.inputs = e :: rest)
    (hwait : waitingFor e s = some p) : step s = .next (takeTurn p s) := by
  unfold step takeNext
  rw [h]
  simp only [hwait]

@[simp] theorem waitingFor_command (s : State) (p : Nat) (req : Request) :
    waitingFor (.command p req) s = if portBusy s p then some p else none := rfl
@[simp] theorem waitingFor_start (s : State) (p : Nat) (req : Request) :
    waitingFor (.start p req) s = if portBusy s p then some p else none := rfl
@[simp] theorem waitingFor_turn (s : State) (p : Nat) : waitingFor (.turn p) s = none := rfl

theorem takeRequest_of_decode {req : Request} {i : Instr} (h : decode req = .ok i) (whole : Bool) (p : Nat) (s : State) :
    takeRequest whole p req s =
      if whole then exec i (acceptRequest s p req) else startCommand i (acceptRequest s p req) := by
  unfold takeRequest
  rw [h]

theorem takeRequest_of_error {req : Request} {e : DecodeError} (h : decode req = .error e) (whole : Bool) (p : Nat)
    (s : State) : takeRequest whole p req s = .next (badCommand (acceptRequest s p req)) := by
  unfold takeRequest
  rw [h]

theorem takeTurn_of_idle {s : State} {p : Nat} (h : (portOf s p).inflight = none) : takeTurn p s = s := by
  unfold takeTurn
  rw [h]

theorem takeTurn_of_inflight {s : State} {p : Nat} {j : Job} (h : (portOf s p).inflight = some j) :
    takeTurn p s = jobStep j { s with active := p } := by
  unfold takeTurn
  rw [h]

/-- Settles O6: the arrival of a request is taken when its port has been answered, and is then executed as decoded. -/
theorem stepExecutesTheDecodedCommand : Obligations.StepExecutesTheDecodedCommand := by
  intro s p req rest i hready hdecode
  constructor
  · intro h
    exact (step_cons_of_ready h (by simp [hready])).trans (takeRequest_of_decode hdecode true p _)
  · intro h
    exact (step_cons_of_ready h (by simp [hready])).trans (takeRequest_of_decode hdecode false p _)

/-- Settles O8: with no event the state stays, and a request of a busy port is held back for a turn of the port. -/
theorem engineWaitsForEventsAndResponses : Obligations.EngineWaitsForEventsAndResponses := by
  refine ⟨fun s => step_nil, fun s p req rest j h hj => ?_⟩
  have hbusy : portBusy s p = true := by simp [portBusy, hj]
  have hturn := takeTurn_of_inflight hj
  rcases h with h | h
  · rw [step_cons_of_waiting h (p := p) (by simp [hbusy]), hturn]
  · rw [step_cons_of_waiting h (p := p) (by simp [hbusy]), hturn]

/-! ### The step A of `TRANSLATE` and of `PTW`, said once -/

/-- A region that ends `TRANSLATE` before its lookup gives no entry (rule R185). -/
theorem lookupGranule_error_ne_success {cfg : TranslationConfig} {st : Stage} {ia : Word} {r : WalkResult}
    (h : lookupGranule cfg st ia = .error r) (e : Entry) : r ≠ .success e := by
  rintro rfl
  cases st with
  | s1 =>
    rcases stage1Region_cases cfg ia with h1 | h1 | ⟨_, _, h1, -⟩ <;> simp [lookupGranule, h1] at h
  | s2 =>
    cases hw : walkable2 cfg.s2 <;> simp [lookupGranule, hw] at h

/-- A command that ends without an entry only answers. -/
theorem finishJob_of_ne_success (cmd : WalkCommand) (cfg : TranslationConfig) (ia : Word) {r : WalkResult} (s : State)
    (h : ∀ e, r ≠ .success e) : ∃ reply, finishJob cmd cfg ia r s = respond reply s := by
  cases r with
  | success e => exact absurd rfl (h e)
  | failure f => exact ⟨_, rfl⟩
  | configError => exact ⟨_, rfl⟩

theorem answerHit_responds (e : Entry) (st : Stage) (ia : Word) (acc : AccessKind) (s : State) :
    ∃ reply, answerHit e st ia acc s = respond reply s := by
  unfold answerHit
  split
  · exact ⟨_, rfl⟩
  · exact ⟨_, rfl⟩

/-- Everything step A of `TRANSLATE` can do: answer before the lookup; count a hit and answer; or count a miss and leave the
walk ready to run (rules R185 to R187). -/
theorem translateStepA_cases (dev : DevId) (ia : Word) (acc : AccessKind) (s : State) :
    (∃ reply, translateStepA dev ia acc s = (respond reply s, none)) ∨
    (∃ reply, translateStepA dev ia acc s = (respond reply (countLookup s dev true), none)) ∨
    ∃ cfg, translateStepA dev ia acc s = (countLookup s dev false, some ⟨.translate, cfg, ia, acc, dispatch cfg ia⟩) := by
  unfold translateStepA
  cases usableConfig s dev with
  | none => exact .inl ⟨_, rfl⟩
  | some p =>
    obtain ⟨cfg, st⟩ := p
    cases hg : lookupGranule cfg st ia with
    | error r =>
      obtain ⟨reply, hreply⟩ := finishJob_of_ne_success .translate cfg ia s (lookupGranule_error_ne_success hg)
      exact .inl ⟨reply, by simp only [hg, hreply]⟩
    | ok g =>
      cases hp : probe s.iotlb cfg g ia with
      | some e =>
        obtain ⟨reply, hreply⟩ := answerHit_responds e st ia acc (countLookup s dev true)
        exact .inr (.inl ⟨reply, by simp only [hg, hp, hreply]⟩)
      | none => exact .inr (.inr ⟨cfg, by simp only [hg, hp]⟩)

/-- Everything step A of `PTW` can do (rule R180). -/
theorem ptwStepA_cases (dev : DevId) (ia : Word) (acc : AccessKind) (s : State) :
    ptwStepA dev ia acc s = (respond .configError s, none) ∨
    ∃ cfg, ptwStepA dev ia acc s = (s, some ⟨.ptw, cfg, ia, acc, dispatch cfg ia⟩) := by
  unfold ptwStepA
  cases usableConfig s dev with
  | none => exact .inl rfl
  | some p => exact .inr ⟨p.1, rfl⟩

/-! ### What an executed command does to the ports (rules R20, R47) -/

/-- From `s` to `t` the command of the active port is answered, or stays in flight as a job of which `Q` holds; the ports are
otherwise as they were. -/
def EndsOrWaits (Q : Job → Prop) (s t : State) : Prop :=
  ∃ s' : State, s'.ports = s.ports ∧ s'.active = s.active ∧
    ((∃ reply, t = respond reply s') ∨ ∃ j, Q j ∧ t = keepInFlight s' j)

section
variable {Q : Job → Prop} {s s' t : State}

theorem endsOrWaits_respond (reply : Reply) (hports : s'.ports = s.ports) (hactive : s'.active = s.active) :
    EndsOrWaits Q s (respond reply s') := ⟨s', hports, hactive, .inl ⟨reply, rfl⟩⟩

theorem endsOrWaits_keepInFlight {j : Job} (hj : Q j) (hports : s'.ports = s.ports) (hactive : s'.active = s.active) :
    EndsOrWaits Q s (keepInFlight s' j) := ⟨s', hports, hactive, .inr ⟨j, hj, rfl⟩⟩

theorem EndsOrWaits.other_port (h : EndsOrWaits Q s t) {p : Nat} (hp : p ≠ s.active) : portOf t p = portOf s p := by
  obtain ⟨s', hports, hactive, ⟨reply, rfl⟩ | ⟨j, -, rfl⟩⟩ := h
  · rw [portOf_respond, if_neg (hactive ▸ hp), portOf_congr hports]
  · rw [portOf_keepInFlight, if_neg (hactive ▸ hp), portOf_congr hports]

theorem EndsOrWaits.active_port (h : EndsOrWaits Q s t) :
    (∃ words, portOf t s.active = ⟨noRequest, none, words⟩) ∨
      ∃ j, Q j ∧ portOf t s.active = { portOf s s.active with inflight := some j } := by
  obtain ⟨s', hports, hactive, ⟨reply, rfl⟩ | ⟨j, hj, rfl⟩⟩ := h
  · exact .inl ⟨replyWords reply, by rw [portOf_respond, if_pos hactive.symm]⟩
  · exact .inr ⟨j, hj, by rw [portOf_keepInFlight, if_pos hactive.symm, portOf_congr hports]⟩

/-- The request words last as long as their command (rule R20). -/
theorem EndsOrWaits.request (h : EndsOrWaits Q s t) : (portOf t s.active).request =
    if (portOf t s.active).inflight = none then noRequest else (portOf s s.active).request := by
  rcases h.active_port with ⟨words, hp⟩ | ⟨j, -, hp⟩
  · rw [hp]; rfl
  · rw [hp]; rfl

end

theorem exec_endsOrWaits {Q : Job → Prop} {i : Instr} {s t : State} (h : exec i s = .next t) : EndsOrWaits Q s t := by
  obtain ⟨reply, s', rfl, hports, hactive⟩ := exec_responds h
  exact endsOrWaits_respond reply hports hactive

theorem exec_inflight {i : Instr} {s t : State} (h : exec i s = .next t) : (portOf t s.active).inflight = none := by
  obtain ⟨reply, s', rfl, -, hactive⟩ := exec_responds h
  rw [portOf_respond, if_pos hactive.symm]

/-- The job a command leaves in flight after its first step: its walk is at its beginning, and its operands are those of any
request that decodes to the command (rules R20, R62). -/
def BegunBy (i : Instr) (j : Job) : Prop :=
  j.phase = dispatch j.cfg j.ia ∧ ∀ req, decode req = .ok i → LatchedIn req j

theorem begunBy_translate (dev : DevId) (cfg : TranslationConfig) (ia : Word) {code : BitVec 2} {acc : AccessKind}
    (hacc : accessOfCode code = some acc) :
    BegunBy (.translate dev ia code) ⟨.translate, cfg, ia, acc, dispatch cfg ia⟩ :=
  ⟨rfl, fun _ hdecode => ⟨dev, code, hacc, hdecode⟩⟩

theorem begunBy_ptw (dev : DevId) (cfg : TranslationConfig) (ia : Word) {code : BitVec 2} {acc : AccessKind}
    (hacc : accessOfCode code = some acc) : BegunBy (.ptw dev ia code) ⟨.ptw, cfg, ia, acc, dispatch cfg ia⟩ :=
  ⟨rfl, fun _ hdecode => ⟨dev, code, hacc, hdecode⟩⟩

/-- A first step is the whole command, but for a `TRANSLATE` or a `PTW` of a legal access, which takes its step A only (rule
R62). -/
theorem startCommand_cases {i : Instr} {s t : State} (h : startCommand i s = .next t) :
    exec i s = .next t ∨
    (∃ dev ia code acc, i = .translate dev ia code ∧ accessOfCode code = some acc ∧
      t = leaveInFlight (translateStepA dev ia acc s)) ∨
    ∃ dev ia code acc, i = .ptw dev ia code ∧ accessOfCode code = some acc ∧ t = leaveInFlight (ptwStepA dev ia acc s) := by
  cases i with
  | translate dev ia code =>
    change startTranslate dev ia code s = .next t at h
    unfold startTranslate at h
    cases hacc : accessOfCode code with
    | none => exact .inl (by rw [exec_translate, execTranslate, hacc]; rwa [hacc] at h)
    | some acc =>
      rw [hacc] at h
      cases h
      exact .inr (.inl ⟨dev, ia, code, acc, rfl, hacc, rfl⟩)
  | ptw dev ia code =>
    change startPtw dev ia code s = .next t at h
    unfold startPtw at h
    cases hacc : accessOfCode code with
    | none => exact .inl (by rw [exec_ptw, execPtw, hacc]; rwa [hacc] at h)
    | some acc =>
      rw [hacc] at h
      cases h
      exact .inr (.inr ⟨dev, ia, code, acc, rfl, hacc, rfl⟩)
  | _ => exact .inl h

theorem startCommand_endsOrWaits {i : Instr} {s t : State} (h : startCommand i s = .next t) :
    EndsOrWaits (BegunBy i) s t := by
  rcases startCommand_cases h with h | ⟨dev, ia, code, acc, rfl, hacc, rfl⟩ | ⟨dev, ia, code, acc, rfl, hacc, rfl⟩
  · exact exec_endsOrWaits h
  · rcases translateStepA_cases dev ia acc s with ⟨reply, ha⟩ | ⟨reply, ha⟩ | ⟨cfg, ha⟩
    · rw [ha]; exact endsOrWaits_respond reply rfl rfl
    · rw [ha]; exact endsOrWaits_respond reply (countLookup_ports ..) (countLookup_active ..)
    · rw [ha]
      exact endsOrWaits_keepInFlight (begunBy_translate dev cfg ia hacc) (countLookup_ports ..) (countLookup_active ..)
  · rcases ptwStepA_cases dev ia acc s with ha | ⟨cfg, ha⟩
    · rw [ha]; exact endsOrWaits_respond _ rfl rfl
    · rw [ha]; exact endsOrWaits_keepInFlight (begunBy_ptw dev cfg ia hacc) rfl rfl

/-! ### A later step of a command in flight (rules R47, R62) -/

theorem jobStep_walking {j : Job} {w : Walk} (h : j.phase = .walking w) (s : State) :
    jobStep j s = keepInFlight { s with reader := (walkFetch s.reader j.cfg j.ia j.acc w).1 }
      { j with phase := (walkFetch s.reader j.cfg j.ia j.acc w).2 } := by
  unfold jobStep
  rw [h]

theorem jobStep_done {j : Job} {r : WalkResult} (h : j.phase = .done r) (s : State) :
    jobStep j s = finishJob j.cmd j.cfg j.ia r s := by
  unfold jobStep
  rw [h]

/-- What a fetch makes of the job: only its walk moves on. -/
def FetchedFrom (j : Job) (rd : Reader) (j' : Job) : Prop :=
  ∃ w, j.phase = .walking w ∧ j' = { j with phase := (walkFetch rd j.cfg j.ia j.acc w).2 }

theorem jobStep_endsOrWaits (j : Job) (s : State) : EndsOrWaits (FetchedFrom j s.reader) s (jobStep j s) := by
  cases hphase : j.phase with
  | walking w =>
    rw [jobStep_walking hphase]
    exact endsOrWaits_keepInFlight ⟨w, hphase, rfl⟩ rfl rfl
  | done r =>
    rw [jobStep_done hphase]
    obtain ⟨m, reply, hfinish, -⟩ := finishJob_cases j.cmd j.cfg j.ia r s
    rw [hfinish]
    exact endsOrWaits_respond reply rfl rfl

theorem sameTable_of_eq {s t : State} (hctx : t.ctx = s.ctx) (hbuses : t.buses = s.buses) (hdraws : t.draws = s.draws) :
    SameTable s t := ⟨deviceOf_congr hctx, hbuses, hdraws⟩

theorem jobStep_sameTable (j : Job) (s : State) : SameTable s (jobStep j s) := by
  cases hphase : j.phase with
  | walking w => rw [jobStep_walking hphase]; exact sameTable_of_eq rfl rfl rfl
  | done r =>
    rw [jobStep_done hphase]
    obtain ⟨m, reply, hfinish, -⟩ := finishJob_cases j.cmd j.cfg j.ia r s
    rw [hfinish]
    exact sameTable_of_eq rfl rfl rfl

/-- The last step of a command reads no device record (rule R47). -/
theorem finishJob_ctx (cmd : WalkCommand) (cfg : TranslationConfig) (ia : Word) (r : WalkResult) (s : State)
    (ctx : List (DevId × DevRecord)) :
    finishJob cmd cfg ia r { s with ctx := ctx } = { finishJob cmd cfg ia r s with ctx := ctx } := by
  cases r with
  | success e =>
    cases cmd with
    | translate => rfl
    | ptw => rfl
  | failure f => rfl
  | configError => rfl

theorem jobStep_ctx (j : Job) (s : State) (ctx : List (DevId × DevRecord)) :
    jobStep j { s with ctx := ctx } = { jobStep j s with ctx := ctx } := by
  cases hphase : j.phase with
  | walking w => rw [jobStep_walking hphase, jobStep_walking hphase]; rfl
  | done r => rw [jobStep_done hphase, jobStep_done hphase, finishJob_ctx]

/-- A fetch neither reads nor writes the IOTLB (rules R62, R187). -/
theorem jobStep_walking_iotlb {j : Job} {w : Walk} (h : j.phase = .walking w) (s : State) :
    (jobStep j s).iotlb = s.iotlb ∧ ∀ m, jobStep j { s with iotlb := m } = { jobStep j s with iotlb := m } := by
  refine ⟨by rw [jobStep_walking h]; rfl, fun m => ?_⟩
  rw [jobStep_walking h, jobStep_walking h]
  rfl

/-! ### An event of one port leaves the others alone -/

theorem takeTurn_other_port (s : State) {p q : Nat} (hq : q ≠ p) : portOf (takeTurn p s) q = portOf s q := by
  cases hj : (portOf s p).inflight with
  | none => rw [takeTurn_of_idle hj]
  | some j => rw [takeTurn_of_inflight hj]; exact (jobStep_endsOrWaits j _).other_port hq

/-- A request is answered or left in flight at its port, whatever it decodes to. -/
theorem takeRequest_endsOrWaits {whole : Bool} {p : Nat} {req : Request} {s t : State}
    (h : takeRequest whole p req s = .next t) :
    EndsOrWaits (fun j => ∃ i, decode req = .ok i ∧ BegunBy i j) (acceptRequest s p req) t := by
  cases hdecode : decode req with
  | error e =>
    rw [takeRequest_of_error hdecode] at h
    cases h
    exact endsOrWaits_respond _ rfl rfl
  | ok i =>
    rw [takeRequest_of_decode hdecode] at h
    cases whole with
    | true => exact exec_endsOrWaits h
    | false =>
      obtain ⟨s', hports, hactive, hreply | ⟨j, hj, ht⟩⟩ := startCommand_endsOrWaits h
      · exact ⟨s', hports, hactive, .inl hreply⟩
      · exact ⟨s', hports, hactive, .inr ⟨j, ⟨i, rfl, hj⟩, ht⟩⟩

theorem takeRequest_other_port {whole : Bool} {p q : Nat} {req : Request} {s t : State}
    (h : takeRequest whole p req s = .next t) (hq : q ≠ p) : portOf t q = portOf s q := by
  rw [(takeRequest_endsOrWaits h).other_port hq, portOf_acceptRequest, if_neg hq]

/-- The arrival of a request at a port, taken or held back, leaves the other ports alone. -/
theorem step_arrival_other_port {s t : State} {e : Input} {rest : List Input} {p q : Nat} {whole : Bool} {req : Request}
    (hinputs : s.inputs = e :: rest) (hwait : waitingFor e s = if portBusy s p then some p else none)
    (htake : ∀ s', takeInput e s' = takeRequest whole p req s') (h : step s = .next t) (hq : q ≠ p) :
    portOf t q = portOf s q := by
  cases hbusy : portBusy s p with
  | true =>
    rw [step_cons_of_waiting hinputs (by rw [hwait, hbusy]; rfl)] at h
    cases h
    exact takeTurn_other_port s hq
  | false =>
    rw [step_cons_of_ready hinputs (by rw [hwait, hbusy]; rfl), htake] at h
    exact (takeRequest_other_port h hq).trans (portOf_congr rfl q)

theorem step_other_port {s t : State} {p q : Nat} {e : Input} {rest : List Input} (hinputs : s.inputs = e :: rest)
    (he : e = .turn p ∨ ∃ req, e = .command p req ∨ e = .start p req) (h : step s = .next t) (hq : q ≠ p) :
    portOf t q = portOf s q := by
  rcases he with rfl | ⟨req, rfl | rfl⟩
  · rw [step_cons_of_ready hinputs (waitingFor_turn s p)] at h
    cases h
    exact takeTurn_other_port _ hq
  · exact step_arrival_other_port hinputs (waitingFor_command s p req) (fun _ => rfl) h hq
  · exact step_arrival_other_port hinputs (waitingFor_start s p req) (fun _ => rfl) h hq

/-- Settles O17: whole commands, first steps and later steps all answer or stay in flight at the active port; a later step
uses nothing of the device table, and a fetch nothing of the IOTLB. -/
theorem commandsLeaveOtherPortsAlone : Obligations.CommandsLeaveOtherPortsAlone := by
  refine ⟨fun i s t h => ?_, fun i s t => exec_inflight, fun j s => ?_, fun s t p e rest hinputs he h q hq => ?_⟩
  · have hends : EndsOrWaits (BegunBy i) s t := h.elim exec_endsOrWaits startCommand_endsOrWaits
    exact ⟨fun p hp => hends.other_port hp, hends.request⟩
  · have hends := jobStep_endsOrWaits j s
    exact ⟨jobStep_sameTable j s, fun p hp => hends.other_port hp, hends.request, jobStep_ctx j s,
      fun w hw => jobStep_walking_iotlb hw s⟩
  · exact step_other_port hinputs he h hq

end Sys2Proof.Machine
end

section
/-! SUPPORT. What a walk keeps from its beginning to its result: entries are well-formed and permit the access (rules R33, R39,
R188), and what is fetched is aligned and in range (rules R50, R53). -/

namespace Sys2Proof.Machine

/-! ### The entry of a leaf (rules R33, R151, R171) -/

theorem leafEntry_addrMask {w : Walk} (h : w.level ≤ 3) (ia pte : Word) (perm : BitVec 2) :
    (leafEntry ia w pte perm).addrMask =
      blockMask (leafEntry ia w pte perm).level.toNat (leafEntry ia w pte perm).granule := by
  have hlevel : (BitVec.ofNat 2 w.level).toNat = w.level := by
    rw [BitVec.toNat_ofNat]
    omega
  simp only [leafEntry, hlevel]

theorem entryWf_leafEntry {w : Walk} (h : w.level ≤ 3) (ia pte : Word) (perm : BitVec 2) :
    EntryWf (leafEntry ia w pte perm) :=
  ⟨leafEntry_addrMask h ia pte perm, and_not_mask_and_mask ia _, and_not_mask_and_mask (pte &&& mask 48) _⟩

theorem leafEntry_ta_lt {w : Walk} (h : w.level ≤ 3) (ia pte : Word) (perm : BitVec 2) :
    (leafEntry ia w pte perm).ta.toNat < 2 ^ 48 :=
  have hshift := levelShift_le h w.granule
  (outputAddress_bounds pte (by omega)).1

/-! ### What a successful walk returns (rules R39, R188) -/

/-- An entry that maps `ia` and permits `acc`. -/
def SoundEntry (ia : Word) (acc : AccessKind) (e : Entry) : Prop :=
  e.perm &&& accessMask acc = accessMask acc ∧ EntryWf e ∧ e.iap = ia &&& ~~~ e.addrMask ∧ e.ta.toNat < 2 ^ 48

/-- A walk for a write has met no Table that forbids writes: such a Table ends it (rule R147); and a result is sound. -/
def SoundPhase (ia : Word) (acc : AccessKind) : Phase → Prop
  | .walking w => acc = .write → w.wrForbid = false
  | .done (.success e) => SoundEntry ia acc e
  | .done (.failure _) => True
  | .done .configError => True

theorem dispatch_sound (cfg : TranslationConfig) (ia : Word) (acc : AccessKind) :
    SoundPhase ia acc (dispatch cfg ia) := by
  rcases dispatch_cases cfg ia with h | ⟨-, h⟩ | ⟨r, g, -, -, -, h⟩ | ⟨g, -, -, ⟨-, h⟩ | ⟨-, -, h⟩ | ⟨-, -, h⟩⟩
  · rw [h]; trivial
  · rw [h]; trivial
  · rw [h]; exact fun _ => rfl
  · rw [h]; trivial
  · rw [h]; trivial
  · rw [h]; exact fun _ => rfl

theorem walkFetch_sound {rd : Reader} {cfg : TranslationConfig} {ia : Word} {acc : AccessKind} {w : Walk}
    (hw : SoundPhase ia acc (.walking w)) : SoundPhase ia acc (walkFetch rd cfg ia acc w).2 := by
  rcases walkFetch_cases rd cfg ia acc w with ⟨f, h, -⟩ | ⟨pte, b, -, -, -, h, hforbid⟩ | ⟨pte, perm, hlevel, -, h, hperm⟩
  · rw [h]; trivial
  · rw [h]; exact fun hacc => hforbid hacc (hw hacc)
  · rw [h]
    exact ⟨hperm hw, entryWf_leafEntry hlevel ia pte perm, rfl, leafEntry_ta_lt hlevel ia pte perm⟩

theorem runWalk_sound (cfg : TranslationConfig) (ia : Word) (acc : AccessKind) (rd : Reader) :
    SoundPhase ia acc (.done (runWalk cfg ia acc rd).2) :=
  finishWalk_induction (P := fun _ phase => SoundPhase ia acc phase) (Q := fun _ r => SoundPhase ia acc (.done r))
    (fun _ _ h => h) (fun _ _ _ => trivial) (fun _ _ => walkFetch_sound) 4 rd _ (dispatch_sound cfg ia acc)

/-- Settles O35: a walk for a write never goes on below a Table that forbids writes, so the leaf's own check decides. -/
theorem successfulWalkReturnsASoundEntry : Obligations.SuccessfulWalkReturnsASoundEntry := by
  intro cfg ia acc rd e h
  have hsound := runWalk_sound cfg ia acc rd
  rw [h] at hsound
  exact hsound

/-! ### What a walk in flight keeps (rules R21, R50, R53) -/

/-- The condition of `JobWf` on where the walk of `ia` stands. -/
def PhaseWf (ia : Word) : Phase → Prop
  | .walking w => w.level ≤ 3 ∧ FetchAddress (pteAddr w ia)
  | .done (.success e) => EntryWf e
  | .done (.failure _) => True
  | .done .configError => True

theorem jobWf_iff {j : Job} : JobWf j ↔ PhaseWf j.ia j.phase := by
  unfold JobWf
  rcases j.phase with w | (e | f | _) <;> rfl

theorem dispatch_phaseWf (cfg : TranslationConfig) (ia : Word) : PhaseWf ia (dispatch cfg ia) := by
  rcases dispatch_cases cfg ia with h | ⟨-, h⟩ | ⟨r, g, -, -, hw, h⟩ | ⟨g, -, hw, ⟨-, h⟩ | ⟨-, -, h⟩ | ⟨-, hia, h⟩⟩
  · rw [h]; trivial
  · rw [h]; trivial
  · rw [h]; exact ⟨(startLevel1_le hw).1, fetchAddress_root1 hw r ia⟩
  · rw [h]; trivial
  · rw [h]; trivial
  · rw [h]
    obtain ⟨-, -, hthree, -⟩ := walkable2_eq_some hw
    exact ⟨Int.toNat_le.2 hthree, fetchAddress_root2 hw hia⟩

theorem walkFetch_phaseWf (rd : Reader) (cfg : TranslationConfig) (ia : Word) (acc : AccessKind) (w : Walk) :
    PhaseWf ia (walkFetch rd cfg ia acc w).2 := by
  rcases walkFetch_cases rd cfg ia acc w with ⟨f, h, -⟩ | ⟨pte, b, hlevel, -, -, h, -⟩ | ⟨pte, perm, hlevel, -, h, -⟩
  · rw [h]; trivial
  · rw [h]; exact ⟨hlevel, fetchAddress_descend w pte ia b⟩
  · rw [h]; exact entryWf_leafEntry hlevel ia pte perm

/-- `ReaderWf`, of the Memory Reader alone. -/
def MemoryReaderWf (rd : Reader) : Prop :=
  rd.mem.wf ∧ rd.errs.Pairwise (fun a b => a < b) ∧ ∀ pa ∈ rd.issued, FetchAddress pa

theorem readerWf_iff {s : State} : ReaderWf s ↔ MemoryReaderWf s.reader := Iff.rfl

theorem noteRead_wf {rd : Reader} {pa : Word} (h : MemoryReaderWf rd) (hpa : FetchAddress pa) :
    MemoryReaderWf (noteRead rd pa) := by
  obtain ⟨hmem, herrs, hissued⟩ := h
  exact ⟨hmem, herrs, List.forall_mem_cons.2 ⟨hpa, hissued⟩⟩

theorem walkFetch_readerWf {rd : Reader} {ia : Word} {w : Walk} (h : MemoryReaderWf rd) (hw : PhaseWf ia (.walking w))
    (cfg : TranslationConfig) (acc : AccessKind) : MemoryReaderWf (walkFetch rd cfg ia acc w).1 := by
  rw [walkFetch_reader]
  split
  · exact h
  · exact noteRead_wf h hw.2

/-- A walk run to its end fetches aligned words only and returns a well-formed entry. -/
theorem finishWalk_wf {rd : Reader} {ia : Word} {phase : Phase} (hrd : MemoryReaderWf rd) (hphase : PhaseWf ia phase)
    (cfg : TranslationConfig) (acc : AccessKind) (n : Nat) :
    MemoryReaderWf (finishWalk cfg ia acc n rd phase).1 ∧ PhaseWf ia (.done (finishWalk cfg ia acc n rd phase).2) :=
  finishWalk_induction (P := fun rd phase => MemoryReaderWf rd ∧ PhaseWf ia phase)
    (Q := fun rd r => MemoryReaderWf rd ∧ PhaseWf ia (.done r)) (fun _ _ h => h) (fun _ _ ⟨h, _⟩ => ⟨h, trivial⟩)
    (fun rd w ⟨h, hw⟩ => ⟨walkFetch_readerWf h hw cfg acc, walkFetch_phaseWf rd cfg ia acc w⟩) n rd phase ⟨hrd, hphase⟩

end Sys2Proof.Machine
end

section
/-! SUPPORT. Every step keeps the invariant: one rule per operation on the IOTLB, the device table, the Memory Reader and the
ports, then one lemma per layer, from the commands to the events. -/

namespace Sys2Proof.Machine

/-! ### The ports, one at a time (rule R20) -/

/-- The condition of `PortsWf` on one port. -/
def PortWf (pt : Port) : Prop :=
  (pt.inflight = none → pt.request = noRequest) ∧ ∀ j ∈ pt.inflight, JobWf j ∧ LatchedIn pt.request j

theorem portWf_answered (words : Response) : PortWf ⟨noRequest, none, words⟩ :=
  ⟨fun _ => rfl, fun _ hj => nomatch hj⟩

theorem portWf_inflight {pt : Port} {j : Job} (hj : JobWf j) (hlatched : LatchedIn pt.request j) :
    PortWf { pt with inflight := some j } :=
  ⟨fun h => (nomatch h), fun _ hj' => Option.mem_some.1 hj' ▸ ⟨hj, hlatched⟩⟩

/-- A port that is not listed is as before its first command, so listed ports and ports are the same thing to say. -/
theorem portsWf_iff {s : State} : PortsWf s ↔ Ordered id s.ports ∧ ∀ p, PortWf (portOf s p) := by
  refine and_congr_right fun hord => ⟨fun h p => ?_, fun h ⟨p, pt⟩ hp => ?_⟩
  · unfold portOf
    cases hget : assocGet p s.ports with
    | none => exact portWf_answered _
    | some pt => exact h _ (assocGet_mem hget)
  · have hport := h p
    unfold portOf at hport
    rwa [assocGet_of_mem (code := id) hord hp] at hport

theorem ordered_ports_assocSet {m : List (Nat × Port)} (h : Ordered id m) (p : Nat) (pt : Port) :
    Ordered id (assocSet id p pt m) := ordered_assocSet (fun _ _ e => e) p pt h

theorem EndsOrWaits.ordered_ports {Q : Job → Prop} {s t : State} (h : EndsOrWaits Q s t) (hord : Ordered id s.ports) :
    Ordered id t.ports := by
  obtain ⟨s', hports, -, ⟨reply, rfl⟩ | ⟨j, -, rfl⟩⟩ := h
  · rw [respond_ports, hports]; exact ordered_ports_assocSet hord _ _
  · rw [keepInFlight_ports, hports]; exact ordered_ports_assocSet hord _ _

/-- A command that ends leaves a port that holds nothing; one that stays in flight must be well-formed and belong to the
request of its port. What the active port held before does not matter. -/
theorem EndsOrWaits.portsWf {Q : Job → Prop} {s t : State} (h : EndsOrWaits Q s t) (hord : Ordered id s.ports)
    (hothers : ∀ p, p ≠ s.active → PortWf (portOf s p))
    (hjob : ∀ j, Q j → JobWf j ∧ LatchedIn (portOf s s.active).request j) : PortsWf t := by
  refine portsWf_iff.2 ⟨h.ordered_ports hord, fun p => ?_⟩
  by_cases hp : p = s.active
  · subst hp
    rcases h.active_port with ⟨words, hport⟩ | ⟨j, hj, hport⟩
    · rw [hport]; exact portWf_answered words
    · rw [hport]; exact portWf_inflight (hjob j hj).1 (hjob j hj).2
  · rw [h.other_port hp]; exact hothers p hp

/-! ### The invariant without the ports -/

/-- The parts of `Inv` that do not speak of the ports. -/
structure EngineInv (s : State) : Prop where
  params : s.params.wf
  iotlb : IotlbWf s
  ctx : CtxWf s
  buses : BusesWf s
  reader : ReaderWf s

theorem inv_iff {s : State} : Inv s ↔ EngineInv s ∧ PortsWf s :=
  ⟨fun ⟨hparams, hiotlb, hctx, hbuses, hports, hreader⟩ => ⟨⟨hparams, hiotlb, hctx, hbuses, hreader⟩, hports⟩,
    fun ⟨⟨hparams, hiotlb, hctx, hbuses, hreader⟩, hports⟩ => ⟨hparams, hiotlb, hctx, hbuses, hports, hreader⟩⟩

section
variable {s : State}

/-- The ports, the active one, the free-value counter and the events to come are no part of it. -/
theorem engineInv_congr {t : State} (h : EngineInv s) (hparams : t.params = s.params) (hiotlb : t.iotlb = s.iotlb)
    (hctx : t.ctx = s.ctx) (hbuses : t.buses = s.buses) (hreader : t.reader = s.reader) : EngineInv t where
  params := hparams ▸ h.params
  iotlb := by simpa only [IotlbWf, hparams, hiotlb] using h.iotlb
  ctx := by simpa only [CtxWf, hparams, hctx] using h.ctx
  buses := by simpa only [BusesWf, hctx, hbuses] using h.buses
  reader := by simpa only [ReaderWf, hreader] using h.reader

theorem engineInv_respond (h : EngineInv s) (reply : Reply) : EngineInv (respond reply s) :=
  engineInv_congr h rfl rfl rfl rfl rfl

theorem engineInv_keepInFlight (h : EngineInv s) (j : Job) : EngineInv (keepInFlight s j) :=
  engineInv_congr h rfl rfl rfl rfl rfl

theorem engineInv_acceptRequest (h : EngineInv s) (p : Nat) (req : Request) : EngineInv (acceptRequest s p req) :=
  engineInv_congr h rfl rfl rfl rfl rfl

/-! ### The IOTLB (rules R30, R33, R34, R206 to R208) -/

theorem engineInv_setIotlb {m : List (Key × Entry)} (h : EngineInv s) (hm : IotlbWf { s with iotlb := m }) :
    EngineInv { s with iotlb := m } where
  params := h.params
  iotlb := hm
  ctx := h.ctx
  buses := h.buses
  reader := h.reader

/-- Removing pairs keeps the IOTLB well-formed. -/
theorem engineInv_filterIotlb (h : EngineInv s) (f : Key × Entry → Bool) :
    EngineInv { s with iotlb := s.iotlb.filter f } := by
  obtain ⟨hord, hlength, hpairs⟩ := h.iotlb
  exact engineInv_setIotlb h ⟨ordered_filter f hord, (List.length_filter_le f s.iotlb).trans hlength,
    fun p hp => hpairs p (List.mem_filter.1 hp).1⟩

theorem engineInv_clearIotlb (h : EngineInv s) : EngineInv { s with iotlb := [] } :=
  engineInv_setIotlb h ⟨.nil, Nat.zero_le _, fun _ hp => nomatch hp⟩

theorem pairWf_keyOfEntry {e : Entry} (he : EntryWf e) (cfg : TranslationConfig) : PairWf (keyOfEntry cfg e, e) :=
  ⟨rfl, rfl, rfl, he⟩

/-- The cache after a clear at the cap has room for the pair, as the cap is at least 1 (rules R3, R207). -/
theorem length_insertEntry_le {cap : Nat} (hcap : 1 ≤ cap) (m : List (Key × Entry)) (cfg : TranslationConfig) (e : Entry) :
    (insertEntry cap m cfg e).length ≤ cap := by
  by_cases hfull : cap ≤ m.length
  · rw [insertEntry_of_full hfull]; exact hcap
  · unfold insertEntry
    rw [if_neg hfull]
    have := length_assocSet_le keyCode (keyOfEntry cfg e) e m
    omega

theorem ordered_insertEntry {m : List (Key × Entry)} (h : Ordered keyCode m) (cap : Nat) (cfg : TranslationConfig)
    (e : Entry) : Ordered keyCode (insertEntry cap m cfg e) := by
  unfold insertEntry
  split
  · exact ordered_assocSet keyCode_injective _ _ .nil
  · exact ordered_assocSet keyCode_injective _ _ h

theorem mem_insertEntry {cap : Nat} {m : List (Key × Entry)} {cfg : TranslationConfig} {e : Entry} {p : Key × Entry}
    (h : p ∈ insertEntry cap m cfg e) : p = (keyOfEntry cfg e, e) ∨ p ∈ m := by
  unfold insertEntry at h
  split at h
  · exact (mem_assocSet h).imp_right fun hp => nomatch hp
  · exact mem_assocSet h

theorem engineInv_insertEntry (h : EngineInv s) (cfg : TranslationConfig) {e : Entry} (he : EntryWf e) :
    EngineInv { s with iotlb := insertEntry s.params.iotlbCap s.iotlb cfg e } := by
  obtain ⟨hord, -, hpairs⟩ := h.iotlb
  obtain ⟨hcap, -⟩ := h.params
  refine engineInv_setIotlb h ⟨ordered_insertEntry hord _ cfg e, length_insertEntry_le hcap _ cfg e, fun p hp => ?_⟩
  rcases mem_insertEntry hp with rfl | hp
  · exact pairWf_keyOfEntry he cfg
  · exact hpairs p hp

/-! ### The device table (rules R29, R40, R42, R232) -/

/-- Setting one key's value adds that key and no other. -/
theorem exists_key_assocSet {κ V : Type} [DecidableEq κ] (code : κ → Nat) (k : κ) (v : V) (m : List (κ × V))
    (P : κ → Prop) : (∃ p ∈ assocSet code k v m, P p.1) ↔ P k ∨ ∃ p ∈ m, P p.1 := by
  induction m with
  | nil => simp [assocSet]
  | cons q m ih =>
    obtain ⟨k', v'⟩ := q
    unfold assocSet
    split
    · rename_i hk; subst hk; simp
    · split
      · simp
      · simp only [List.exists_mem_cons_iff, ih]; tauto

theorem ctxWf_setDevice (h : CtxWf s) (d : DevId) {r : DevRecord} (hhits : r.hits < 2 ^ s.params.cntW)
    (hmisses : r.misses < 2 ^ s.params.cntW) : CtxWf (setDevice s d r) := by
  obtain ⟨hord, hcounters⟩ := h
  refine ⟨ordered_assocSet (fun _ _ => BitVec.eq_of_toNat_eq) d r hord, fun p hp => ?_⟩
  rcases mem_assocSet hp with rfl | hp
  · exact ⟨hhits, hmisses⟩
  · exact hcounters p hp

/-- A new value of a record that exists: its bus is populated already. -/
theorem engineInv_setDevice (h : EngineInv s) {d : DevId} {r r' : DevRecord} (hd : deviceOf s d = some r)
    (hhits : r'.hits < 2 ^ s.params.cntW) (hmisses : r'.misses < 2 ^ s.params.cntW) : EngineInv (setDevice s d r') where
  params := h.params
  iotlb := h.iotlb
  ctx := ctxWf_setDevice h.ctx d hhits hmisses
  buses := by
    obtain ⟨hord, hbuses⟩ := h.buses
    refine ⟨hord, fun b => ?_⟩
    rw [setDevice_ctx, exists_key_assocSet _ _ _ _ (fun k => busOf k = b), setDevice_buses, hbuses b]
    exact ⟨.inr, fun hb => hb.elim (fun hbus => ⟨(d, r), assocGet_mem hd, hbus⟩) id⟩
  reader := h.reader

theorem engineInv_createDevice (h : EngineInv s) (d : DevId) : EngineInv (createDevice s d) where
  params := h.params
  iotlb := h.iotlb
  ctx := ctxWf_setDevice h.ctx d (Nat.two_pow_pos _) (Nat.two_pow_pos _)
  buses := by
    obtain ⟨hord, hbuses⟩ := h.buses
    refine ⟨ordered_setAdd (fun _ _ => BitVec.eq_of_toNat_eq) _ hord, fun b => ?_⟩
    rw [createDevice_ctx, exists_key_assocSet _ _ _ _ (fun k => busOf k = b), createDevice_buses, mem_setAdd, hbuses b]
    exact or_congr_left eq_comm
  reader := h.reader

theorem counters_lt (h : EngineInv s) {d : DevId} {r : DevRecord} (hd : deviceOf s d = some r) :
    r.hits < 2 ^ s.params.cntW ∧ r.misses < 2 ^ s.params.cntW :=
  h.ctx.2 (d, r) (assocGet_mem hd)

theorem bumpCounter_lt {p : Params} {r : DevRecord} (hhits : r.hits < 2 ^ p.cntW) (hmisses : r.misses < 2 ^ p.cntW)
    (hit : Bool) : (bumpCounter p hit r).hits < 2 ^ p.cntW ∧ (bumpCounter p hit r).misses < 2 ^ p.cntW := by
  have hmod (n : Nat) : n % 2 ^ p.cntW < 2 ^ p.cntW := Nat.mod_lt n (Nat.two_pow_pos _)
  cases hit with
  | true => exact ⟨hmod _, hmisses⟩
  | false => exact ⟨hhits, hmod _⟩

theorem engineInv_countLookup (h : EngineInv s) (d : DevId) (hit : Bool) : EngineInv (countLookup s d hit) := by
  unfold countLookup
  cases hd : deviceOf s d with
  | none => exact h
  | some r =>
    obtain ⟨hhits, hmisses⟩ := counters_lt h hd
    obtain ⟨hhits', hmisses'⟩ := bumpCounter_lt hhits hmisses hit
    exact engineInv_setDevice h hd hhits' hmisses'

theorem engineInv_programDevice (h : EngineInv s) (d : DevId) (cfg : TranslationConfig) :
    EngineInv (programDevice s d cfg) := by
  unfold programDevice
  cases hd : deviceOf s d with
  | none =>
    have hnew : deviceOf (createDevice s d) d = some (newRecord s.draws) := by rw [deviceOf_createDevice, if_pos rfl]
    exact engineInv_setDevice (engineInv_createDevice h d) hnew (Nat.two_pow_pos _) (Nat.two_pow_pos _)
  | some r => exact engineInv_setDevice h hd (Nat.two_pow_pos _) (Nat.two_pow_pos _)

/-! ### The walk (rules R50, R53) -/

theorem engineInv_setReader {rd : Reader} (h : EngineInv s) (hrd : MemoryReaderWf rd) :
    EngineInv { s with reader := rd } where
  params := h.params
  iotlb := h.iotlb
  ctx := h.ctx
  buses := h.buses
  reader := readerWf_iff.2 hrd

theorem engineInv_finishJob (h : EngineInv s) {ia : Word} {r : WalkResult} (hr : PhaseWf ia (.done r))
    (cmd : WalkCommand) (cfg : TranslationConfig) : EngineInv (finishJob cmd cfg ia r s) := by
  obtain ⟨m, reply, hfinish, rfl | ⟨e, -, rfl, rfl⟩⟩ := finishJob_cases cmd cfg ia r s
  · rw [hfinish]; exact engineInv_respond h reply
  · rw [hfinish]; exact engineInv_respond (engineInv_insertEntry h cfg hr) reply

/-- What a step A must leave behind for the rest of its command to keep the invariant. -/
def StepAWf (a : StepA) : Prop := EngineInv a.1 ∧ ∀ j ∈ a.2, JobWf j

theorem stepAWf_answered (h : EngineInv s) (reply : Reply) : StepAWf (respond reply s, none) :=
  ⟨engineInv_respond h reply, fun _ hj => nomatch hj⟩

theorem stepAWf_begun (h : EngineInv s) (cmd : WalkCommand) (cfg : TranslationConfig) (ia : Word) (acc : AccessKind) :
    StepAWf (s, some ⟨cmd, cfg, ia, acc, dispatch cfg ia⟩) :=
  ⟨h, fun _ hj => Option.mem_some.1 hj ▸ jobWf_iff.2 (dispatch_phaseWf cfg ia)⟩

theorem translateStepA_wf (h : EngineInv s) (dev : DevId) (ia : Word) (acc : AccessKind) :
    StepAWf (translateStepA dev ia acc s) := by
  rcases translateStepA_cases dev ia acc s with ⟨reply, ha⟩ | ⟨reply, ha⟩ | ⟨cfg, ha⟩
  · rw [ha]; exact stepAWf_answered h reply
  · rw [ha]; exact stepAWf_answered (engineInv_countLookup h dev true) reply
  · rw [ha]; exact stepAWf_begun (engineInv_countLookup h dev false) .translate cfg ia acc

theorem ptwStepA_wf (h : EngineInv s) (dev : DevId) (ia : Word) (acc : AccessKind) :
    StepAWf (ptwStepA dev ia acc s) := by
  rcases ptwStepA_cases dev ia acc s with ha | ⟨cfg, ha⟩
  · rw [ha]; exact stepAWf_answered h _
  · rw [ha]; exact stepAWf_begun h .ptw cfg ia acc

theorem engineInv_runToEnd {a : StepA} (h : StepAWf a) : EngineInv (runToEnd a) := by
  obtain ⟨s, _ | j⟩ := a
  · exact h.1
  · obtain ⟨hs, hjob⟩ := h
    obtain ⟨hrd, hr⟩ := finishWalk_wf (readerWf_iff.1 hs.reader) (jobWf_iff.1 (hjob j rfl)) j.cfg j.acc 4
    exact engineInv_finishJob (engineInv_setReader hs hrd) hr j.cmd j.cfg

theorem engineInv_leaveInFlight {a : StepA} (h : StepAWf a) : EngineInv (leaveInFlight a) := by
  obtain ⟨s, _ | j⟩ := a
  · exact h.1
  · exact engineInv_keepInFlight h.1 j

end

/-! ### Every command -/

/-- A next state, if there is one, satisfies `P`. -/
def NextSatisfies (P : State → Prop) (o : Host.Outcome State Fault Refusal) : Prop := ∀ t, o = .next t → P t

@[simp] theorem nextSatisfies_next {P : State → Prop} {t : State} : NextSatisfies P (.next t) ↔ P t :=
  ⟨fun h => h t rfl, fun h _ ht => Host.Outcome.next.inj ht ▸ h⟩

/-- The entry `TLB_INSERT` makes of legal operands is well-formed: they are aligned (rules R94, R209). -/
theorem entryWf_insertedEntry {g : Granule} {addr data : Word} {tg lvl : BitVec 2}
    (h : insertOperands tg lvl addr data = some g) (perm : BitVec 2) : EntryWf (insertedEntry g addr data lvl perm) := by
  unfold insertOperands at h
  split at h
  · cases h
  · split at h
    · rename_i haligned
      cases h
      exact ⟨rfl, haligned.1, haligned.2⟩
    · cases h

section
variable {s : State} (h : EngineInv s)
include h

theorem engineInv_execTranslate (dev : DevId) (addr : Word) (acc : BitVec 2) :
    NextSatisfies EngineInv (execTranslate dev addr acc s) := by
  unfold execTranslate
  split
  · exact nextSatisfies_next.2 (engineInv_respond h _)
  · exact nextSatisfies_next.2 (engineInv_runToEnd (translateStepA_wf h _ _ _))

theorem engineInv_execPtw (dev : DevId) (addr : Word) (acc : BitVec 2) :
    NextSatisfies EngineInv (execPtw dev addr acc s) := by
  unfold execPtw
  split
  · exact nextSatisfies_next.2 (engineInv_respond h _)
  · exact nextSatisfies_next.2 (engineInv_runToEnd (ptwStepA_wf h _ _ _))

theorem engineInv_execTlbLookup (dev : DevId) (rgn : RegionIx) (addr : Word) :
    NextSatisfies EngineInv (execTlbLookup dev rgn addr s) := by
  unfold execTlbLookup
  split
  · exact nextSatisfies_next.2 (engineInv_respond h _)
  · split
    · exact nextSatisfies_next.2 (engineInv_respond h _)
    · split
      · exact nextSatisfies_next.2 (engineInv_respond (engineInv_countLookup h dev true) _)
      · exact nextSatisfies_next.2 (engineInv_respond (engineInv_countLookup h dev false) _)

theorem engineInv_execTlbInsert (dev : DevId) (addr data : Word) (tg lvl perm : BitVec 2) :
    NextSatisfies EngineInv (execTlbInsert dev addr data tg lvl perm s) := by
  unfold execTlbInsert
  split
  · exact nextSatisfies_next.2 (engineInv_respond h _)
  · rename_i g hoperands
    split
    · exact nextSatisfies_next.2 (engineInv_respond h _)
    · exact nextSatisfies_next.2
        (engineInv_respond (engineInv_insertEntry h _ (entryWf_insertedEntry hoperands perm)) _)

theorem engineInv_execTlbiIova (aw vw : Bool) (asid vmid : BitVec 16) (tg lvl : BitVec 2) (addr data : Word) :
    NextSatisfies EngineInv (execTlbiIova aw vw asid vmid tg lvl addr data s) := by
  unfold execTlbiIova afterIovaInvalidation
  split
  · refine nextSatisfies_next.2 (engineInv_respond ?_ _)
    split
    · exact engineInv_filterIotlb h _
    · exact engineInv_filterIotlb h _
  · exact nextSatisfies_next.2 (engineInv_respond h _)

theorem engineInv_execDevGet (dev : DevId) : NextSatisfies EngineInv (execDevGet dev s) := by
  unfold execDevGet
  split
  · exact nextSatisfies_next.2 (engineInv_respond (engineInv_createDevice h dev) _)
  · exact nextSatisfies_next.2 (engineInv_respond h _)

theorem engineInv_execCfgInv (dev : DevId) : NextSatisfies EngineInv (execCfgInv dev s) := by
  unfold execCfgInv
  split
  · exact nextSatisfies_next.2 (engineInv_respond h _)
  · rename_i r hd
    obtain ⟨hhits, hmisses⟩ := counters_lt h hd
    have hset := engineInv_setDevice (r' := { r with cfgValid := false }) h hd hhits hmisses
    exact nextSatisfies_next.2 (engineInv_respond hset _)

theorem engineInv_execCntRead (dev : DevId) : NextSatisfies EngineInv (execCntRead dev s) := by
  unfold execCntRead
  split
  · exact nextSatisfies_next.2 (engineInv_respond h _)
  · exact nextSatisfies_next.2 (engineInv_respond h _)

theorem engineInv_execCntClr (dev : DevId) : NextSatisfies EngineInv (execCntClr dev s) := by
  unfold execCntClr
  split
  · exact nextSatisfies_next.2 (engineInv_respond h _)
  · rename_i r hd
    exact nextSatisfies_next.2
      (engineInv_respond (engineInv_setDevice h hd (Nat.two_pow_pos _) (Nat.two_pow_pos _)) _)

theorem engineInv_exec (i : Instr) : NextSatisfies EngineInv (exec i s) := by
  cases i with
  | translate dev addr acc => exact engineInv_execTranslate h dev addr acc
  | ptw dev addr acc => exact engineInv_execPtw h dev addr acc
  | tlbLookup dev rgn addr => exact engineInv_execTlbLookup h dev rgn addr
  | tlbInsert dev addr data tg lvl perm => exact engineInv_execTlbInsert h dev addr data tg lvl perm
  | tlbiAll => exact nextSatisfies_next.2 (engineInv_respond (engineInv_clearIotlb h) _)
  | tlbiAsid asid => exact nextSatisfies_next.2 (engineInv_respond (engineInv_filterIotlb h _) _)
  | tlbiVmid vmid => exact nextSatisfies_next.2 (engineInv_respond (engineInv_filterIotlb h _) _)
  | tlbiIova aw vw asid vmid tg lvl addr data => exact engineInv_execTlbiIova h aw vw asid vmid tg lvl addr data
  | devGet dev => exact engineInv_execDevGet h dev
  | cfgSet dev cfg => exact nextSatisfies_next.2 (engineInv_respond (engineInv_programDevice h dev cfg) _)
  | cfgInv dev => exact engineInv_execCfgInv h dev
  | cntRead dev => exact engineInv_execCntRead h dev
  | cntClr dev => exact engineInv_execCntClr h dev

theorem engineInv_startCommand (i : Instr) : NextSatisfies EngineInv (startCommand i s) := by
  intro t ht
  rcases startCommand_cases ht with ht | ⟨dev, ia, -, acc, -, -, rfl⟩ | ⟨dev, ia, -, acc, -, -, rfl⟩
  · exact engineInv_exec h i t ht
  · exact engineInv_leaveInFlight (translateStepA_wf h dev ia acc)
  · exact engineInv_leaveInFlight (ptwStepA_wf h dev ia acc)

theorem engineInv_jobStep {j : Job} (hj : JobWf j) : EngineInv (jobStep j s) := by
  have hphase := jobWf_iff.1 hj
  cases hp : j.phase with
  | walking w =>
    rw [hp] at hphase
    rw [jobStep_walking hp]
    exact engineInv_keepInFlight (engineInv_setReader h (walkFetch_readerWf (readerWf_iff.1 h.reader) hphase j.cfg j.acc)) _
  | done r =>
    rw [hp] at hphase
    rw [jobStep_done hp]
    exact engineInv_finishJob h hphase j.cmd j.cfg

end

/-! ### Every event -/

/-- A fetch leaves a well-formed job, with the operands its request gave it (rules R20, R21). -/
theorem FetchedFrom.wf {j j' : Job} {rd : Reader} (h : FetchedFrom j rd j') : JobWf j' := by
  obtain ⟨w, -, rfl⟩ := h
  exact jobWf_iff.2 (walkFetch_phaseWf rd j.cfg j.ia j.acc w)

theorem FetchedFrom.latchedIn {j j' : Job} {rd : Reader} {req : Request} (h : FetchedFrom j rd j')
    (hlatched : LatchedIn req j) : LatchedIn req j' := by
  obtain ⟨w, -, rfl⟩ := h
  exact hlatched

theorem BegunBy.wf {i : Instr} {j : Job} (h : BegunBy i j) : JobWf j := by
  rw [jobWf_iff, h.1]
  exact dispatch_phaseWf j.cfg j.ia

section
variable {s : State} (h : Inv s)
include h

theorem inv_withInputs (inputs : List Input) : Inv { s with inputs := inputs } := h

theorem inv_takeTurn (p : Nat) : Inv (takeTurn p s) := by
  cases hj : (portOf s p).inflight with
  | none => rw [takeTurn_of_idle hj]; exact h
  | some j =>
    obtain ⟨hengine, hports⟩ := inv_iff.1 h
    obtain ⟨hord, hport⟩ := portsWf_iff.1 hports
    obtain ⟨hwf, hlatched⟩ := (hport p).2 j hj
    have hengine' : EngineInv { s with active := p } := engineInv_congr hengine rfl rfl rfl rfl rfl
    rw [takeTurn_of_inflight hj]
    refine inv_iff.2 ⟨engineInv_jobStep hengine' hwf, ?_⟩
    exact (jobStep_endsOrWaits j { s with active := p }).portsWf hord (fun q _ => hport q)
      fun j' hj' => ⟨hj'.wf, hj'.latchedIn hlatched⟩

theorem inv_takeRequest (whole : Bool) (p : Nat) (req : Request) : NextSatisfies Inv (takeRequest whole p req s) := by
  intro t ht
  obtain ⟨hengine, hports⟩ := inv_iff.1 h
  obtain ⟨hord, hport⟩ := portsWf_iff.1 hports
  have haccepted := engineInv_acceptRequest hengine p req
  refine inv_iff.2 ⟨?_, (takeRequest_endsOrWaits ht).portsWf (ordered_ports_assocSet hord p _) ?_ ?_⟩
  · cases hdecode : decode req with
    | error e =>
      rw [takeRequest_of_error hdecode] at ht
      cases ht
      exact engineInv_respond haccepted _
    | ok i =>
      rw [takeRequest_of_decode hdecode] at ht
      cases whole with
      | true => exact engineInv_exec haccepted i t ht
      | false => exact engineInv_startCommand haccepted i t ht
  · intro q hq
    rw [acceptRequest_active] at hq
    rw [portOf_acceptRequest, if_neg hq]
    exact hport q
  · rintro j ⟨i, hdecode, hbegun⟩
    rw [acceptRequest_active, portOf_acceptRequest, if_pos rfl]
    exact ⟨hbegun.wf, hbegun.2 req hdecode⟩

theorem inv_setReader {rd : Reader} (hrd : MemoryReaderWf rd) : Inv { s with reader := rd } := by
  obtain ⟨hengine, hports⟩ := inv_iff.1 h
  exact inv_iff.2 ⟨engineInv_setReader hengine hrd, hports⟩

end

theorem setReaderErr_wf {rd : Reader} (h : MemoryReaderWf rd) (pa : Word) (fails : Bool) :
    MemoryReaderWf (setReaderErr rd pa fails) := by
  obtain ⟨hmem, herrs, hissued⟩ := h
  refine ⟨hmem, ?_, hissued⟩
  cases fails with
  | true => exact ordered_setAdd (code := id) (fun _ _ e => e) pa.toNat herrs
  | false => exact herrs.filter _

theorem writeBytes_wf {rd : Reader} (h : MemoryReaderWf rd) (pa : Word) (bytes : List Byte) :
    MemoryReaderWf { rd with mem := writeBytes rd.mem pa bytes } := by
  obtain ⟨hmem, herrs, hissued⟩ := h
  exact ⟨wf_writeBytes hmem pa bytes, herrs, hissued⟩

theorem inv_engineReset {s : State} (h : Inv s) : Inv (engineReset s) := by
  obtain ⟨hengine, -⟩ := inv_iff.1 h
  exact inv_of_engineEmpty hengine.params rfl rfl rfl rfl hengine.reader

theorem inv_takeInput {s : State} (h : Inv s) (e : Input) : NextSatisfies Inv (takeInput e s) := by
  have hreader : MemoryReaderWf s.reader := readerWf_iff.1 (inv_iff.1 h).1.reader
  cases e with
  | command p req => exact inv_takeRequest h true p req
  | start p req => exact inv_takeRequest h false p req
  | turn p => exact nextSatisfies_next.2 (inv_takeTurn h p)
  | write pa bytes => exact nextSatisfies_next.2 (inv_setReader h (writeBytes_wf hreader pa bytes))
  | readerErr pa fails => exact nextSatisfies_next.2 (inv_setReader h (setReaderErr_wf hreader pa fails))
  | reset => exact nextSatisfies_next.2 (inv_engineReset h)

theorem inv_step {s : State} (h : Inv s) : NextSatisfies Inv (step s) := by
  cases hinputs : s.inputs with
  | nil => rw [step_nil hinputs]; exact nextSatisfies_next.2 h
  | cons e rest =>
    cases hwait : waitingFor e s with
    | some p => rw [step_cons_of_waiting hinputs hwait]; exact nextSatisfies_next.2 (inv_takeTurn h p)
    | none => rw [step_cons_of_ready hinputs hwait]; exact inv_takeInput (inv_withInputs h rest) e

/-- Settles O15: every event keeps the invariant, each part of it by the rules of the operations the event is made of. -/
theorem everyStepKeepsTheInvariant : Obligations.EveryStepKeepsTheInvariant :=
  fun _ t h => inv_step h t

end Sys2Proof.Machine
end

section
/-! SUPPORT. The Memory Reader: what it answers, what a write of another agent and a failure change (rules R51, R52, R59, R60),
what one fetch and a whole walk ask of it (rules R54, R145, R146, R155), and that no step but such a write changes memory (rule
R57). -/

namespace Sys2Proof.Machine

/-! ### What `ReadPTE` answers (rules R51, R52, R59) -/

theorem pteAnswer_eq_none_iff {rd : Reader} {pa : Word} : pteAnswer rd pa = none ↔ pa.toNat ∈ rd.errs := by
  unfold pteAnswer
  split
  · rename_i h; exact iff_of_true rfl h
  · rename_i h; exact iff_of_false nofun h

theorem pteAnswer_eq_some_iff {rd : Reader} {pa v : Word} :
    pteAnswer rd pa = some v ↔ pa.toNat ∉ rd.errs ∧ readWord rd.mem pa = v := by
  unfold pteAnswer
  split
  · rename_i h; exact iff_of_false nofun fun hv => hv.1 h
  · rename_i h; rw [Option.some.injEq]; exact (and_iff_right h).symm

theorem readWord_byte (m : Memory) (pa : Word) {i : Nat} (h : i < 8) :
    (readWord m pa).extractLsb' (8 * i) 8 = readByte m (pa + BitVec.ofNat 64 i).toNat :=
  leWord_byte _ i h

/-- Settles O18: a word that is answered is the little-endian word of its eight bytes. -/
theorem readPteAnswersTheEightBytes : Obligations.ReadPteAnswersTheEightBytes := by
  refine fun rd pa => ⟨pteAnswer_eq_none_iff, fun v hv i hi => ?_⟩
  obtain ⟨-, rfl⟩ := pteAnswer_eq_some_iff.1 hv
  exact readWord_byte rd.mem pa hi

/-! ### The events of the Memory Reader (rules R5, R51, R60) -/

/-- Addresses wrap at `2^64`, so fewer than `2^64` steps up from an address do not lead back to it. -/
theorem add_ofNat_succ_ne_self (pa : Word) {i : Nat} (h : i + 1 < 2 ^ 64) : pa + 1 + BitVec.ofNat 64 i ≠ pa := by
  bv_omega

/-- The byte at offset `i` of a write reads as written, unless the write laps the address space. -/
theorem readByte_writeBytes_of_getElem? (m : Memory) (pa : Word) (bytes : List Byte) (hlen : bytes.length ≤ 2 ^ 64)
    {i : Nat} {b : Byte} (hb : bytes[i]? = some b) :
    readByte (writeBytes m pa bytes) (pa + BitVec.ofNat 64 i).toNat = b := by
  induction bytes generalizing m pa i with
  | nil => cases hb
  | cons b' bytes ih =>
    rw [List.length_cons] at hlen
    cases i with
    | zero =>
      obtain rfl : b' = b := by simpa using hb
      have hlater : ∀ i, i < bytes.length → pa.toNat ≠ (pa + 1 + BitVec.ofNat 64 i).toNat := fun i hi heq =>
        add_ofNat_succ_ne_self pa (by omega) (BitVec.eq_of_toNat_eq heq).symm
      rw [BitVec.add_zero, writeBytes, readByte_writeBytes_other bytes _ _ _ hlater, readByte_writeByte_same]
    | succ i =>
      have hoffset : pa + BitVec.ofNat 64 (i + 1) = pa + 1 + BitVec.ofNat 64 i := by rw [BitVec.ofNat_add]; ac_rfl
      rw [hoffset]
      exact ih _ _ (by omega) (by simpa using hb)

theorem mem_setReaderErr_errs {rd : Reader} {pa : Word} {fails : Bool} {a : Nat} :
    a ∈ (setReaderErr rd pa fails).errs ↔ if a = pa.toNat then fails = true else a ∈ rd.errs := by
  cases fails with
  | true =>
    change a ∈ setAdd id pa.toNat rd.errs ↔ _
    by_cases h : a = pa.toNat <;> simp [mem_setAdd, h]
  | false =>
    change a ∈ rd.errs.filter (fun a => a ≠ pa.toNat) ↔ _
    by_cases h : a = pa.toNat <;> simp [h]

/-- Settles O19: the two events write one field of the Memory Reader each, by `writeBytes` and by `setReaderErr`. -/
theorem outsideEventsChangeOnlyTheReader : Obligations.OutsideEventsChangeOnlyTheReader := by
  constructor
  · intro s pa bytes rest hinputs
    exact ⟨writeBytes s.reader.mem pa bytes, step_cons_of_ready hinputs rfl,
      fun hlen i b hb => readByte_writeBytes_of_getElem? s.reader.mem pa bytes hlen hb,
      fun a ha => readByte_writeBytes_other bytes s.reader.mem pa a ha⟩
  · intro s pa fails rest hinputs
    exact ⟨(setReaderErr s.reader pa fails).errs, step_cons_of_ready hinputs rfl, fun a => mem_setReaderErr_errs⟩

/-! ### What one fetch makes of its answer (rules R59, R145, R146, R166) -/

section
variable {rd : Reader} {cfg : TranslationConfig} {ia : Word} {acc : AccessKind} {w : Walk}

theorem walkFetch_of_err (hlevel : w.level ≤ 3) (h : pteAnswer rd (pteAddr w ia) = none) :
    (walkFetch rd cfg ia acc w).2 = .done (.failure ⟨.walkExternalAbort, walkStage w, pteAddr w ia⟩) := by
  unfold walkFetch
  rw [if_neg (by omega), h]

theorem walkFetch_of_pte {pte : Word} (hlevel : w.level ≤ 3) (h : pteAnswer rd (pteAddr w ia) = some pte) :
    (walkFetch rd cfg ia acc w).2 = pteStep cfg ia acc w pte := by
  unfold walkFetch
  rw [if_neg (by omega), h]

theorem pteStep_of_invalid_or_reserved {pte : Word}
    (h : classify pte w.level = .invalid ∨ classify pte w.level = .reserved) :
    pteStep cfg ia acc w pte = .done (.failure ⟨.translation, walkStage w, ia⟩) := by
  unfold pteStep
  rcases h with h | h <;> rw [h]

end

/-- A word with bit 0 clear is Invalid; a level 3 word of type `0b01` is Reserved (rules R116, R117). -/
theorem classify_invalid_or_reserved {pte : Word} {level : Nat}
    (h : pte.getLsbD 0 = false ∨ (level = 3 ∧ pte.extractLsb' 0 2 = 0b01#2)) :
    classify pte level = .invalid ∨ classify pte level = .reserved := by
  unfold classify
  by_cases hbit : pte.getLsbD 0 = false
  · exact .inl (if_pos hbit)
  · rw [if_neg hbit, if_pos (h.resolve_left hbit)]
    exact .inr rfl

/-- Settles O29: the fetch's answer is looked at first, and only a word that was delivered is classified. -/
theorem failedFetchIsNotAnEmptyEntry : Obligations.FailedFetchIsNotAnEmptyEntry := by
  refine fun rd cfg ia acc w hlevel => ⟨walkFetch_of_err hlevel, fun pte hpte hclass => ?_⟩
  rw [walkFetch_of_pte hlevel hpte]
  exact pteStep_of_invalid_or_reserved (classify_invalid_or_reserved hclass)

/-! ### What a walk asks of the Memory Reader (rules R54, R155) -/

theorem walkFetch_issued (rd : Reader) (cfg : TranslationConfig) (ia : Word) (acc : AccessKind) (w : Walk) :
    ∃ fetched, (walkFetch rd cfg ia acc w).1.issued = fetched ++ rd.issued ∧ fetched.length ≤ 1 := by
  rw [walkFetch_reader]
  split
  · exact ⟨[], rfl, Nat.zero_le 1⟩
  · exact ⟨[pteAddr w ia], rfl, Nat.le_refl 1⟩

/-- A walk with `n` fetches left makes no more than these. -/
theorem finishWalk_issued (cfg : TranslationConfig) (ia : Word) (acc : AccessKind) (n : Nat) (rd : Reader)
    (phase : Phase) :
    ∃ fetched, (finishWalk cfg ia acc n rd phase).1.issued = fetched ++ rd.issued ∧ fetched.length ≤ n := by
  induction n generalizing rd phase with
  | zero => cases phase <;> exact ⟨[], rfl, Nat.le_refl 0⟩
  | succ n ih =>
    cases phase with
    | done r => exact ⟨[], rfl, Nat.zero_le _⟩
    | walking w =>
      obtain ⟨first, hfirst, hfirstLen⟩ := walkFetch_issued rd cfg ia acc w
      obtain ⟨later, hlater, hlaterLen⟩ := ih (walkFetch rd cfg ia acc w).1 (walkFetch rd cfg ia acc w).2
      refine ⟨later ++ first, ?_, by rw [List.length_append]; omega⟩
      rw [finishWalk_walking, hlater, hfirst, List.append_assoc]

/-- Settles O33: a walk has four fetches, each of which asks for at most one word. -/
theorem walkMakesAtMostFourFetches : Obligations.WalkMakesAtMostFourFetches := by
  intro cfg ia acc rd
  obtain ⟨hmem, herrs⟩ := finishWalk_mem cfg ia acc 4 rd (dispatch cfg ia)
  exact ⟨hmem, herrs, finishWalk_issued cfg ia acc 4 rd (dispatch cfg ia)⟩

/-! ### What writes no memory (rules R56, R57) -/

@[simp] theorem programDevice_reader (s : State) (dev : DevId) (cfg : TranslationConfig) :
    (programDevice s dev cfg).reader = s.reader := by
  unfold programDevice; split <;> rfl

@[simp] theorem finishJob_reader (cmd : WalkCommand) (cfg : TranslationConfig) (ia : Word) (r : WalkResult) (s : State) :
    (finishJob cmd cfg ia r s).reader = s.reader := by
  obtain ⟨m, reply, h, -⟩ := finishJob_cases cmd cfg ia r s
  rw [h, respond_reader]

@[simp] theorem translateStepA_reader (dev : DevId) (ia : Word) (acc : AccessKind) (s : State) :
    (translateStepA dev ia acc s).1.reader = s.reader := by
  rcases translateStepA_cases dev ia acc s with ⟨reply, h⟩ | ⟨reply, h⟩ | ⟨cfg, h⟩ <;> simp [h]

@[simp] theorem ptwStepA_reader (dev : DevId) (ia : Word) (acc : AccessKind) (s : State) :
    (ptwStepA dev ia acc s).1.reader = s.reader := by
  rcases ptwStepA_cases dev ia acc s with h | ⟨cfg, h⟩ <;> simp [h]

@[simp] theorem leaveInFlight_reader (a : StepA) : (leaveInFlight a).reader = a.1.reader := by
  obtain ⟨s, _ | j⟩ := a <;> rfl

@[simp] theorem walkFetch_mem (rd : Reader) (cfg : TranslationConfig) (ia : Word) (acc : AccessKind) (w : Walk) :
    (walkFetch rd cfg ia acc w).1.mem = rd.mem := by
  rw [walkFetch_reader]; split <;> rfl

@[simp] theorem runToEnd_mem (a : StepA) : (runToEnd a).reader.mem = a.1.reader.mem := by
  obtain ⟨s, _ | j⟩ := a
  · rfl
  · simp [runToEnd, finishWalk_mem]

@[simp] theorem jobStep_mem (j : Job) (s : State) : (jobStep j s).reader.mem = s.reader.mem := by
  cases hphase : j.phase with
  | walking w => simp [jobStep_walking hphase]
  | done r => simp [jobStep_done hphase]

@[simp] theorem takeTurn_mem (p : Nat) (s : State) : (takeTurn p s).reader.mem = s.reader.mem := by
  cases hj : (portOf s p).inflight with
  | none => rw [takeTurn_of_idle hj]
  | some j => simp [takeTurn_of_inflight hj]

/-! ### No step but another agent's write changes memory (rule R57) -/

/-- Memory lists in `t` what it lists in `s`. -/
def MemoryKept (s t : State) : Prop := t.reader.mem = s.reader.mem

@[simp] theorem memoryKept_iff {s t : State} : MemoryKept s t ↔ t.reader.mem = s.reader.mem := Iff.rfl

/-- Only `TRANSLATE` and `PTW` reach the Memory Reader, and their walks only read (rules R57, R200, R230). -/
theorem exec_memoryKept (i : Instr) (s : State) : NextSatisfies (MemoryKept s) (exec i s) := by
  cases i with
  | translate dev addr acc => rw [exec_translate, execTranslate]; split <;> simp
  | ptw dev addr acc => rw [exec_ptw, execPtw]; split <;> simp
  | tlbLookup dev rgn addr =>
    rw [exec_tlbLookup, execTlbLookup]
    split
    · simp
    · split
      · simp
      · split <;> simp
  | tlbInsert dev addr data tg lvl perm =>
    rw [exec_tlbInsert, execTlbInsert]
    split
    · simp
    · split <;> simp
  | tlbiAll => simp [exec_tlbiAll, execTlbiAll]
  | tlbiAsid asid => simp [exec_tlbiAsid, execTlbiAsid]
  | tlbiVmid vmid => simp [exec_tlbiVmid, execTlbiVmid]
  | tlbiIova aw vw asid vmid tg lvl addr data =>
    rw [exec_tlbiIova, execTlbiIova]; split <;> simp
  | devGet dev => rw [exec_devGet, execDevGet]; split <;> simp
  | cfgSet dev cfg => simp [exec_cfgSet, execCfgSet]
  | cfgInv dev => rw [exec_cfgInv, execCfgInv]; split <;> simp
  | cntRead dev => rw [exec_cntRead, execCntRead]; split <;> simp
  | cntClr dev => rw [exec_cntClr, execCntClr]; split <;> simp

theorem startCommand_memoryKept (i : Instr) (s : State) : NextSatisfies (MemoryKept s) (startCommand i s) := by
  intro t ht
  rcases startCommand_cases ht with ht | ⟨dev, ia, -, acc, -, -, rfl⟩ | ⟨dev, ia, -, acc, -, -, rfl⟩
  · exact exec_memoryKept i s t ht
  · simp
  · simp

theorem takeRequest_memoryKept (whole : Bool) (p : Nat) (req : Request) (s : State) :
    NextSatisfies (MemoryKept s) (takeRequest whole p req s) := by
  cases hdecode : decode req with
  | error e => rw [takeRequest_of_error hdecode]; simp
  | ok i =>
    rw [takeRequest_of_decode hdecode]
    cases whole with
    | true => exact exec_memoryKept i (acceptRequest s p req)
    | false => exact startCommand_memoryKept i (acceptRequest s p req)

theorem takeInput_memoryKept {e : Input} (he : ∀ pa bytes, e ≠ .write pa bytes) (s : State) :
    NextSatisfies (MemoryKept s) (takeInput e s) := by
  cases e with
  | command p req => exact takeRequest_memoryKept true p req s
  | start p req => exact takeRequest_memoryKept false p req s
  | turn p => exact nextSatisfies_next.2 (takeTurn_mem p s)
  | write pa bytes => exact absurd rfl (he pa bytes)
  | readerErr pa fails => exact nextSatisfies_next.2 (setReaderErr_mem s.reader pa fails)
  | reset => exact nextSatisfies_next.2 rfl

theorem step_memoryKept {s : State} (h : ∀ pa bytes, s.inputs.head? ≠ some (.write pa bytes)) :
    NextSatisfies (MemoryKept s) (step s) := by
  cases hinputs : s.inputs with
  | nil => rw [step_nil hinputs]; exact nextSatisfies_next.2 rfl
  | cons e rest =>
    cases hwait : waitingFor e s with
    | some p => rw [step_cons_of_waiting hinputs hwait]; exact nextSatisfies_next.2 (takeTurn_mem p s)
    | none =>
      rw [step_cons_of_ready hinputs hwait]
      refine takeInput_memoryKept (fun pa bytes he => h pa bytes ?_) { s with inputs := rest }
      rw [hinputs, he, List.head?_cons]

/-- Settles O16: of the events only a write of another agent touches the list of bytes. -/
theorem engineNeverWritesMemory : Obligations.EngineNeverWritesMemory := by
  intro s t hhead hstep a
  have hkept : MemoryKept s t := step_memoryKept hhead t hstep
  rw [hkept]

end Sys2Proof.Machine
end

section
/-! SUPPORT. What a lookup finds after an invalidation by `asid` (rules R201, R202, R212). -/

namespace Sys2Proof.Machine

/-! ### Lookups in a cache from which pairs were removed (rules R201, R221) -/

/-- A lookup reads only the keys it probes. -/
theorem probe_congr {m m' : List (Key × Entry)} {cfg : TranslationConfig} {g : Granule} {ia : Word}
    (h : ∀ level, assocGet (probeKey cfg g ia level) m' = assocGet (probeKey cfg g ia level) m) :
    probe m' cfg g ia = probe m cfg g ia := by
  simp only [probe, h]

theorem probe_eq_none {m : List (Key × Entry)} {cfg : TranslationConfig} {g : Granule} {ia : Word}
    (h : ∀ level, assocGet (probeKey cfg g ia level) m = none) : probe m cfg g ia = none :=
  List.findSome?_eq_none_iff.2 fun level _ => h level

theorem assocGet_evict_of_gone {gone : Key × Entry → Bool} {k : Key} (h : ∀ e, gone (k, e) = true)
    (m : List (Key × Entry)) : assocGet k (evict gone m) = none :=
  assocGet_none_of_filter _ k m fun p _ hp => by rw [← Prod.eta p, hp, h]; rfl

theorem assocGet_evict_of_stays {gone : Key × Entry → Bool} {k : Key} (h : ∀ e, gone (k, e) = false)
    (m : List (Key × Entry)) : assocGet k (evict gone m) = assocGet k m :=
  assocGet_filter _ k m fun p _ hp => by rw [← Prod.eta p, hp, h]; rfl

/-- Settles O51: every key a lookup probes has the `asid` of its config, so they all go or all stay. -/
theorem invalidatedAsidForcesAMiss : Obligations.InvalidatedAsidForcesAMiss := by
  intro s t asid h cfg g ia
  cases h
  rw [respond_iotlb]
  have hprobed (level : Nat) : (probeKey cfg g ia level).asid = cfg.asid := rfl
  by_cases hasid : cfg.asid = asid
  · rw [if_pos hasid]
    exact probe_eq_none fun level => assocGet_evict_of_gone (fun _ => by simp [hprobed, hasid]) s.iotlb
  · rw [if_neg hasid]
    exact probe_congr fun level => assocGet_evict_of_stays (fun _ => by simp [hprobed, hasid]) s.iotlb

end Sys2Proof.Machine
end

section
/-! SUPPORT. No command reads or writes the events still to come; and a command run one atomic step at a time ends as the
command executed at once (rules R54, R62, R155), unless another requester's step comes in between (rule R65). -/

namespace Sys2Proof.Machine

/-! ### Commands neither read nor write the events to come (log 7) -/

/-- An outcome with its next state, if there is one, mapped. -/
def mapNext (f : State → State) : Host.Outcome State Fault Refusal → Host.Outcome State Fault Refusal
  | .next t => .next (f t)
  | .fault r => .fault r
  | .refused r => .refused r

/-- The state with other events to come. -/
def withInputs (inputs : List Input) (s : State) : State := { s with inputs := inputs }

@[simp] theorem mapNext_next (f : State → State) (t : State) : mapNext f (.next t) = .next (f t) := rfl

section
variable (inputs : List Input) (s : State)

@[simp] theorem portBusy_withInputs (p : Nat) : portBusy (withInputs inputs s) p = portBusy s p := rfl
@[simp] theorem deviceOf_withInputs (d : DevId) : deviceOf (withInputs inputs s) d = deviceOf s d := rfl
@[simp] theorem validConfig_withInputs (d : DevId) : validConfig (withInputs inputs s) d = validConfig s d := rfl
@[simp] theorem usableConfig_withInputs (d : DevId) : usableConfig (withInputs inputs s) d = usableConfig s d := rfl
@[simp] theorem withInputs_iotlb : (withInputs inputs s).iotlb = s.iotlb := rfl

theorem respond_withInputs (r : Reply) : respond r (withInputs inputs s) = withInputs inputs (respond r s) := rfl

theorem countLookup_withInputs (d : DevId) (hit : Bool) :
    countLookup (withInputs inputs s) d hit = withInputs inputs (countLookup s d hit) := by
  unfold countLookup
  rw [deviceOf_withInputs]
  cases deviceOf s d <;> rfl

theorem programDevice_withInputs (d : DevId) (cfg : TranslationConfig) :
    programDevice (withInputs inputs s) d cfg = withInputs inputs (programDevice s d cfg) := by
  unfold programDevice
  rw [deviceOf_withInputs]
  cases deviceOf s d <;> rfl

theorem finishJob_withInputs (cmd : WalkCommand) (cfg : TranslationConfig) (ia : Word) (r : WalkResult) :
    finishJob cmd cfg ia r (withInputs inputs s) = withInputs inputs (finishJob cmd cfg ia r s) := by
  cases r with
  | success e => cases cmd <;> rfl
  | failure f => rfl
  | configError => rfl

theorem answerHit_withInputs (e : Entry) (st : Stage) (ia : Word) (acc : AccessKind) :
    answerHit e st ia acc (withInputs inputs s) = withInputs inputs (answerHit e st ia acc s) := by
  unfold answerHit; split <;> rfl

theorem translateStepA_withInputs (dev : DevId) (ia : Word) (acc : AccessKind) :
    translateStepA dev ia acc (withInputs inputs s) =
      (withInputs inputs (translateStepA dev ia acc s).1, (translateStepA dev ia acc s).2) := by
  unfold translateStepA
  rw [usableConfig_withInputs]
  cases usableConfig s dev with
  | none => rfl
  | some p =>
    obtain ⟨cfg, st⟩ := p
    cases hg : lookupGranule cfg st ia with
    | error r => simp only [hg, finishJob_withInputs]
    | ok g =>
      cases hp : probe s.iotlb cfg g ia <;>
        simp only [hg, hp, withInputs_iotlb, countLookup_withInputs, answerHit_withInputs]

theorem ptwStepA_withInputs (dev : DevId) (ia : Word) (acc : AccessKind) :
    ptwStepA dev ia acc (withInputs inputs s) =
      (withInputs inputs (ptwStepA dev ia acc s).1, (ptwStepA dev ia acc s).2) := by
  unfold ptwStepA
  rw [usableConfig_withInputs]
  cases usableConfig s dev <;> rfl

end

theorem runToEnd_withInputs (inputs : List Input) (a : StepA) :
    runToEnd (withInputs inputs a.1, a.2) = withInputs inputs (runToEnd a) := by
  obtain ⟨s, _ | j⟩ := a
  · rfl
  · exact finishJob_withInputs inputs { s with reader := (finishWalk j.cfg j.ia j.acc 4 s.reader j.phase).1 } ..

theorem leaveInFlight_withInputs (inputs : List Input) (a : StepA) :
    leaveInFlight (withInputs inputs a.1, a.2) = withInputs inputs (leaveInFlight a) := by
  obtain ⟨s, _ | j⟩ := a <;> rfl

section
variable (inputs : List Input) (s : State)

theorem exec_withInputs (i : Instr) :
    exec i (withInputs inputs s) = mapNext (withInputs inputs) (exec i s) := by
  cases i with
  | translate dev addr acc =>
    rw [exec_translate, exec_translate, execTranslate, execTranslate]
    cases accessOfCode acc with
    | none => rfl
    | some a => simp only [translateStepA_withInputs, runToEnd_withInputs, mapNext_next]
  | ptw dev addr acc =>
    rw [exec_ptw, exec_ptw, execPtw, execPtw]
    cases accessOfCode acc with
    | none => rfl
    | some a => simp only [ptwStepA_withInputs, runToEnd_withInputs, mapNext_next]
  | tlbLookup dev rgn addr =>
    rw [exec_tlbLookup, exec_tlbLookup, execTlbLookup, execTlbLookup, validConfig_withInputs]
    cases validConfig s dev with
    | none => rfl
    | some cfg =>
      cases hg : lookupRegion cfg rgn with
      | none => simp only [hg]; rfl
      | some g =>
        cases hp : probe s.iotlb cfg g addr <;>
          simp only [hg, hp, withInputs_iotlb, countLookup_withInputs, respond_withInputs, mapNext_next]
  | tlbInsert dev addr data tg lvl perm =>
    rw [exec_tlbInsert, exec_tlbInsert, execTlbInsert, execTlbInsert, validConfig_withInputs]
    cases insertOperands tg lvl addr data with
    | none => rfl
    | some g => cases validConfig s dev <;> rfl
  | tlbiAll => rfl
  | tlbiAsid asid => rfl
  | tlbiVmid vmid => rfl
  | tlbiIova aw vw asid vmid tg lvl addr data =>
    rw [exec_tlbiIova, exec_tlbiIova, execTlbiIova, execTlbiIova]
    split <;> rfl
  | devGet dev =>
    rw [exec_devGet, exec_devGet, execDevGet, execDevGet, deviceOf_withInputs]
    cases deviceOf s dev <;> rfl
  | cfgSet dev cfg =>
    rw [exec_cfgSet, exec_cfgSet, execCfgSet, execCfgSet, programDevice_withInputs]
    rfl
  | cfgInv dev =>
    rw [exec_cfgInv, exec_cfgInv, execCfgInv, execCfgInv, deviceOf_withInputs]
    cases deviceOf s dev <;> rfl
  | cntRead dev =>
    rw [exec_cntRead, exec_cntRead, execCntRead, execCntRead, deviceOf_withInputs]
    cases deviceOf s dev <;> rfl
  | cntClr dev =>
    rw [exec_cntClr, exec_cntClr, execCntClr, execCntClr, deviceOf_withInputs]
    cases deviceOf s dev <;> rfl

theorem startCommand_withInputs (i : Instr) :
    startCommand i (withInputs inputs s) = mapNext (withInputs inputs) (startCommand i s) := by
  cases i with
  | translate dev addr acc =>
    change startTranslate dev addr acc _ = mapNext _ (startTranslate dev addr acc s)
    unfold startTranslate
    cases accessOfCode acc with
    | none => rfl
    | some a => simp only [translateStepA_withInputs, leaveInFlight_withInputs, mapNext_next]
  | ptw dev addr acc =>
    change startPtw dev addr acc _ = mapNext _ (startPtw dev addr acc s)
    unfold startPtw
    cases accessOfCode acc with
    | none => rfl
    | some a => simp only [ptwStepA_withInputs, leaveInFlight_withInputs, mapNext_next]
  | _ => simp only [startCommand, exec_withInputs]

theorem takeRequest_withInputs (whole : Bool) (p : Nat) (req : Request) :
    takeRequest whole p req (withInputs inputs s) = mapNext (withInputs inputs) (takeRequest whole p req s) := by
  cases hdecode : decode req with
  | error e => rw [takeRequest_of_error hdecode, takeRequest_of_error hdecode]; rfl
  | ok i =>
    rw [takeRequest_of_decode hdecode, takeRequest_of_decode hdecode]
    cases whole with
    | true => exact exec_withInputs inputs (acceptRequest s p req) i
    | false => exact startCommand_withInputs inputs (acceptRequest s p req) i

theorem jobStep_withInputs (j : Job) : jobStep j (withInputs inputs s) = withInputs inputs (jobStep j s) := by
  cases hphase : j.phase with
  | walking w => rw [jobStep_walking hphase, jobStep_walking hphase]; rfl
  | done r => rw [jobStep_done hphase, jobStep_done hphase, finishJob_withInputs]

theorem takeTurn_withInputs (p : Nat) : takeTurn p (withInputs inputs s) = withInputs inputs (takeTurn p s) := by
  cases hj : (portOf s p).inflight with
  | none => rw [takeTurn_of_idle hj, takeTurn_of_idle (s := withInputs inputs s) hj]
  | some j =>
    rw [takeTurn_of_inflight hj, takeTurn_of_inflight (s := withInputs inputs s) hj]
    exact jobStep_withInputs inputs { s with active := p } j

end

/-! ### Runs of turns -/

theorem run_succ {s t : State} (h : step s = .next t) (k : Nat) :
    Host.Core.run Sys2Proof.core (k + 1) s = Host.Core.run Sys2Proof.core k t := by
  have hstep : Sys2Proof.core.step s = .next t := h
  simp only [Host.Core.run, hstep]

theorem step_turn (p : Nat) (rest : List Input) (s : State) :
    step (withInputs (.turn p :: rest) s) = .next (withInputs rest (takeTurn p s)) :=
  (step_cons_of_ready rfl (waitingFor_turn _ p)).trans (congrArg _ (takeTurn_withInputs rest s p))

/-- As many steps as there are turns to come give the port these turns. -/
theorem run_turns (p n : Nat) (rest : List Input) (s : State) :
    Host.Core.run Sys2Proof.core n (withInputs (List.replicate n (.turn p) ++ rest) s) =
      .next (withInputs rest ((takeTurn p)^[n] s)) := by
  induction n generalizing s with
  | zero => rfl
  | succ n ih =>
    rw [List.replicate_succ, List.cons_append, run_succ (step_turn p _ s), ih, Function.iterate_succ_apply]

/-! ### The turns of a command in flight (rules R54, R62, R155) -/

/-- With at most `n` more fetches the walk comes to an end: it fetches from levels 0 to 3 only. -/
def EndsWithin (n : Nat) : Phase → Prop
  | .walking w => w.level ≤ 3 ∧ 4 ≤ w.level + n
  | .done _ => True

theorem dispatch_endsWithin (cfg : TranslationConfig) (ia : Word) : EndsWithin 4 (dispatch cfg ia) := by
  have hwf := dispatch_phaseWf cfg ia
  cases hphase : dispatch cfg ia with
  | walking w =>
    rw [hphase] at hwf
    exact ⟨hwf.1, Nat.le_add_left 4 w.level⟩
  | done r => trivial

/-- Below a Table the next level is fetched from, with one fetch less to go (rules R148, R167). -/
theorem walkFetch_endsWithin {n : Nat} {w : Walk} (h : EndsWithin (n + 1) (.walking w)) (rd : Reader)
    (cfg : TranslationConfig) (ia : Word) (acc : AccessKind) : EndsWithin n (walkFetch rd cfg ia acc w).2 := by
  obtain ⟨-, hfetches⟩ := h
  rcases walkFetch_cases rd cfg ia acc w with ⟨f, h, -⟩ | ⟨pte, b, hlevel, -, -, h, -⟩ | ⟨pte, perm, -, -, h, -⟩
  · rw [h]; trivial
  · rw [h]
    have hdown : (descend w pte b).level = w.level + 1 := rfl
    constructor <;> omega
  · rw [h]; trivial

theorem respond_keepInFlight (r : Reply) (s : State) (j : Job) : respond r (keepInFlight s j) = respond r s := by
  unfold respond keepInFlight setPort
  simp only [assocSet_set]

/-- The last step of a command overwrites its port. -/
theorem finishJob_keepInFlight (cmd : WalkCommand) (cfg : TranslationConfig) (ia : Word) (r : WalkResult) (s : State)
    (j : Job) : finishJob cmd cfg ia r (keepInFlight s j) = finishJob cmd cfg ia r s := by
  cases r with
  | success e =>
    cases cmd with
    | translate => exact respond_keepInFlight _ { s with iotlb := insertEntry s.params.iotlbCap s.iotlb cfg e } j
    | ptw => exact respond_keepInFlight _ s j
  | failure f => exact respond_keepInFlight _ s j
  | configError => exact respond_keepInFlight _ s j

theorem keepInFlight_keepInFlight (s : State) (j j' : Job) :
    keepInFlight (keepInFlight s j) j' = keepInFlight s j' := by
  have hport : portOf (keepInFlight s j) s.active = { portOf s s.active with inflight := some j } := by
    rw [portOf_keepInFlight, if_pos rfl]
  rw [keepInFlight, keepInFlight_active, hport]
  unfold keepInFlight setPort
  simp only [assocSet_set]

/-- A turn of the active port is the next step of the job it holds. -/
theorem takeTurn_keepInFlight (s : State) (j : Job) :
    takeTurn s.active (keepInFlight s j) = jobStep j (keepInFlight s j) :=
  takeTurn_of_inflight (by rw [portOf_keepInFlight, if_pos rfl])

/-- A fetch leaves the port with the job one fetch on, and the Memory Reader with what was asked. -/
theorem takeTurn_walking {j : Job} {w : Walk} (h : j.phase = .walking w) (s : State) :
    takeTurn s.active (keepInFlight s j) =
      keepInFlight { s with reader := (walkFetch s.reader j.cfg j.ia j.acc w).1 }
        { j with phase := (walkFetch s.reader j.cfg j.ia j.acc w).2 } := by
  rw [takeTurn_keepInFlight, jobStep_walking h]
  exact keepInFlight_keepInFlight { s with reader := (walkFetch s.reader j.cfg j.ia j.acc w).1 } j _

theorem takeTurn_done {j : Job} {r : WalkResult} (h : j.phase = .done r) (s : State) :
    takeTurn s.active (keepInFlight s j) = finishJob j.cmd j.cfg j.ia r s := by
  rw [takeTurn_keepInFlight, jobStep_done h, finishJob_keepInFlight]

/-- A command that has been answered makes nothing of further turns. -/
theorem turns_answered (n : Nat) (reply : Reply) (s : State) :
    (takeTurn s.active)^[n] (respond reply s) = respond reply s :=
  Function.iterate_fixed (takeTurn_of_idle (by rw [portOf_respond, if_pos rfl])) n

theorem turns_finished (n : Nat) (cmd : WalkCommand) (cfg : TranslationConfig) (ia : Word) (r : WalkResult) (s : State) :
    (takeTurn s.active)^[n] (finishJob cmd cfg ia r s) = finishJob cmd cfg ia r s := by
  obtain ⟨m, reply, h, -⟩ := finishJob_cases cmd cfg ia r s
  rw [h]
  exact turns_answered n reply { s with iotlb := m }

theorem turns_done {j : Job} {r : WalkResult} (h : j.phase = .done r) (n : Nat) (s : State) :
    (takeTurn s.active)^[n + 1] (keepInFlight s j) = finishJob j.cmd j.cfg j.ia r s := by
  rw [Function.iterate_succ_apply, takeTurn_done h, turns_finished]

/-- A job whose walk ends within `n` fetches is finished by these and one more turn, as if its walk were run to its end. -/
theorem turns_finish_job (n : Nat) (j : Job) (s : State) (h : EndsWithin n j.phase) :
    (takeTurn s.active)^[n + 1] (keepInFlight s j) =
      finishJob j.cmd j.cfg j.ia (finishWalk j.cfg j.ia j.acc n s.reader j.phase).2
        { s with reader := (finishWalk j.cfg j.ia j.acc n s.reader j.phase).1 } := by
  induction n generalizing j s with
  | zero =>
    cases hphase : j.phase with
    | done r => rw [turns_done hphase, finishWalk_done]
    | walking w =>
      rw [hphase] at h
      obtain ⟨hlevel, hfetches⟩ := h
      omega
  | succ n ih =>
    cases hphase : j.phase with
    | done r => rw [turns_done hphase, finishWalk_done]
    | walking w =>
      rw [hphase] at h
      rw [Function.iterate_succ_apply, takeTurn_walking hphase, finishWalk_walking]
      exact ih { j with phase := (walkFetch s.reader j.cfg j.ia j.acc w).2 }
        { s with reader := (walkFetch s.reader j.cfg j.ia j.acc w).1 } (walkFetch_endsWithin h ..)

/-! ### The turns of a command (rules R62, R155, R172) -/

/-- Four fetches and a last step are the rest of a command after its step A, if this left its walk at its beginning. -/
theorem turns_begun (cmd : WalkCommand) (cfg : TranslationConfig) (ia : Word) (acc : AccessKind) (s : State) :
    (takeTurn s.active)^[5] (leaveInFlight (s, some ⟨cmd, cfg, ia, acc, dispatch cfg ia⟩)) =
      runToEnd (s, some ⟨cmd, cfg, ia, acc, dispatch cfg ia⟩) :=
  turns_finish_job 4 _ s (dispatch_endsWithin cfg ia)

theorem turns_translateStepA (dev : DevId) (ia : Word) (acc : AccessKind) (s : State) :
    (takeTurn s.active)^[5] (leaveInFlight (translateStepA dev ia acc s)) = runToEnd (translateStepA dev ia acc s) := by
  have hactive (hit : Bool) : s.active = (countLookup s dev hit).active := (countLookup_active s dev hit).symm
  rcases translateStepA_cases dev ia acc s with ⟨reply, h⟩ | ⟨reply, h⟩ | ⟨cfg, h⟩
  · rw [h]; exact turns_answered 5 reply s
  · rw [h, hactive true]; exact turns_answered 5 reply _
  · rw [h, hactive false]; exact turns_begun .translate cfg ia acc _

theorem turns_ptwStepA (dev : DevId) (ia : Word) (acc : AccessKind) (s : State) :
    (takeTurn s.active)^[5] (leaveInFlight (ptwStepA dev ia acc s)) = runToEnd (ptwStepA dev ia acc s) := by
  rcases ptwStepA_cases dev ia acc s with h | ⟨cfg, h⟩
  · rw [h]; exact turns_answered 5 _ s
  · rw [h]; exact turns_begun .ptw cfg ia acc s

/-- Five turns after its first step a command is where it is when executed at once. -/
theorem exec_of_startCommand {i : Instr} {s t : State} (h : startCommand i s = .next t) :
    exec i s = .next ((takeTurn s.active)^[5] t) := by
  rcases startCommand_cases h with h | ⟨dev, ia, code, acc, rfl, hacc, rfl⟩ | ⟨dev, ia, code, acc, rfl, hacc, rfl⟩
  · rw [h, Function.iterate_fixed (takeTurn_of_idle (exec_inflight h))]
  · rw [exec_translate, execTranslate, hacc, turns_translateStepA]
  · rw [exec_ptw, execPtw, hacc, turns_ptwStepA]

theorem takeRequest_whole_of_first {p : Nat} {req : Request} {s t : State} (h : takeRequest false p req s = .next t) :
    takeRequest true p req s = .next ((takeTurn p)^[5] t) := by
  cases hdecode : decode req with
  | error e =>
    rw [takeRequest_of_error hdecode] at h ⊢
    cases h
    exact congrArg _ (turns_answered 5 .badCommand (acceptRequest s p req)).symm
  | ok i =>
    rw [takeRequest_of_decode hdecode] at h ⊢
    exact exec_of_startCommand h

theorem step_start {s : State} {p : Nat} (h : portBusy s p = false) (req : Request) (rest : List Input) :
    step (withInputs (.start p req :: rest) s) = mapNext (withInputs rest) (takeRequest false p req s) :=
  (step_cons_of_ready (s := withInputs (.start p req :: rest) s) rfl (by simp [h])).trans
    (takeRequest_withInputs rest s false p req)

theorem step_command {s : State} {p : Nat} (h : portBusy s p = false) (req : Request) (rest : List Input) :
    step (withInputs (.command p req :: rest) s) = mapNext (withInputs rest) (takeRequest true p req s) :=
  (step_cons_of_ready (s := withInputs (.command p req :: rest) s) rfl (by simp [h])).trans
    (takeRequest_withInputs rest s true p req)

/-- Settles O10: a fetch takes the walk a level down or ends it, and there are four levels to fetch from, so four fetches and
one more turn bring the port to its answer. -/
theorem stepwiseExecutionIsTheWholeCommand : Obligations.StepwiseExecutionIsTheWholeCommand := by
  intro s p req rest hidle
  obtain ⟨t, hfirst, -⟩ := takeRequest_goesOn false p req s
  have hwhole := takeRequest_whole_of_first hfirst
  have hstart := step_start hidle req (List.replicate 5 (.turn p) ++ rest)
  have hcommand := step_command hidle req rest
  rw [hfirst, mapNext_next] at hstart
  rw [hwhole, mapNext_next] at hcommand
  exact ((run_succ hstart 5).trans (run_turns p 5 rest t)).trans (run_succ hcommand 0).symm

/-! ### An insert that races an invalidation (rule R65) -/

/-- A `TLBI_ALL` that arrives empties the IOTLB and leaves the other ports, and what is in flight there, as they are. -/
theorem takeRequest_tlbiAll (q : Nat) (s : State) :
    ∃ t, takeRequest true q (encode .tlbiAll) s = .next t ∧ t.iotlb = [] ∧ ∀ p, p ≠ q → portOf t p = portOf s p := by
  have htake : takeRequest true q (encode .tlbiAll) s =
      .next (respond .ok { acceptRequest s q (encode .tlbiAll) with iotlb := [] }) :=
    takeRequest_of_decode (i := .tlbiAll) rfl true q s
  exact ⟨_, htake, rfl, fun p hp => takeRequest_other_port htake hp⟩

/-- The last step of a `TRANSLATE` whose walk has succeeded inserts the entry (rule R188). -/
theorem takeTurn_iotlb_of_success {s : State} {p : Nat} {cfg : TranslationConfig} {ia : Word} {acc : AccessKind}
    {e : Entry} (h : (portOf s p).inflight = some ⟨.translate, cfg, ia, acc, .done (.success e)⟩) :
    (takeTurn p s).iotlb = insertEntry s.params.iotlbCap s.iotlb cfg e := by
  rw [takeTurn_of_inflight h]
  rfl

theorem insertEntry_nil (cap : Nat) (cfg : TranslationConfig) (e : Entry) :
    insertEntry cap [] cfg e = [(keyOfEntry cfg e, e)] := by
  rw [insertEntry, ite_self]
  rfl

theorem run_tlbiAll_then_turn {s : State} {p q : Nat} (hpq : p ≠ q) (hidle : portBusy s q = false)
    {cfg : TranslationConfig} {ia : Word} {acc : AccessKind} {e : Entry}
    (h : (portOf s p).inflight = some ⟨.translate, cfg, ia, acc, .done (.success e)⟩) :
    ∃ t, Host.Core.run Sys2Proof.core 2 (withInputs [.command q (encode .tlbiAll), .turn p] s) = .next t ∧
      t.iotlb = [(keyOfEntry cfg e, e)] := by
  obtain ⟨t, htake, hempty, hports⟩ := takeRequest_tlbiAll q s
  have hfirst := step_command hidle (encode .tlbiAll) [.turn p]
  rw [htake, mapNext_next] at hfirst
  refine ⟨_, (run_succ hfirst 1).trans (run_turns p 1 [] t), ?_⟩
  rw [← hports p hpq] at h
  rw [withInputs_iotlb, Function.iterate_one, takeTurn_iotlb_of_success h, hempty, insertEntry_nil]

theorem run_turn_then_tlbiAll {s : State} {p q : Nat} (hqp : q ≠ p) (hidle : portBusy s q = false) :
    ∃ t, Host.Core.run Sys2Proof.core 2 (withInputs [.turn p, .command q (encode .tlbiAll)] s) = .next t ∧
      t.iotlb = [] := by
  have hidle' : portBusy (takeTurn p s) q = false := by rw [portBusy, takeTurn_other_port s hqp]; exact hidle
  obtain ⟨t, htake, hempty, -⟩ := takeRequest_tlbiAll q (takeTurn p s)
  have hsecond := step_command hidle' (encode .tlbiAll) []
  rw [htake, mapNext_next] at hsecond
  exact ⟨_, (run_succ (step_turn p _ s) 1).trans (run_succ hsecond 0), hempty⟩

/-- Settles O11: the insert goes into whatever cache its step finds, and the invalidation empties whatever cache it finds. -/
theorem racingInsertMaySurviveOrNot : Obligations.RacingInsertMaySurviveOrNot :=
  fun _ _ _ _ _ _ _ hqp hjob hidle =>
    ⟨run_tlbiAll_then_turn hqp.symm hidle hjob, run_turn_then_tlbiAll hqp hidle⟩

end Sys2Proof.Machine
end

section
/-! SUPPORT. The request and response encodings (`spec/30_encoding.md` rules R91 to R100): what a packed word holds at each
place, that the decoder reads what the encoder packs, and that the encoder packs what the decoder reads. -/

namespace Sys2Proof.Machine

/-! ### Words packed from fields (rules R91, R96, R100) -/

/-- Two neighbouring fields of a word are the packed field when each is its part. -/
theorem extractLsb'_eq_append_iff {k n m : Nat} {w : BitVec k} {s : Nat} {x : BitVec n} {y : BitVec m} :
    w.extractLsb' s (n + m) = x ++ y ↔ w.extractLsb' (s + m) n = x ∧ w.extractLsb' s m = y := by
  rw [← BitVec.extractLsb'_append_extractLsb'_eq_extractLsb' rfl]
  constructor
  · intro h
    have hx := congrArg (BitVec.extractLsb' m n) h
    have hy := congrArg (BitVec.extractLsb' 0 m) h
    rw [BitVec.extractLsb'_append_eq_left, BitVec.extractLsb'_append_eq_left] at hx
    rw [BitVec.extractLsb'_append_eq_right, BitVec.extractLsb'_append_eq_right] at hy
    exact ⟨hx, hy⟩
  · rintro ⟨rfl, rfl⟩; rfl

theorem extractLsb'_eq_ofBool_iff {k : Nat} {w : BitVec k} {s : Nat} {b : Bool} :
    w.extractLsb' s 1 = BitVec.ofBool b ↔ w.getLsbD s = b := by
  rw [BitVec.getLsbD_eq_extractLsb']
  generalize w.extractLsb' s 1 = v
  revert v; cases b <;> decide

/-- A word as one field, to be cut into the fields it is packed from. -/
theorem eq_iff_extractLsb'_zero {n : Nat} {w x : BitVec n} : w = x ↔ w.extractLsb' 0 n = x := by
  rw [BitVec.extractLsb'_eq_self]

/-- `W0`, field by field (rule R91). -/
theorem eq_packW0_iff {w : Word} {vmid asid : BitVec 16} {perm lvl tg : BitVec 2} {vw aw : Bool} {rgn : RegionIx}
    {acc : BitVec 2} {op : BitVec 8} : w = packW0 vmid asid perm lvl tg vw aw rgn acc op ↔
      w.extractLsb' 48 16 = vmid ∧ w.extractLsb' 32 16 = asid ∧ w.extractLsb' 19 13 = 0 ∧ w.extractLsb' 17 2 = perm ∧
      w.extractLsb' 15 2 = lvl ∧ w.extractLsb' 13 2 = tg ∧ w.getLsbD 12 = vw ∧ w.getLsbD 11 = aw ∧
      w.getLsbD 10 = (rgn == .r1) ∧ w.extractLsb' 8 2 = acc ∧ w.extractLsb' 0 8 = op := by
  refine eq_iff_extractLsb'_zero.trans ?_
  change w.extractLsb' 0 (16 + 16 + 13 + 2 + 2 + 2 + 1 + 1 + 1 + 2 + 8) = _ ↔ _
  simp only [packW0, extractLsb'_eq_append_iff, extractLsb'_eq_ofBool_iff, and_assoc]
  rfl

/-- `W3`, field by field (rule R91). -/
theorem eq_packW3_iff {w : Word} {dev : DevId} :
    w = packW3 dev ↔ w.extractLsb' 16 48 = 0 ∧ w.extractLsb' 0 16 = dev := by
  refine eq_iff_extractLsb'_zero.trans ?_
  change w.extractLsb' 0 (48 + 16) = _ ↔ _
  simp only [packW3, extractLsb'_eq_append_iff]
  rfl

/-- `K1` or `K2`, field by field (rule R100). -/
theorem eq_packTableInfo_iff {k : Word} {t : TableInfo} : k = packTableInfo t ↔
    k.extractLsb' 58 6 = 0 ∧ k.getLsbD 57 = t.had ∧ k.getLsbD 56 = t.disabled ∧ k.extractLsb' 54 2 = t.tg ∧
    k.extractLsb' 48 6 = t.tsz ∧ k.extractLsb' 0 48 = t.tableBase := by
  refine eq_iff_extractLsb'_zero.trans ?_
  change k.extractLsb' 0 (6 + 1 + 1 + 2 + 6 + 48) = _ ↔ _
  simp only [packTableInfo, extractLsb'_eq_append_iff, extractLsb'_eq_ofBool_iff, and_assoc]
  rfl

/-- `K3`, field by field (rule R100). -/
theorem eq_packStage2Info_iff {k : Word} {t : Stage2Info} : k = packStage2Info t ↔
    k.extractLsb' 59 5 = 0 ∧ k.getLsbD 58 = t.affd ∧ k.extractLsb' 56 2 = t.sl0 ∧ k.extractLsb' 54 2 = t.tg ∧
    k.extractLsb' 48 6 = t.tsz ∧ k.extractLsb' 0 48 = t.tableBase := by
  refine eq_iff_extractLsb'_zero.trans ?_
  change k.extractLsb' 0 (5 + 1 + 2 + 2 + 6 + 48) = _ ↔ _
  simp only [packStage2Info, extractLsb'_eq_append_iff, extractLsb'_eq_ofBool_iff, and_assoc]
  rfl

/-- `K0`, field by field (rule R100). -/
theorem eq_packConfig_iff {k : Word} {c : TranslationConfig} : k = packConfig c ↔
    k.extractLsb' 50 14 = 0 ∧ k.extractLsb' 44 6 = c.effPs ∧ k.extractLsb' 28 16 = c.vmid ∧
    k.extractLsb' 12 16 = c.asid ∧ k.extractLsb' 6 6 = c.oas ∧ k.extractLsb' 4 2 = c.tbi ∧ k.getLsbD 3 = c.affd ∧
    k.getLsbD 2 = c.aa64 ∧ k.extractLsb' 0 2 = c.stage := by
  refine eq_iff_extractLsb'_zero.trans ?_
  change k.extractLsb' 0 (14 + 6 + 16 + 16 + 6 + 2 + 1 + 1 + 2) = _ ↔ _
  simp only [packConfig, extractLsb'_eq_append_iff, extractLsb'_eq_ofBool_iff, and_assoc]
  rfl

/-! ### The decoder reads what the encoder packs -/

@[simp] theorem tableInfoOfWord_packTableInfo (t : TableInfo) : tableInfoOfWord (packTableInfo t) = t := by
  obtain ⟨-, hhad, hdisabled, htg, htsz, hbase⟩ := eq_packTableInfo_iff.1 (Eq.refl (packTableInfo t))
  rw [tableInfoOfWord, hhad, hdisabled, htg, htsz, hbase]

@[simp] theorem stage2InfoOfWord_packStage2Info (t : Stage2Info) : stage2InfoOfWord (packStage2Info t) = t := by
  obtain ⟨-, haffd, hsl0, htg, htsz, hbase⟩ := eq_packStage2Info_iff.1 (Eq.refl (packStage2Info t))
  rw [stage2InfoOfWord, haffd, hsl0, htg, htsz, hbase]

theorem configOfRequest_encode (dev : DevId) (c : TranslationConfig) :
    configOfRequest (encode (.cfgSet dev c)) = c := by
  obtain ⟨-, heffPs, hvmid, hasid, hoas, htbi, haffd, haa64, hstage⟩ := eq_packConfig_iff.1 (Eq.refl (packConfig c))
  simp only [configOfRequest, encode, heffPs, hvmid, hasid, hoas, htbi, haffd, haa64, hstage,
    tableInfoOfWord_packTableInfo, stage2InfoOfWord_packStage2Info]

/-- The operands read from the encoding of a command are the command's own (rules R91, R93). -/
theorem assemble_encode (i : Instr) : assemble i.opcode (encode i) = i := by
  have hW3 (dev : DevId) := eq_packW3_iff.1 (Eq.refl (packW3 dev))
  have hW0 (vmid asid perm lvl tg vw aw rgn acc op) :=
    eq_packW0_iff.1 (Eq.refl (packW0 vmid asid perm lvl tg vw aw rgn acc op))
  cases i with
  | tlbLookup dev rgn addr =>
    simp only [Instr.opcode, assemble, encode, formatR, devField, hW3, rgnField, hW0]
    cases rgn <;> rfl
  | cfgSet dev cfg =>
    change Instr.cfgSet ((packW3 dev).extractLsb' 0 16) (configOfRequest (encode (.cfgSet dev cfg))) = .cfgSet dev cfg
    rw [(hW3 dev).2, configOfRequest_encode]
  | _ =>
    simp only [Instr.opcode, assemble, encode, formatR, devField, hW3, accField, tgField, lvlField, permField, asidField,
      vmidField, awField, vwField, hW0]

/-! ### The encoder packs what the decoder reads -/

/-- The bits outside a mask are all there is when the mask finds none. -/
theorem and_eq_zero_iff_and_not_eq {n : Nat} {w m : BitVec n} : w &&& m = 0 ↔ w &&& ~~~m = w := by
  constructor
  · intro h
    ext i hi
    have hbit := congrArg (fun v => v[i]) h
    simpa using hbit
  · intro h
    rw [← h, BitVec.and_assoc, BitVec.and_comm (~~~m)]
    simp

/-- A mask that has all bits keeps all bits. -/
theorem and_eq_self_of_eq_allOnes {n : Nat} {x m : BitVec n} (h : m = BitVec.allOnes n) : x &&& m = x := by
  rw [h, BitVec.and_allOnes]

/-- The bits of a request that the command reads (rules R91, R93, R100). -/
def readPart (o : Opcode) (r : Request) : Request where
  w0 := r.w0 &&& ~~~w0Zero o
  w1 := if usesAddr o then r.w1 else 0
  w2 := if usesData o then r.w2 else 0
  w3 := r.w3 &&& ~~~(if usesDev o then 0xFFFFFFFFFFFF0000 else 0xFFFFFFFFFFFFFFFF)
  k0 := if isFormatC o then r.k0 &&& ~~~0xFFFC000000000000 else 0
  k1 := if isFormatC o then r.k1 &&& ~~~0xFC00000000000000 else 0
  k2 := if isFormatC o then r.k2 &&& ~~~0xFC00000000000000 else 0
  k3 := if isFormatC o then r.k3 &&& ~~~0xF800000000000000 else 0

/-- The words of a request that are sent: format R has no config words (rule R90). -/
def sentPart (o : Opcode) (r : Request) : Request :=
  if isFormatC o then r else { r with k0 := 0, k1 := 0, k2 := 0, k3 := 0 }

theorem packW3_devField (r : Request) : packW3 (devField r) = r.w3 &&& ~~~0xFFFFFFFFFFFF0000 := by
  refine (eq_packW3_iff.2 ?_).symm
  simp (disch := decide) [devField, BitVec.extractLsb'_and, and_eq_self_of_eq_allOnes]

theorem packTableInfo_tableInfoOfWord (k : Word) :
    packTableInfo (tableInfoOfWord k) = k &&& ~~~0xFC00000000000000 := by
  refine (eq_packTableInfo_iff.2 ?_).symm
  simp (disch := decide) [tableInfoOfWord, BitVec.extractLsb'_and, and_eq_self_of_eq_allOnes]

theorem packStage2Info_stage2InfoOfWord (k : Word) :
    packStage2Info (stage2InfoOfWord k) = k &&& ~~~0xF800000000000000 := by
  refine (eq_packStage2Info_iff.2 ?_).symm
  simp (disch := decide) [stage2InfoOfWord, BitVec.extractLsb'_and, and_eq_self_of_eq_allOnes]

theorem packConfig_configOfRequest (r : Request) : packConfig (configOfRequest r) = r.k0 &&& ~~~0xFFFC000000000000 := by
  refine (eq_packConfig_iff.2 ?_).symm
  simp (disch := decide) [configOfRequest, BitVec.extractLsb'_and, and_eq_self_of_eq_allOnes]

theorem rgnField_beq_r1 (r : Request) : (rgnField r == .r1) = r.w0.getLsbD 10 := by
  unfold rgnField; cases r.w0.getLsbD 10 <;> rfl

/-- `W0` packed from the operands read from a request has the bits of `W0` that the command reads (rules R91, R93): of each
field `w0Zero` keeps out either all bits or none. -/
theorem encode_assemble_w0 {o : Opcode} {r : Request} (h : opField r = opcodeCode o) :
    (encode (assemble o r)).w0 = r.w0 &&& ~~~w0Zero o := by
  have hop : r.w0.extractLsb' 0 8 = opcodeCode o := h
  cases o <;> refine (eq_packW0_iff.2 ?_).symm <;>
    simp (disch := decide) [w0Zero, ← hop, accField, rgnField_beq_r1, tgField, lvlField, permField, asidField, vmidField,
      awField, vwField, BitVec.extractLsb'_and, and_eq_self_of_eq_allOnes]

/-- The operands read from a request, encoded, are the bits of the request that its command reads. -/
theorem encode_assemble {o : Opcode} {r : Request} (h : opField r = opcodeCode o) :
    encode (assemble o r) = readPart o r := by
  have hw0 := encode_assemble_w0 h
  cases o with
  | cfgSet =>
    change plainW0 .cfgSet = _ at hw0
    change Request.mk (plainW0 .cfgSet) 0 0 (packW3 (devField r)) (packConfig (configOfRequest r))
      (packTableInfo (tableInfoOfWord r.k1)) (packTableInfo (tableInfoOfWord r.k2))
      (packStage2Info (stage2InfoOfWord r.k3)) = _
    rw [hw0, packW3_devField, packConfig_configOfRequest, packTableInfo_tableInfoOfWord, packTableInfo_tableInfoOfWord,
      packStage2Info_stage2InfoOfWord]
    rfl
  | _ =>
    simp only [assemble, encode, formatR] at hw0 ⊢
    rw [hw0]
    simp [readPart, usesAddr, usesData, usesDev, isFormatC, packW3_devField]

/-! ### What is decoded (rules R93, R95) -/

theorem opcodeOfCode_opcodeCode (o : Opcode) : opcodeOfCode (opcodeCode o) = some o := by
  cases o <;> rfl

theorem opcodeOfCode_eq_some_iff {c : BitVec 8} {o : Opcode} : opcodeOfCode c = some o ↔ c = opcodeCode o := by
  constructor
  · intro h
    have hcode := List.find?_some (p := fun o => opcodeCode o == c) h
    exact (beq_iff_eq.1 hcode).symm
  · rintro rfl
    exact opcodeOfCode_opcodeCode o

/-- A word that is read only where `b` is set. -/
theorem ite_zero_eq_self_iff {b : Bool} {x : Word} : (if b then x else 0) = x ↔ (b = false → x = 0) := by
  cases b with
  | false => exact ⟨fun h _ => h.symm, fun h => (h rfl).symm⟩
  | true => exact ⟨fun _ h => (Bool.noConfusion h), fun _ => rfl⟩

/-- What is sent of a request has no set bit that its command does not read exactly when it passes the checks of the decoder
(rule R95). -/
theorem readPart_eq_sentPart_iff {o : Opcode} {r : Request} : readPart o r = sentPart o r ↔
    r.w0 &&& w0Zero o = 0 ∧ (usesAddr o = false → r.w1 = 0) ∧ (usesData o = false → r.w2 = 0) ∧
    r.w3 &&& (if usesDev o then 0xFFFFFFFFFFFF0000 else 0xFFFFFFFFFFFFFFFF) = 0 ∧
    (isFormatC o = true → configWordsClean r = true) := by
  obtain ⟨w0, w1, w2, w3, k0, k1, k2, k3⟩ := r
  cases hformat : isFormatC o <;>
    simp only [readPart, sentPart, hformat, configWordsClean, Request.mk.injEq, ite_zero_eq_self_iff,
      and_eq_zero_iff_and_not_eq, Bool.and_eq_true, beq_iff_eq, if_true, Bool.false_eq_true, if_false, and_true,
      false_implies, true_implies, and_assoc]

/-- A check that is made before an answer. -/
theorem ite_error_eq_ok_iff {c : Prop} [Decidable c] {e : DecodeError} {x : Except DecodeError Instr} {i : Instr} :
    (if c then .error e else x) = .ok i ↔ ¬c ∧ x = .ok i := by
  by_cases h : c <;> simp [h]

/-- A request is decoded when its opcode names a command and its checks are passed, to the operands the command reads. -/
theorem decode_eq_ok_iff {r : Request} {i : Instr} : decode r = .ok i ↔
    ∃ o, opField r = opcodeCode o ∧ readPart o r = sentPart o r ∧ assemble o r = i := by
  simp only [readPart_eq_sentPart_iff, ← opcodeOfCode_eq_some_iff]
  unfold decode
  cases opcodeOfCode (opField r) with
  | none => simp
  | some o =>
    simp only [ite_error_eq_ok_iff, not_ne_iff, not_and, Bool.not_eq_false, Except.ok.injEq, Option.some.injEq,
      exists_eq_left', and_assoc]

theorem opcode_assemble (o : Opcode) (r : Request) : (assemble o r).opcode = o := by
  cases o <;> rfl

theorem opField_encode (i : Instr) : opField (encode i) = opcodeCode i.opcode := by
  cases i <;> exact Laws.EncodedOpcode.packW0_op ..

theorem sentPart_encode (i : Instr) : sentPart i.opcode (encode i) = encode i := by
  cases i <;> rfl

/-- Settles O1: the decoder reads back the operands, and what it reads, encoded, is all of the request, so that no check of
the decoder fails. -/
theorem decodeOfEncodeIsTheCommand : Obligations.DecodeOfEncodeIsTheCommand := by
  intro i
  have hassemble := assemble_encode i
  have hread : readPart i.opcode (encode i) = encode i :=
    (encode_assemble (opField_encode i)).symm.trans (congrArg encode hassemble)
  exact decode_eq_ok_iff.2 ⟨i.opcode, opField_encode i, hread.trans (sentPart_encode i).symm, hassemble⟩

/-- Settles O2: the operands read from a decoded request, encoded, are the bits its command reads, and it has no others. -/
theorem encodeOfDecodedRequestIsTheRequest : Obligations.EncodeOfDecodedRequestIsTheRequest := by
  intro r i h
  obtain ⟨o, hop, hread, rfl⟩ := decode_eq_ok_iff.1 h
  rw [opcode_assemble, encode_assemble hop, hread]
  rfl

/-- The reserved opcodes (rule R95). -/
theorem opcodeOfCode_eq_none_iff {c : BitVec 8} : opcodeOfCode c = none ↔
    c.toNat ∈ [0x00, 0x05, 0x06, 0x07, 0x0C, 0x0D, 0x0E, 0x0F] ∨ 0x15 ≤ c.toNat := by
  simp only [opcodeOfCode, allOpcodes, opcodeCode, List.find?_eq_none, List.mem_cons, List.not_mem_nil, or_false,
    forall_eq_or_imp, forall_eq, beq_iff_eq, ← BitVec.toNat_inj, BitVec.ofNat_eq_ofNat, BitVec.toNat_ofNat,
    Nat.reducePow, Nat.one_mod, Nat.reduceMod]
  omega

theorem decode_eq_reservedOpcode_iff {r : Request} :
    decode r = .error (.reservedOpcode (opField r)) ↔ opcodeOfCode (opField r) = none := by
  unfold decode
  cases opcodeOfCode (opField r) with
  | none => simp
  | some o => dsimp only; split_ifs <;> simp

/-- Settles O3: a request is turned away as reserved when the opcode map has no row for its opcode, and the map leaves out
these codes. -/
theorem reservedOpcodesNameNoCommand : Obligations.ReservedOpcodesNameNoCommand :=
  fun _ => opcodeOfCode_eq_none_iff.symm.trans decode_eq_reservedOpcode_iff.symm

/-- Settles O4: the decoder is run on the five requests. -/
theorem writtenOutWordsDecode : Obligations.WrittenOutWordsDecode :=
  ⟨rfl, rfl, rfl, rfl, rfl⟩

/-! ### The response words (rules R96 to R98) -/

/-- A packed field counts with the weight of its lowest bit. -/
theorem toNat_append_eq_add {n m : Nat} (x : BitVec n) (y : BitVec m) : (x ++ y).toNat = x.toNat * 2 ^ m + y.toNat := by
  rw [BitVec.toNat_append, ← Nat.shiftLeft_add_eq_or_of_lt y.isLt, Nat.shiftLeft_eq]

/-- `P0`, field by field (rule R96). -/
theorem packP0_toNat (cfgv flag : Bool) (tg level perm stage : BitVec 2) (kind : BitVec 3) (status : BitVec 4) :
    (packP0 cfgv flag tg level perm stage kind status).toNat =
      status.toNat + kind.toNat * 2 ^ 4 + stage.toNat * 2 ^ 7 + perm.toNat * 2 ^ 9 + level.toNat * 2 ^ 11 +
      tg.toNat * 2 ^ 13 + flag.toNat * 2 ^ 15 + cfgv.toNat * 2 ^ 16 := by
  simp only [packP0, toNat_append_eq_add, BitVec.toNat_ofBool, BitVec.toNat_ofNat]
  omega

/-- Settles O5: `P0` as a sum of its fields, for an entry and for every fault kind and stage; the other answers are constants
or, for `DEV_GET`, have four values. -/
theorem responseFieldsStandInTheirPlaces : Obligations.ResponseFieldsStandInTheirPlaces := by
  refine ⟨fun e flag out => ⟨?_, rfl, rfl, rfl⟩, fun f => ⟨?_, rfl, rfl, rfl⟩, ?_, fun _ _ => rfl, rfl, rfl, rfl, rfl⟩
  · simp [replyWords, packP0_toNat]
  · obtain ⟨kind, stage, addr⟩ := f
    cases kind <;> cases stage <;> simp [replyWords, packP0_toNat, faultCode, stageCode]
  · decide

end Sys2Proof.Machine
end

section
/-! SUPPORT. The Descriptor Decoder and the geometry: the class of a page-table entry, its output address and the index of a
level (rules R81 and R110 to R120). -/

namespace Sys2Proof.Machine

/-! ### The geometry (rules R110 to R112) -/

/-- Settles O23: `level_shift` is evaluated at the five levels of each granule. -/
theorem levelShiftTable : Obligations.LevelShiftTable :=
  ⟨rfl, rfl, rfl⟩

theorem stride_le (g : Granule) : stride g ≤ 64 :=
  (stride_bounds g).2.trans (by decide)

/-- The two masks of `index` are remainders, its shift a division (rule R112). -/
theorem tableIndex_toNat (ia : Word) {inputsize : Nat} (h : inputsize ≤ 64) (level : Nat) (g : Granule) :
    (tableIndex ia inputsize level g).toNat =
      ia.toNat % 2 ^ inputsize / 2 ^ levelShift level g % 2 ^ stride g := by
  rw [tableIndex, and_mask_toNat _ (stride_le g), BitVec.toNat_ushiftRight, Nat.shiftRight_eq_div_pow,
    and_mask_toNat _ h]

/-- Settles O24: the index as remainders and a division, where `stride(g)` is `g - 3` (rule R111). -/
theorem tableIndexIsAnInputField : Obligations.TableIndexIsAnInputField :=
  fun ia _ level g h => tableIndex_toNat ia h level g

/-! ### The output address (rules R113, R114) -/

/-- `mask(48)` leaves the bits below 48, and masking off `mask(shift)` those from `shift` on. -/
theorem outputAddress_getLsbD (pte : Word) {shift : Nat} (h : shift ≤ 64) (i : Nat) :
    (outputAddress pte shift).getLsbD i = (decide (shift ≤ i) && decide (i < 48) && pte.getLsbD i) := by
  rw [outputAddress, BitVec.getLsbD_and, BitVec.getLsbD_and, BitVec.getLsbD_not, mask_getLsbD _ _ (by decide),
    mask_getLsbD _ _ h]
  by_cases hi : i < 48
  · have hword : i < 64 := by omega
    have hkept : (!decide (i < shift)) = decide (shift ≤ i) := by rw [← decide_not, decide_eq_decide, not_lt]
    simp only [hi, hword, hkept, decide_true, Bool.and_true, Bool.true_and]
    exact Bool.and_comm _ _
  · simp only [hi, decide_false, Bool.and_false, Bool.false_and]

/-- Settles O21: the bits of the two masks, and the bounds that hold of every output address. -/
theorem outputAddressIsTheAddressField : Obligations.OutputAddressIsTheAddressField :=
  fun pte _ h => ⟨outputAddress_getLsbD pte h, outputAddress_bounds pte h⟩

/-! ### The class of a page-table entry (rules R81, R115 to R120) -/

theorem getLsbD_zero_eq_false_iff (pte : Word) : pte.getLsbD 0 = false ↔ pte.toNat % 2 = 0 := by
  rw [BitVec.getLsbD, Nat.testBit_zero, decide_eq_false_iff_not]
  omega

/-- The type field is the entry's remainder by 4 (rule R81). -/
theorem typeField_eq_iff (pte : Word) (t : BitVec 2) : pte.extractLsb' 0 2 = t ↔ pte.toNat % 4 = t.toNat := by
  rw [← BitVec.toNat_inj, BitVec.extractLsb'_toNat, Nat.shiftRight_zero]

theorem classify_of_even {pte : Word} (h : pte.toNat % 2 = 0) (level : Nat) : classify pte level = .invalid :=
  if_pos ((getLsbD_zero_eq_false_iff pte).2 h)

/-- An entry of type `0b01` is Reserved at the leaf level and a Block above it (rules R117, R120). -/
theorem classify_of_type_one {pte : Word} (h : pte.toNat % 4 = 1) (level : Nat) :
    classify pte level = if level = 3 then .reserved else .block := by
  have hvalid : ¬pte.getLsbD 0 = false := by rw [getLsbD_zero_eq_false_iff]; omega
  rw [classify, if_neg hvalid]
  simp [typeField_eq_iff, h]

/-- An entry of type `0b11` is a Page at the leaf level and a Table above it (rules R118, R119). -/
theorem classify_of_type_three {pte : Word} (h : pte.toNat % 4 = 3) {level : Nat} (hlevel : level ≤ 3) :
    classify pte level = if level = 3 then .page else .table := by
  have hvalid : ¬pte.getLsbD 0 = false := by rw [getLsbD_zero_eq_false_iff]; omega
  rw [classify, if_neg hvalid]
  by_cases hleaf : level = 3
  · simp [typeField_eq_iff, h, hleaf]
  · simp [typeField_eq_iff, h, hleaf, hlevel.lt_of_ne hleaf]

/-- Settles O20: the type field is even, 1 or 3. -/
theorem classifyFollowsTheTypeField : Obligations.ClassifyFollowsTheTypeField := by
  intro pte level hlevel
  by_cases heven : pte.toNat % 2 = 0
  · rw [if_pos heven, classify_of_even heven]
  · rw [if_neg heven]
    by_cases hone : pte.toNat % 4 = 1
    · rw [if_pos hone, classify_of_type_one hone]
    · rw [if_neg hone, classify_of_type_three (by omega) hlevel]

end Sys2Proof.Machine
end

section
/-! SUPPORT. The Translation-Table Selector: its tested ranges bit by bit, and what its choice depends on (rules R131 to R139);
and `TRANSLATE` of an address that no enabled region governs (rules R136, R137, R185). -/

namespace Sys2Proof.Machine

/-! ### The tested ranges (rules R131, R138) -/

theorem testedRange_getLsbD (ia : Word) {tsz : BitVec 6} {tbi : Bool} {j : Nat} (h : j < testedWidth tsz tbi) :
    (testedRange ia tsz tbi).getLsbD j = ia.getLsbD (64 - tsz.toNat + j) := by
  rw [testedRange, BitVec.getLsbD_extractLsb', decide_eq_true h, Bool.true_and]

/-- The offsets below the width of `H_r` are the bits `64 - tsz` to 63, or to 55 under an ignored top byte; an empty range has
neither (rules R131, R138). -/
theorem forall_lt_testedWidth_iff {tsz : BitVec 6} {tbi : Bool} {P : Nat → Prop} :
    (∀ j, j < testedWidth tsz tbi → P (64 - tsz.toNat + j)) ↔
      ∀ i, 64 - tsz.toNat ≤ i → i ≤ (if tbi then 55 else 63) → P i := by
  have htsz := tsz.isLt
  have hwidth (j : Nat) : j < testedWidth tsz tbi ↔ 64 - tsz.toNat + j ≤ if tbi then 55 else 63 := by
    cases tbi <;> simp only [testedWidth, Bool.toNat_false, Bool.toNat_true, Bool.false_eq_true, if_false, if_true] <;> omega
  simp only [hwidth]
  constructor
  · intro h i hlow htop
    obtain ⟨j, rfl⟩ := Nat.exists_eq_add_of_le hlow
    exact h j htop
  · exact fun h j htop => h _ (Nat.le_add_right _ j) htop

/-- Every bit of `H_r` is 0 (rule R132). -/
theorem testedRange_eq_zero_iff {ia : Word} {tsz : BitVec 6} {tbi : Bool} : testedRange ia tsz tbi = 0 ↔
    ∀ i, 64 - tsz.toNat ≤ i → i ≤ (if tbi then 55 else 63) → ia.getLsbD i = false := by
  rw [← forall_lt_testedWidth_iff, BitVec.eq_of_getLsbD_eq_iff]
  refine forall₂_congr fun j hj => ?_
  rw [testedRange_getLsbD ia hj, BitVec.ofNat_eq_ofNat, BitVec.getLsbD_zero]

/-- Every bit of `H_r` is 1 (rule R133). -/
theorem testedRange_eq_allOnes_iff {ia : Word} {tsz : BitVec 6} {tbi : Bool} : testedRange ia tsz tbi = BitVec.allOnes _ ↔
    ∀ i, 64 - tsz.toNat ≤ i → i ≤ (if tbi then 55 else 63) → ia.getLsbD i = true := by
  rw [← forall_lt_testedWidth_iff, BitVec.eq_of_getLsbD_eq_iff]
  refine forall₂_congr fun j hj => ?_
  rw [testedRange_getLsbD ia hj, BitVec.getLsbD_allOnes, decide_eq_true hj]

/-! ### The choice (rules R132 to R136, R139) -/

/-- Settles O27: the two tests of the chain, read bit by bit, decide its branches in their order. -/
theorem selectorFollowsThePriorityChain : Obligations.SelectorFollowsThePriorityChain := by
  intro cfg ia ignored top allZero allOne
  have hzero : cfg.tt0.tsz ≠ 0 ∧ testedRange ia cfg.tt0.tsz (tbiActive cfg ia) = 0 ↔ cfg.tt0.tsz ≠ 0 ∧ allZero :=
    and_congr_right' testedRange_eq_zero_iff
  have hone : cfg.tt1.tsz ≠ 0 ∧ testedRange ia cfg.tt1.tsz (tbiActive cfg ia) = BitVec.allOnes _ ↔
      cfg.tt1.tsz ≠ 0 ∧ allOne := and_congr_right' testedRange_eq_allOnes_iff
  rw [← hzero, ← hone, select]
  exact ⟨fun h0 => if_pos h0, fun h0 h1 => (if_neg h0).trans (if_pos h1), fun h0 h1 => (if_neg h0).trans (if_neg h1)⟩

/-- Addresses that differ in the top byte only. -/
theorem getLsbD_eq_of_low56_eq {ia ia' : Word} (h : ia.extractLsb' 0 56 = ia'.extractLsb' 0 56) {i : Nat} (hi : i < 56) :
    ia.getLsbD i = ia'.getLsbD i := by
  have hbit := congrArg (fun x => x.getLsbD i) h
  simpa only [BitVec.getLsbD_extractLsb', hi, decide_true, Bool.true_and, Nat.zero_add] using hbit

/-- Bit 55, which picks the flag, is below the top byte (rule R131). -/
theorem tbiActive_eq_of_low56_eq {ia ia' : Word} (h : ia.extractLsb' 0 56 = ia'.extractLsb' 0 56)
    (cfg : TranslationConfig) : tbiActive cfg ia = tbiActive cfg ia' := by
  rw [tbiActive, tbiActive, getLsbD_eq_of_low56_eq h (by decide)]

/-- No tested range reaches into an ignored top byte (rule R131). -/
theorem testedRange_eq_of_low56_eq {ia ia' : Word} (h : ia.extractLsb' 0 56 = ia'.extractLsb' 0 56) (tsz : BitVec 6) :
    testedRange ia tsz true = testedRange ia' tsz true := by
  refine BitVec.eq_of_getLsbD_eq fun j hj => ?_
  rw [testedRange_getLsbD ia hj, testedRange_getLsbD ia' hj]
  refine getLsbD_eq_of_low56_eq h ?_
  rw [testedWidth, Bool.toNat_true] at hj
  omega

/-- The selector reads the address through its tested ranges only (rule R139 (d)). -/
theorem select_congr {cfg : TranslationConfig} {ia ia' : Word} {tbi : Bool} (htbi : tbiActive cfg ia = tbi)
    (htbi' : tbiActive cfg ia' = tbi) (h0 : testedRange ia cfg.tt0.tsz tbi = testedRange ia' cfg.tt0.tsz tbi)
    (h1 : testedRange ia cfg.tt1.tsz tbi = testedRange ia' cfg.tt1.tsz tbi) : select cfg ia = select cfg ia' := by
  rw [select, select, htbi, htbi', h0, h1]

/-- Settles O28: neither the flag nor, under it, a tested range depends on the top byte. -/
theorem selectorIgnoresAnIgnoredTopByte : Obligations.SelectorIgnoresAnIgnoredTopByte := by
  intro cfg ia ia' h htbi
  have htbi' : tbiActive cfg ia' = true := (tbiActive_eq_of_low56_eq h cfg).symm.trans htbi
  exact (select_congr htbi htbi' (testedRange_eq_of_low56_eq h _) (testedRange_eq_of_low56_eq h _)).symm

/-! ### `TRANSLATE` outside the enabled regions (rules R136, R137, R185) -/

theorem stage1Region_of_no_enabled_region {cfg : TranslationConfig} {ia : Word}
    (h : select cfg ia = none ∨ ∃ r, select cfg ia = some r ∧ (regionOf cfg r).disabled = true) :
    stage1Region cfg ia = .error (.failure ⟨.translation, .s1, ia⟩) := by
  unfold stage1Region
  rcases h with hnone | ⟨r, hr, hdisabled⟩
  · rw [hnone]
  · rw [hr]
    exact if_pos hdisabled

theorem lookupGranule_s1_of_error {cfg : TranslationConfig} {ia : Word} {r : WalkResult}
    (h : stage1Region cfg ia = .error r) : lookupGranule cfg .s1 ia = .error r := by
  unfold lookupGranule
  rw [h]

/-- A region that ends `TRANSLATE` before its lookup leaves the answer as all it does (rule R185). -/
theorem exec_translate_of_lookupGranule_error {s : State} {dev : DevId} {ia : Word} {code : BitVec 2} {acc : AccessKind}
    {cfg : TranslationConfig} {st : Stage} {r : WalkResult} (hacc : accessOfCode code = some acc)
    (hcfg : usableConfig s dev = some (cfg, st)) (hregion : lookupGranule cfg st ia = .error r) :
    exec (.translate dev ia code) s = .next (finishJob .translate cfg ia r s) := by
  rw [exec_translate, execTranslate, hacc]
  simp only [translateStepA, hcfg, hregion, runToEnd]

/-- An answer given on the state as it was issues no `ReadPTE` and writes nothing that commands do not write (rule R250). -/
theorem quiet_respond (r : Reply) (s : State) : Quiet s (respond r s) :=
  ⟨⟨rfl, rfl, rfl, fun _ => rfl, rfl⟩, rfl⟩

/-- Settles O42: without an enabled region the fault is raised before the lookup, on the state as it was. -/
theorem translateOutsideTheRegionsCountsNothing : Obligations.TranslateOutsideTheRegionsCountsNothing := by
  intro s dev ia code acc cfg hacc hvalid haa64 hstage hregion
  have hcfg : usableConfig s dev = some (cfg, .s1) := usableConfig_eq_some.2 ⟨hvalid, haa64, by rw [hstage]; rfl⟩
  have hfault := lookupGranule_s1_of_error (stage1Region_of_no_enabled_region hregion)
  exact ⟨respond (.fault ⟨.translation, .s1, ia⟩) s, exec_translate_of_lookupGranule_error hacc hcfg hfault,
    answers_respond _ rfl rfl, rfl, sameTable_of_eq rfl rfl rfl, quiet_respond _ s⟩

end Sys2Proof.Machine
end

section
/-! SUPPORT. The faults and the mapping of a walk: what a fetch makes of a Table and of a leaf (rules R147 to R150, R168 to R170,
R256), the stage a fault carries (rules R154, R182, R252), and a walk along the Table descriptors in memory to a leaf, with `PTW`
under a stage-1 config (rules R140 to R151, R180, R181). -/

namespace Sys2Proof.Machine

/-! ### Permission bits and sizes of a page-table entry (rules R121, R122, R170) -/

theorem accessPermission_getLsbD_one (pte : Word) : (accessPermission pte).getLsbD 1 = pte.getLsbD 7 := by
  simp [accessPermission]

/-- Bit 7 of a stage-1 leaf makes it read-only (rule R121). -/
theorem s1LeafPermFault_iff {pte : Word} {acc : AccessKind} :
    s1LeafPermFault (accessPermission pte) acc = true ↔ acc = .write ∧ pte.getLsbD 7 = true := by
  rw [s1LeafPermFault, accessPermission_getLsbD_one, Bool.and_eq_true, beq_iff_eq]

theorem s2LeafPermFault_iff {s2ap : BitVec 2} {acc : AccessKind} :
    s2LeafPermFault s2ap acc = true ↔ s2ap &&& accessMask acc ≠ accessMask acc := by
  simp [s2LeafPermFault, permits]

/-- Bit 62 of a Table forbids writes below it (rule R122). -/
theorem tableForbidsWrite_eq (pte : Word) :
    tableForbidsWrite (tablePermissionOverride pte) = pte.getLsbD 62 := by
  simp [tableForbidsWrite, tablePermissionOverride]

theorem s1Permission_eq (pte : Word) (forbids : Bool) :
    s1Permission (accessPermission pte) forbids = if pte.getLsbD 7 || forbids then 0b01#2 else 0b11#2 := by
  rw [s1Permission, accessPermission_getLsbD_one]
  cases pte.getLsbD 7 <;> cases forbids <;> rfl

/-- A size check by shifting is a comparison (rules R162, R170, R182). -/
theorem ushiftRight_ne_zero_iff {x : Word} {n : Nat} : x >>> n ≠ 0 ↔ 2 ^ n ≤ x.toNat := by
  rw [← not_lt, not_iff_not, ← BitVec.toNat_inj, BitVec.toNat_ushiftRight, Nat.shiftRight_eq_div_pow]
  exact Nat.div_eq_zero_iff_lt (Nat.two_pow_pos n)

/-! ### What a fetch makes of a Table and of a leaf (rules R147 to R151, R168 to R171) -/

theorem classify_of_table_type {pte : Word} {level : Nat} (hlevel : level < 3) (htype : pte.extractLsb' 0 2 = 0b11#2) :
    classify pte level = .table := by
  rw [classify_of_type_three ((typeField_eq_iff pte _).1 htype) hlevel.le, if_neg hlevel.ne]

/-- A leaf is a Page at level 3 and a Block above (rules R119, R120). -/
theorem classify_of_leaf_type {pte : Word} {level : Nat} (hlevel : level ≤ 3)
    (htype : pte.extractLsb' 0 2 = if level = 3 then 0b11#2 else 0b01#2) :
    classify pte level = if level = 3 then .page else .block := by
  by_cases hlast : level = 3
  · rw [if_pos hlast] at htype
    rw [classify_of_type_three ((typeField_eq_iff pte _).1 htype) hlevel]
    simp only [hlast, if_true]
  · rw [if_neg hlast] at htype
    rw [classify_of_type_one ((typeField_eq_iff pte _).1 htype)]
    simp only [hlast, if_false]

/-- How a walk ends at a leaf, by the stage of the walk. -/
def leafResult (cfg : TranslationConfig) (ia : Word) (acc : AccessKind) (w : Walk) (pte : Word) : WalkResult :=
  match w.kind with
  | .region _ => leafStep1 cfg.affd ia acc w pte
  | .stage2 => leafStep2 cfg ia acc w pte

/-- Whether the APTABLE fields of the Tables of a walk count: at stage 1, unless `had` is set (rules R147, R167). -/
def aptableCounts (cfg : TranslationConfig) : WalkKind → Bool
  | .region r => !(regionOf cfg r).had
  | .stage2 => false

section
variable {rd : Reader} {cfg : TranslationConfig} {ia : Word} {acc : AccessKind} {w : Walk} {pte : Word}

theorem leafResult_region {r : RegionIx} (h : w.kind = .region r) :
    leafResult cfg ia acc w pte = leafStep1 cfg.affd ia acc w pte := by
  rw [leafResult, h]

theorem leafResult_stage2 (h : w.kind = .stage2) : leafResult cfg ia acc w pte = leafStep2 cfg ia acc w pte := by
  rw [leafResult, h]

theorem walkStage_region {r : RegionIx} (h : w.kind = .region r) : walkStage w = .s1 := by
  rw [walkStage, h]

theorem walkStage_stage2 (h : w.kind = .stage2) : walkStage w = .s2 := by
  rw [walkStage, h]

theorem pteStep_of_leaf (h : classify pte w.level = .page ∨ classify pte w.level = .block) :
    pteStep cfg ia acc w pte = .done (leafResult cfg ia acc w pte) := by
  unfold pteStep leafResult
  rcases h with h | h <;> rw [h] <;> cases w.kind <;> rfl

theorem pteStep_of_table_region {r : RegionIx} (h : classify pte w.level = .table) (hkind : w.kind = .region r) :
    pteStep cfg ia acc w pte = tableStep1 (regionOf cfg r).had ia acc w pte := by
  rw [pteStep, h, hkind]

theorem pteStep_of_table_stage2 (h : classify pte w.level = .table) (hkind : w.kind = .stage2) :
    pteStep cfg ia acc w pte = .walking (descend w pte w.wrForbid) := by
  rw [pteStep, h, hkind]

/-- The fetch of a leaf ends the walk. -/
theorem walkFetch_of_leaf (hlevel : w.level ≤ 3) (hpte : pteAnswer rd (pteAddr w ia) = some pte)
    (htype : pte.extractLsb' 0 2 = if w.level = 3 then 0b11#2 else 0b01#2) :
    (walkFetch rd cfg ia acc w).2 = .done (leafResult cfg ia acc w pte) := by
  rw [walkFetch_of_pte hlevel hpte]
  refine pteStep_of_leaf ?_
  rw [classify_of_leaf_type hlevel htype]
  split
  · exact .inl rfl
  · exact .inr rfl

/-- A stage-1 Table: APTABLE counts unless `had` is set, for a write at once and for a read later (rules R147, R148). -/
theorem tableStep1_eq (had : Bool) : tableStep1 had ia acc w pte =
    if acc = .write ∧ (!had && pte.getLsbD 62) = true then .done (.failure ⟨.permission, .s1, ia⟩)
    else .walking (descend w pte (w.wrForbid || (!had && pte.getLsbD 62))) := by
  simp only [tableStep1, tableForbidsWrite_eq, Bool.and_eq_true, beq_iff_eq, and_comm (a := acc = .write)]

/-- Below a Table that does not stop the access the walk goes on, at either stage (rules R147, R148, R167). -/
theorem walkFetch_of_table (hlevel : w.level < 3) (hpte : pteAnswer rd (pteAddr w ia) = some pte)
    (htype : pte.extractLsb' 0 2 = 0b11#2)
    (hwrite : acc = .write → (aptableCounts cfg w.kind && pte.getLsbD 62) = false) :
    (walkFetch rd cfg ia acc w).2 =
      .walking (descend w pte (w.wrForbid || (aptableCounts cfg w.kind && pte.getLsbD 62))) := by
  have hclass := classify_of_table_type hlevel htype
  rw [walkFetch_of_pte hlevel.le hpte]
  cases hkind : w.kind with
  | region r =>
    rw [hkind] at hwrite
    rw [pteStep_of_table_region hclass hkind, tableStep1_eq, if_neg]
    · rfl
    · exact fun ⟨hacc, hforbids⟩ => absurd hforbids (Bool.eq_false_iff.1 (hwrite hacc))
  | stage2 => rw [pteStep_of_table_stage2 hclass hkind, aptableCounts, Bool.false_and, Bool.or_false]

/-- The access flag is looked at first (rules R149, R256). -/
theorem leafStep1_of_flag_clear {affd : Bool} (hflag : pte.getLsbD 10 = false) (haffd : affd = false) :
    leafStep1 affd ia acc w pte = .failure ⟨.access, .s1, ia⟩ :=
  if_pos ⟨hflag, haffd⟩

/-- The access flag is looked at first (rules R168, R256). -/
theorem leafStep2_of_flag_clear (hflag : pte.getLsbD 10 = false) (haffd : cfg.s2.affd = false) :
    leafStep2 cfg ia acc w pte = .failure ⟨.access, .s2, ia⟩ :=
  if_pos ⟨hflag, haffd⟩

theorem not_flag_fault {affd : Bool} (h : pte.getLsbD 10 = true ∨ affd = true) :
    ¬(accessFlag pte = false ∧ affd = false) := by
  rintro ⟨hflag, haffd⟩
  rcases h with h | h
  · exact absurd h (Bool.eq_false_iff.1 hflag)
  · exact absurd h (Bool.eq_false_iff.1 haffd)

/-- A stage-1 leaf past the access flag: permission, then success (rules R150, R151). -/
theorem leafStep1_of_flag {affd : Bool} (h : pte.getLsbD 10 = true ∨ affd = true) :
    leafStep1 affd ia acc w pte =
      if acc = .write ∧ pte.getLsbD 7 = true then .failure ⟨.permission, .s1, ia⟩
      else .success (leafEntry ia w pte (if pte.getLsbD 7 || w.wrForbid then 0b01#2 else 0b11#2)) := by
  rw [leafStep1, if_neg (not_flag_fault h), s1Permission_eq]
  simp only [s1LeafPermFault_iff]

/-- A stage-2 leaf past the access flag: permission, then output size, then success (rules R169 to R171). -/
theorem leafStep2_of_flag (h : pte.getLsbD 10 = true ∨ cfg.s2.affd = true) :
    leafStep2 cfg ia acc w pte =
      if pte.extractLsb' 6 2 &&& accessMask acc ≠ accessMask acc then .failure ⟨.permission, .s2, ia⟩
      else if 2 ^ cfg.effPs.toNat ≤ (outputAddress pte (levelShift w.level w.granule)).toNat then
        .failure ⟨.addrSize, .s2, ia⟩
      else .success (leafEntry ia w pte (pte.extractLsb' 6 2)) := by
  rw [leafStep2, if_neg (not_flag_fault h)]
  simp only [s2LeafPermFault_iff, ushiftRight_ne_zero_iff, accessPermission]

end

/-- Settles O30: at either stage the access flag is the first thing looked at in a leaf. -/
theorem accessFaultComesBeforePermission : Obligations.AccessFaultComesBeforePermission := by
  intro rd cfg ia acc w pte hlevel hpte htype hflag haffd
  rw [walkFetch_of_leaf hlevel hpte htype]
  cases hkind : w.kind with
  | region r =>
    rw [hkind] at haffd
    rw [leafResult_region hkind, leafStep1_of_flag_clear hflag haffd, walkStage_region hkind]
  | stage2 =>
    rw [hkind] at haffd
    rw [leafResult_stage2 hkind, leafStep2_of_flag_clear hflag haffd, walkStage_stage2 hkind]

/-- Settles O31: the checks of a Table and of a leaf past its access flag, in their order. -/
theorem permissionAndSizeFaultsOfAFetchedWord : Obligations.PermissionAndSizeFaultsOfAFetchedWord := by
  intro rd cfg ia acc w pte hlevel hpte leaf base
  refine ⟨fun r hkind habove htype hhad hforbids hacc => ?_, fun r hkind hleaf hreadOnly hacc => ?_,
    fun hkind hleaf hdenied => ?_, fun hkind hleaf hpermitted hsize => ?_⟩
  · rw [walkFetch_of_pte hlevel hpte, pteStep_of_table_region (classify_of_table_type habove htype) hkind,
      tableStep1_eq, hhad, hforbids]
    exact if_pos ⟨hacc, rfl⟩
  · obtain ⟨htype, hflag⟩ := hleaf
    rw [walkFetch_of_leaf hlevel hpte htype, leafResult_region hkind, leafStep1_of_flag hflag, if_pos ⟨hacc, hreadOnly⟩]
  · obtain ⟨htype, hflag⟩ := hleaf
    rw [walkFetch_of_leaf hlevel hpte htype, leafResult_stage2 hkind, leafStep2_of_flag hflag, if_pos hdenied]
  · obtain ⟨htype, hflag⟩ := hleaf
    rw [walkFetch_of_leaf hlevel hpte htype, leafResult_stage2 hkind, leafStep2_of_flag hflag,
      if_neg (not_not.2 hpermitted)]
    exact congrArg _ (if_pos hsize)

/-! ### The stage of a fault (rules R154, R173, R182, R252) -/

/-- The walk, or the fault it has ended with, is of stage `st`, and only stage 2 reports `AddrSize`. -/
def OfStage (st : Stage) : Phase → Prop
  | .walking w => walkStage w = st
  | .done (.failure f) => f.stage = st ∧ (f.kind = .addrSize → st = .s2)
  | .done (.success _) => True
  | .done .configError => True

theorem walkFetch_ofStage {st : Stage} {w : Walk} (hw : OfStage st (.walking w)) (rd : Reader)
    (cfg : TranslationConfig) (ia : Word) (acc : AccessKind) : OfStage st (walkFetch rd cfg ia acc w).2 := by
  rcases walkFetch_cases rd cfg ia acc w with ⟨f, h, hstage, hsize, -⟩ | ⟨pte, b, -, -, -, h, -⟩ | ⟨pte, perm, -, -, h, -⟩
  · rw [h]
    exact ⟨hstage.trans hw, fun hkind => hw.symm.trans (walkStage_stage2 (hsize hkind))⟩
  · rw [h]; exact hw
  · rw [h]; trivial

theorem finishWalk_ofStage {st : Stage} {phase : Phase} (h : OfStage st phase) (cfg : TranslationConfig) (ia : Word)
    (acc : AccessKind) (n : Nat) (rd : Reader) : OfStage st (.done (finishWalk cfg ia acc n rd phase).2) :=
  finishWalk_induction (P := fun _ phase => OfStage st phase) (Q := fun _ r => OfStage st (.done r))
    (fun _ _ h => h) (fun _ _ h => ⟨h, nofun⟩) (fun rd _ h => walkFetch_ofStage h rd cfg ia acc) n rd phase h

/-- A stage-1 config begins a walk of stage 1; a stage-2 config answers the `oas` check, or begins a walk of stage 2. -/
theorem dispatch_ofStage (cfg : TranslationConfig) (ia : Word) :
    (stageOfCode cfg.stage = some .s1 → OfStage .s1 (dispatch cfg ia)) ∧
    (stageOfCode cfg.stage = some .s2 →
      dispatch cfg ia = .done .configError ∨
      (2 ^ cfg.oas.toNat ≤ ia.toNat ∧ dispatch cfg ia = .done (.failure ⟨.addrSize, .s1, ia⟩)) ∨
      (ia.toNat < 2 ^ cfg.oas.toNat ∧ OfStage .s2 (dispatch cfg ia))) := by
  have hin (h : ia >>> cfg.oas.toNat = 0) : ia.toNat < 2 ^ cfg.oas.toNat :=
    not_le.1 fun hle => ushiftRight_ne_zero_iff.2 hle h
  rcases dispatch_cases cfg ia with h | ⟨hs, h⟩ | ⟨r, g, hs, -, -, h⟩ |
    ⟨g, hs, -, ⟨hoas, h⟩ | ⟨hoas, -, h⟩ | ⟨hoas, -, h⟩⟩
  · rw [h]; exact ⟨fun _ => trivial, fun _ => .inl rfl⟩
  · rw [h, hs]; exact ⟨fun _ => ⟨rfl, nofun⟩, nofun⟩
  · rw [h, hs]; exact ⟨fun _ => rfl, nofun⟩
  · rw [h, hs]; exact ⟨nofun, fun _ => .inr (.inl ⟨ushiftRight_ne_zero_iff.1 hoas, rfl⟩)⟩
  · rw [h, hs]; exact ⟨nofun, fun _ => .inr (.inr ⟨hin hoas, rfl, fun _ => rfl⟩)⟩
  · rw [h, hs]; exact ⟨nofun, fun _ => .inr (.inr ⟨hin hoas, rfl⟩)⟩

/-- Settles O34: a walk keeps its stage; of a stage-2 config only the `oas` check, made before the walk, answers stage 1. -/
theorem faultsCarryTheirStage : Obligations.FaultsCarryTheirStage := by
  intro cfg ia acc rd f hfault
  rw [runWalk] at hfault
  obtain ⟨hone, htwo⟩ := dispatch_ofStage cfg ia
  constructor
  · intro hcfg
    have hresult := finishWalk_ofStage (hone (by rw [hcfg]; rfl)) cfg ia acc 4 rd
    rw [hfault] at hresult
    obtain ⟨hstage, hsize⟩ := hresult
    exact ⟨hstage, fun hkind => nomatch hsize hkind⟩
  · intro hcfg
    rcases htwo (by rw [hcfg]; rfl) with h | ⟨hoas, h⟩ | ⟨hoas, h⟩
    · rw [h, finishWalk_done] at hfault
      cases hfault
    · rw [h, finishWalk_done] at hfault
      cases hfault
      exact ⟨iff_of_true rfl hoas, fun _ => ⟨rfl, rfl⟩⟩
    · have hresult := finishWalk_ofStage h cfg ia acc 4 rd
      rw [hfault] at hresult
      have hstage : f.stage ≠ .s1 := by rw [hresult.1]; nofun
      exact ⟨iff_of_false hstage (not_le.2 hoas), fun hs => absurd hs hstage⟩

/-! ### A walk along the Tables in memory (rules R143 to R148, R155) -/

section
variable {rd : Reader} {ia : Word} {inputsize : Nat} {g : Granule} {aptable : Bool} {level level' : Nat}
  {base base' : Word} {forbids forbids' : Bool}

theorem TablePath.level_le (path : TablePath rd ia inputsize g aptable level base forbids level' base' forbids') :
    level ≤ level' := by
  induction path with
  | stop => exact Nat.le_refl _
  | table _ _ _ _ ih => exact Nat.le_of_succ_le ih

/-- What a Table forbids stays forbidden below it. -/
theorem TablePath.forbids_eq_false
    (path : TablePath rd ia inputsize g aptable level base forbids level' base' forbids') (h : forbids' = false) :
    forbids = false := by
  induction path with
  | stop => exact h
  | table _ _ _ _ ih => exact (Bool.or_eq_false_iff.1 (ih h)).1

/-- A walk with fetches enough goes down the Tables of a path to the leaf and ends there, after one fetch a level, for either
kind of walk. -/
theorem finishWalk_of_tablePath {cfg : TranslationConfig} {acc : AccessKind} {kind : WalkKind} {pte : Word}
    (path : TablePath rd ia inputsize g (aptableCounts cfg kind) level base forbids level' base' forbids')
    (leaf : LeafAt rd ia inputsize g level' base' pte) (hwrite : acc = .write → forbids' = false)
    {n : Nat} (hn : level' < level + n) {rd' : Reader} (hrd : ∀ pa, pteAnswer rd' pa = pteAnswer rd pa) :
    (finishWalk cfg ia acc n rd' (.walking ⟨kind, level, base, forbids, g, inputsize⟩)).2 =
        leafResult cfg ia acc ⟨kind, level', base', forbids', g, inputsize⟩ pte ∧
      (finishWalk cfg ia acc n rd' (.walking ⟨kind, level, base, forbids, g, inputsize⟩)).1.issued.length =
        rd'.issued.length + (level' - level + 1) := by
  induction path generalizing n rd' with
  | stop level base forbids =>
    obtain ⟨hlevel, hpte, htype⟩ := leaf
    obtain ⟨n, rfl⟩ := Nat.exists_eq_add_one_of_ne_zero (n := n) (by omega)
    have hanswer : pteAnswer rd' (pteAddr ⟨kind, level, base, forbids, g, inputsize⟩ ia) = some pte := (hrd _).trans hpte
    rw [finishWalk_walking, walkFetch_of_leaf hlevel hanswer htype, finishWalk_done, walkFetch_reader,
      if_neg (Nat.not_le.2 (Nat.lt_succ_of_le hlevel)), Nat.sub_self]
    exact ⟨rfl, rfl⟩
  | @table level base forbids pte _ _ _ hlevel hpte htype rest ih =>
    have hle := rest.level_le
    obtain ⟨n, rfl⟩ := Nat.exists_eq_add_one_of_ne_zero (n := n) (by omega)
    have hgoesOn (hacc : acc = .write) : (aptableCounts cfg kind && pte.getLsbD 62) = false :=
      (Bool.or_eq_false_iff.1 (rest.forbids_eq_false (hwrite hacc))).2
    have hanswer : pteAnswer rd' (pteAddr ⟨kind, level, base, forbids, g, inputsize⟩ ia) = some pte := (hrd _).trans hpte
    rw [finishWalk_walking, walkFetch_of_table hlevel hanswer htype hgoesOn, walkFetch_reader,
      if_neg (Nat.not_le.2 (Nat.lt_succ_of_lt hlevel))]
    obtain ⟨hresult, hissued⟩ := ih leaf hwrite (n := n) (by omega)
      (rd' := noteRead rd' (pteAddr ⟨kind, level, base, forbids, g, inputsize⟩ ia)) hrd
    refine ⟨hresult, hissued.trans ?_⟩
    rw [noteRead, List.length_cons]
    omega

end

/-! ### `PTW` under a stage-1 config (rules R140 to R142, R180, R181) -/

/-- A walkable region is entered at its aligned root (rules R140 to R142). -/
theorem dispatch_of_region {cfg : TranslationConfig} {ia : Word} {r : RegionIx} {g : Granule}
    (hstage : stageOfCode cfg.stage = some .s1) (hselect : select cfg ia = some r)
    (henabled : (regionOf cfg r).disabled = false) (hwalkable : walkable1 (regionOf cfg r) = some g) :
    dispatch cfg ia = .walking (rootWalk1 (regionOf cfg r) r g) := by
  simp only [dispatch, hstage, beginWalk1, stage1Region, hselect, henabled, hwalkable, Bool.false_eq_true, if_false]

/-- `PTW` answers what its walk found and changes nothing, whatever the stage (rule R180). -/
theorem exec_ptw_of_success {s : State} {dev : DevId} {ia : Word} {code : BitVec 2} {acc : AccessKind}
    {cfg : TranslationConfig} {st : Stage} {e : Entry} (hacc : accessOfCode code = some acc)
    (hcfg : usableConfig s dev = some (cfg, st)) (hwalk : (runWalk cfg ia acc s.reader).2 = .success e) :
    ∃ t, exec (.ptw dev ia code) s = .next t ∧ Answers s t (.entry e false (fullOutput e ia)) ∧ t.iotlb = s.iotlb ∧
      SameTable s t ∧ SameOutside s t ∧ t.reader = (runWalk cfg ia acc s.reader).1 := by
  rcases execPtw_cases s dev ia hacc with ⟨hnone, -⟩ | ⟨cfg', st', hcfg', hexec⟩
  · exact nomatch hcfg.symm.trans hnone
  · obtain ⟨rfl, rfl⟩ : cfg = cfg' ∧ st = st' := by simpa using hcfg.symm.trans hcfg'
    obtain ⟨hmem, herrs⟩ := finishWalk_mem cfg ia acc 4 s.reader (dispatch cfg ia)
    rw [hwalk] at hexec
    exact ⟨_, (exec_ptw ..).trans hexec, answers_respond _ rfl rfl, rfl, sameTable_of_eq rfl rfl rfl,
      ⟨rfl, rfl, rfl, fun a => congrArg (readByte · a) hmem, herrs⟩, rfl⟩

/-- Settles O36: the walk begins at the region's root and follows the Tables in memory to the leaf, which permits the access. -/
theorem stage1WalkAnswersTheMappingOfTheTables : Obligations.Stage1WalkAnswersTheMappingOfTheTables := by
  intro s dev ia code acc cfg r g level base pte forbids hacc hvalid haa64 hcode hselect henabled hwalkable inputsize
    start root size path leaf hflag hwrite
  have hstage : stageOfCode cfg.stage = some .s1 := by rw [hcode]; rfl
  have hlast : level < start + 4 := by
    obtain ⟨hlevel, -⟩ := leaf
    omega
  have hwalk : runWalk cfg ia acc s.reader =
      finishWalk cfg ia acc 4 s.reader (.walking ⟨.region r, start, root, false, g, inputsize⟩) :=
    congrArg _ (dispatch_of_region hstage hselect henabled hwalkable)
  obtain ⟨hresult, hissued⟩ := finishWalk_of_tablePath (kind := .region r) path leaf (fun h => (hwrite h).2) hlast
    (fun _ => rfl)
  rw [← hwalk] at hresult hissued
  have hpermitted : ¬(acc = .write ∧ pte.getLsbD 7 = true) := fun ⟨h, hreadOnly⟩ =>
    absurd hreadOnly (Bool.eq_false_iff.1 (hwrite h).1)
  rw [leafResult_region rfl, leafStep1_of_flag hflag, if_neg hpermitted] at hresult
  obtain ⟨t, hexec, hanswer, hiotlb, htable, houtside, hreader⟩ :=
    exec_ptw_of_success hacc (usableConfig_eq_some.2 ⟨hvalid, haa64, hstage⟩) hresult
  rw [← hreader] at hissued
  exact ⟨t, hexec, hanswer, hiotlb, htable, houtside, hissued⟩

end Sys2Proof.Machine
end

section
/-! SUPPORT. The walk of a stage-2 config: its two input checks, made before anything is fetched (rules R162, R182), and `PTW`
along the Tables below the concatenated root to a leaf (rules R160 to R171, R180). -/

namespace Sys2Proof.Machine

section
variable {cfg : TranslationConfig} {ia : Word} {acc : AccessKind} {g : Granule}

/-- With a walkable descriptor the input is checked against `oas`, then against the input size, and a walk begins only past
both checks (rules R160 to R163, R182). -/
theorem dispatch_of_walkable2 (hstage : stageOfCode cfg.stage = some .s2) (hwalkable : walkable2 cfg.s2 = some g) :
    dispatch cfg ia =
      if 2 ^ cfg.oas.toNat ≤ ia.toNat then .done (.failure ⟨.addrSize, .s1, ia⟩)
      else if 2 ^ inputSize cfg.s2.tsz ≤ ia.toNat then .done (.failure ⟨.translation, .s2, ia⟩)
      else .walking (rootWalk2 cfg.s2 g ia) := by
  simp only [dispatch, hstage, beginWalk2, hwalkable, reduceCtorEq, if_false, ushiftRight_ne_zero_iff]

/-- A walk that its entry has already ended fetches nothing. -/
theorem runWalk_of_dispatch_done {r : WalkResult} (h : dispatch cfg ia = .done r) (rd : Reader) :
    runWalk cfg ia acc rd = (rd, r) := by
  rw [runWalk, h, finishWalk_done]

/-- A stage-2 leaf that passes its three checks ends the walk with the leaf's entry (rules R168 to R171). -/
theorem leafStep2_success {w : Walk} {pte : Word} (hflag : pte.getLsbD 10 = true ∨ cfg.s2.affd = true)
    (hpermitted : pte.extractLsb' 6 2 &&& accessMask acc = accessMask acc)
    (hsize : (outputAddress pte (levelShift w.level w.granule)).toNat < 2 ^ cfg.effPs.toNat) :
    leafStep2 cfg ia acc w pte = .success (leafEntry ia w pte (pte.extractLsb' 6 2)) := by
  rw [leafStep2_of_flag hflag, if_neg (not_not.2 hpermitted), if_neg (not_le.2 hsize)]

end

/-- Settles O32: either check ends the command at the dispatcher, before the walk has made a fetch. -/
theorem stage2InputChecksComeBeforeAnyFetch : Obligations.Stage2InputChecksComeBeforeAnyFetch := by
  intro rd cfg ia acc g hcode hwalkable
  have hdispatch := dispatch_of_walkable2 (ia := ia) (by rw [hcode]; rfl) hwalkable
  refine ⟨fun hoas => runWalk_of_dispatch_done ?_ rd, fun hoas hsize => runWalk_of_dispatch_done ?_ rd⟩
  · rw [hdispatch, if_pos hoas]
  · rw [hdispatch, if_neg (not_le.2 hoas), if_pos hsize]

/-- Settles O37: past the input checks the walk begins at the concatenated root and follows the Tables in memory to the leaf,
which passes its checks. -/
theorem stage2WalkAnswersTheMappingOfTheTables : Obligations.Stage2WalkAnswersTheMappingOfTheTables := by
  intro s dev ia code acc cfg g level base pte hacc hvalid haa64 hcode hwalkable hoas hinput inputsize start root size
    path leaf hflag hpermitted houtput
  have hstage : stageOfCode cfg.stage = some .s2 := by rw [hcode]; rfl
  have hlast : level < start + 4 := by
    obtain ⟨hlevel, -⟩ := leaf
    omega
  have hdispatch : dispatch cfg ia = .walking ⟨.stage2, start, root, false, g, inputsize⟩ := by
    rw [dispatch_of_walkable2 hstage hwalkable, if_neg (not_le.2 hoas), if_neg (not_le.2 hinput)]
    rfl
  have hwalk : runWalk cfg ia acc s.reader =
      finishWalk cfg ia acc 4 s.reader (.walking ⟨.stage2, start, root, false, g, inputsize⟩) := congrArg _ hdispatch
  obtain ⟨hresult, hissued⟩ := finishWalk_of_tablePath (kind := .stage2) path leaf (fun _ => rfl) hlast (fun _ => rfl)
  rw [← hwalk] at hresult hissued
  rw [leafResult_stage2 rfl, leafStep2_success (w := ⟨.stage2, level, base, false, g, inputsize⟩) hflag hpermitted
    houtput] at hresult
  obtain ⟨t, hexec, hanswer, hiotlb, htable, houtside, hreader⟩ :=
    exec_ptw_of_success hacc (usableConfig_eq_some.2 ⟨hvalid, haa64, hstage⟩) hresult
  rw [← hreader] at hissued
  exact ⟨t, hexec, hanswer, hiotlb, htable, houtside, hissued⟩

end Sys2Proof.Machine
end

section
/-! SUPPORT. `PTW` and `TRANSLATE` under a usable config: the answer a walk makes, the granule it keeps, and what a hit and a miss
do (rules R180 to R183, R185 to R189); and a translation that is asked for again at once (rule R191). -/

namespace Sys2Proof.Machine

/-! ### The answer of a walk (rules R180, R188, R189) -/

/-- What a command whose walk has ended is answered. -/
def walkReply (ia : Word) : WalkResult → Reply
  | .success e => .entry e false (fullOutput e ia)
  | .failure f => .fault f
  | .configError => .configError

theorem eq_success_of_walkReply {ia : Word} {r : WalkResult} {e : Entry} {flag : Bool} {out : Word}
    (h : walkReply ia r = .entry e flag out) : r = .success e ∧ out = fullOutput e ia := by
  cases r with
  | success e' => cases h; exact ⟨rfl, rfl⟩
  | failure f => cases h
  | configError => cases h

theorem finishJob_ptw (cfg : TranslationConfig) (ia : Word) (r : WalkResult) (s : State) :
    finishJob .ptw cfg ia r s = respond (walkReply ia r) s := by
  cases r <;> rfl

/-- The IOTLB after a `TRANSLATE` whose walk has ended: only a success is inserted. -/
def cacheAfterWalk (cap : Nat) (m : List (Key × Entry)) (cfg : TranslationConfig) : WalkResult → List (Key × Entry)
  | .success e => insertEntry cap m cfg e
  | .failure _ => m
  | .configError => m

theorem finishJob_translate (cfg : TranslationConfig) (ia : Word) (r : WalkResult) (s : State) :
    finishJob .translate cfg ia r s =
      respond (walkReply ia r) { s with iotlb := cacheAfterWalk s.params.iotlbCap s.iotlb cfg r } := by
  cases r <;> rfl

/-- A command that leaves the Memory Reader as its walk does writes nothing that commands do not write (rules R56, R57). -/
theorem sameOutside_of_runWalk {s t : State} {cfg : TranslationConfig} {ia : Word} {acc : AccessKind}
    (hparams : t.params = s.params) (hactive : t.active = s.active) (hinputs : t.inputs = s.inputs)
    (hreader : t.reader = (runWalk cfg ia acc s.reader).1) : SameOutside s t := by
  obtain ⟨hmem, herrs⟩ := finishWalk_mem cfg ia acc 4 s.reader (dispatch cfg ia)
  exact ⟨hparams, hactive, hinputs, fun a => by rw [hreader]; exact congrArg (readByte · a) hmem,
    by rw [hreader]; exact herrs⟩

/-! ### `PTW` (rules R180 to R183) -/

theorem exec_ptw_of_usableConfig {s : State} {dev : DevId} {ia : Word} {code : BitVec 2} {acc : AccessKind}
    {cfg : TranslationConfig} {st : Stage} (hacc : accessOfCode code = some acc)
    (hcfg : usableConfig s dev = some (cfg, st)) :
    exec (.ptw dev ia code) s = .next (respond (walkReply ia (runWalk cfg ia acc s.reader).2)
      { s with reader := (runWalk cfg ia acc s.reader).1 }) := by
  rcases execPtw_cases s dev ia hacc with ⟨hnone, -⟩ | ⟨cfg', st', hcfg', hexec⟩
  · exact nomatch hcfg.symm.trans hnone
  · obtain ⟨rfl, rfl⟩ : cfg = cfg' ∧ st = st' := by simpa using hcfg.symm.trans hcfg'
    rw [exec_ptw, hexec, finishJob_ptw]

/-- Everything a `PTW` can do: answer on the state as it was, or after a walk. -/
theorem exec_ptw_cases {s t : State} {dev : DevId} {ia : Word} {code : BitVec 2} (h : exec (.ptw dev ia code) s = .next t) :
    (∃ reply, t = respond reply s) ∨
    ∃ cfg acc reply, t = respond reply { s with reader := (runWalk cfg ia acc s.reader).1 } := by
  cases hacc : accessOfCode code with
  | none =>
    rw [exec_ptw, execPtw, hacc] at h
    cases h
    exact .inl ⟨_, rfl⟩
  | some acc =>
    rw [exec_ptw] at h
    rcases execPtw_cases s dev ia hacc with ⟨-, hexec⟩ | ⟨cfg, st, -, hexec⟩
    · cases h.symm.trans hexec
      exact .inl ⟨_, rfl⟩
    · rw [finishJob_ptw] at hexec
      cases h.symm.trans hexec
      exact .inr ⟨cfg, acc, _, rfl⟩

/-- Settles O38: `PTW` answers on the state its walk leaves, and a walk touches nothing but the list of fetches. -/
theorem ptwAnswersTheWalkAndWritesNoState : Obligations.PtwAnswersTheWalkAndWritesNoState := by
  constructor
  · intro s dev ia code acc cfg hacc hvalid haa64 hcode
    obtain ⟨st, hstage⟩ : ∃ st, stageOfCode cfg.stage = some st := by
      rcases hcode with h | h
      · exact ⟨.s1, by rw [h]; rfl⟩
      · exact ⟨.s2, by rw [h]; rfl⟩
    refine ⟨_, exec_ptw_of_usableConfig hacc (usableConfig_eq_some.2 ⟨hvalid, haa64, hstage⟩), rfl, ?_⟩
    cases (runWalk cfg ia acc s.reader).2 with
    | success e => exact answers_respond _ rfl rfl
    | failure f => exact answers_respond _ rfl rfl
    | configError => exact answers_respond _ rfl rfl
  · intro s t dev ia code h
    rcases exec_ptw_cases h with ⟨reply, rfl⟩ | ⟨cfg, acc, reply, rfl⟩
    · exact ⟨rfl, sameTable_of_eq rfl rfl rfl, (quiet_respond reply s).1⟩
    · exact ⟨rfl, sameTable_of_eq rfl rfl rfl, sameOutside_of_runWalk rfl rfl rfl rfl⟩

/-! ### The hit path of `TRANSLATE` (rule R186) -/

/-- What a hit is answered: the entry, or the fault of its permission check. -/
def hitReply (e : Entry) (st : Stage) (ia : Word) (acc : AccessKind) : Reply :=
  if e.perm &&& accessMask acc = accessMask acc then .entry e true (fullOutput e ia) else .fault ⟨.permission, st, ia⟩

theorem answerHit_eq_respond (e : Entry) (st : Stage) (ia : Word) (acc : AccessKind) (s : State) :
    answerHit e st ia acc s = respond (hitReply e st ia acc) s := by
  simp only [answerHit, hitReply, permits, beq_iff_eq]
  split <;> rfl

theorem eq_of_hitReply_eq_entry {e e' : Entry} {st : Stage} {ia : Word} {acc : AccessKind} {flag : Bool} {out : Word}
    (h : hitReply e st ia acc = .entry e' flag out) :
    e = e' ∧ e.perm &&& accessMask acc = accessMask acc ∧ out = fullOutput e ia := by
  unfold hitReply at h
  split at h
  · rename_i hpermitted
    cases h
    exact ⟨rfl, hpermitted, rfl⟩
  · cases h

/-- Counting and answering fetch nothing and write nothing that commands do not write. -/
theorem quiet_respond_countLookup (r : Reply) (s : State) (dev : DevId) (hit : Bool) :
    Quiet s (respond r (countLookup s dev hit)) := by
  simp [Quiet, SameOutside, SameMemory]

theorem exec_translate_of_hit {s : State} {dev : DevId} {ia : Word} {code : BitVec 2} {acc : AccessKind}
    {cfg : TranslationConfig} {st : Stage} {g : Granule} {e : Entry} (hacc : accessOfCode code = some acc)
    (hcfg : usableConfig s dev = some (cfg, st)) (hregion : lookupGranule cfg st ia = .ok g)
    (hprobe : probe s.iotlb cfg g ia = some e) :
    exec (.translate dev ia code) s = .next (respond (hitReply e st ia acc) (countLookup s dev true)) := by
  rw [exec_translate, execTranslate, hacc]
  simp only [translateStepA, hcfg, hregion, hprobe, runToEnd, answerHit_eq_respond]

/-- Settles O39: of the state a hit counts a lookup and answers. -/
theorem translateHitIsServedFromTheEntry : Obligations.TranslateHitIsServedFromTheEntry := by
  intro s dev ia code acc cfg st g e hacc hcfg hregion hprobe
  obtain ⟨hvalid, -, -⟩ := usableConfig_eq_some.1 hcfg
  exact ⟨_, exec_translate_of_hit hacc hcfg hregion hprobe,
    answers_respond _ (countLookup_ports s dev true) (countLookup_active s dev true),
    counted_of_countLookup hvalid rfl (countLookup_buses s dev true) (countLookup_draws s dev true),
    countLookup_iotlb s dev true, quiet_respond_countLookup _ s dev true⟩

/-! ### The granule of a walk (rules R140, R160, R185) -/

theorem lookupGranule_s1_of_ok {cfg : TranslationConfig} {ia : Word} {r : RegionIx} {g : Granule}
    (h : stage1Region cfg ia = .ok (r, g)) : lookupGranule cfg .s1 ia = .ok g := by
  unfold lookupGranule
  rw [h]

theorem lookupGranule_s2_of_walkable2 {cfg : TranslationConfig} {g : Granule} (h : walkable2 cfg.s2 = some g) (ia : Word) :
    lookupGranule cfg .s2 ia = .ok g := by
  unfold lookupGranule
  rw [h]

/-- The walk, or the entry it has ended with, is of granule `g`. -/
def OfGranule (g : Granule) : Phase → Prop
  | .walking w => w.granule = g
  | .done (.success e) => e.granule = g
  | .done (.failure _) => True
  | .done .configError => True

/-- The dispatcher begins the walk in the region the lookup was made for. -/
theorem dispatch_ofGranule {cfg : TranslationConfig} {st : Stage} {ia : Word} {g : Granule}
    (hstage : stageOfCode cfg.stage = some st) (hregion : lookupGranule cfg st ia = .ok g) :
    OfGranule g (dispatch cfg ia) := by
  rcases dispatch_cases cfg ia with h | ⟨-, h⟩ | ⟨r, g', hs, hr, -, h⟩ | ⟨g', hs, hw, ⟨-, h⟩ | ⟨-, -, h⟩ | ⟨-, -, h⟩⟩
  · rw [h]; trivial
  · rw [h]; trivial
  · obtain rfl : st = .s1 := Option.some.inj (hstage.symm.trans hs)
    rw [h]
    exact Except.ok.inj ((lookupGranule_s1_of_ok hr).symm.trans hregion)
  · rw [h]; trivial
  · rw [h]; trivial
  · obtain rfl : st = .s2 := Option.some.inj (hstage.symm.trans hs)
    rw [h]
    exact Except.ok.inj ((lookupGranule_s2_of_walkable2 hw ia).symm.trans hregion)

theorem walkFetch_ofGranule {g : Granule} {w : Walk} (hw : OfGranule g (.walking w)) (rd : Reader)
    (cfg : TranslationConfig) (ia : Word) (acc : AccessKind) : OfGranule g (walkFetch rd cfg ia acc w).2 := by
  rcases walkFetch_cases rd cfg ia acc w with ⟨f, h, -⟩ | ⟨pte, b, -, -, -, h, -⟩ | ⟨pte, perm, -, -, h, -⟩
  · rw [h]; trivial
  · rw [h]; exact hw
  · rw [h]; exact hw

theorem runWalk_ofGranule {cfg : TranslationConfig} {ia : Word} {g : Granule} (h : OfGranule g (dispatch cfg ia))
    (acc : AccessKind) (rd : Reader) : OfGranule g (.done (runWalk cfg ia acc rd).2) :=
  finishWalk_induction (P := fun _ phase => OfGranule g phase) (Q := fun _ r => OfGranule g (.done r))
    (fun _ _ h => h) (fun _ _ _ => trivial) (fun rd _ h => walkFetch_ofGranule h rd cfg ia acc) 4 rd _ h

/-! ### The miss path of `TRANSLATE` (rules R187 to R189) -/

section
variable {s : State} {dev : DevId} {ia : Word} {code : BitVec 2} {acc : AccessKind} {cfg : TranslationConfig} {st : Stage}
  {g : Granule} {e : Entry}

/-- Everything a miss does: it is counted, the walk makes its fetches, and the walk's result is answered and, if it is an
entry, inserted. -/
theorem exec_translate_of_miss (hacc : accessOfCode code = some acc) (hcfg : usableConfig s dev = some (cfg, st))
    (hregion : lookupGranule cfg st ia = .ok g) (hprobe : probe s.iotlb cfg g ia = none) :
    ∃ t, exec (.translate dev ia code) s = .next t ∧ Answers s t (walkReply ia (runWalk cfg ia acc s.reader).2) ∧
      t.iotlb = cacheAfterWalk s.params.iotlbCap s.iotlb cfg (runWalk cfg ia acc s.reader).2 ∧
      Counted s t dev false ∧ SameOutside s t ∧ t.reader = (runWalk cfg ia acc s.reader).1 := by
  obtain ⟨hvalid, -, -⟩ := usableConfig_eq_some.1 hcfg
  have hexec : exec (.translate dev ia code) s = .next (finishJob .translate cfg ia (runWalk cfg ia acc s.reader).2
      { countLookup s dev false with reader := (runWalk cfg ia acc s.reader).1 }) := by
    rw [exec_translate, execTranslate, hacc]
    simp only [translateStepA, hcfg, hregion, hprobe, runToEnd, runWalk, countLookup_reader]
  rw [finishJob_translate] at hexec
  exact ⟨_, hexec, answers_respond _ (countLookup_ports s dev false) (countLookup_active s dev false), by simp,
    counted_of_countLookup hvalid rfl (countLookup_buses s dev false) (countLookup_draws s dev false),
    sameOutside_of_runWalk (countLookup_params s dev false) (countLookup_active s dev false)
      (countLookup_inputs s dev false) rfl, rfl⟩

/-- The entry a walk returns is stored under the identifiers of the config and the page and granule looked up (rules R34,
R206). -/
theorem keyOfEntry_of_runWalk {rd : Reader} (hstage : stageOfCode cfg.stage = some st)
    (hregion : lookupGranule cfg st ia = .ok g) (hwalk : (runWalk cfg ia acc rd).2 = .success e) :
    keyOfEntry cfg e = ⟨cfg.asid, cfg.vmid, ia &&& ~~~ e.addrMask, tagOf g, e.level⟩ := by
  have hgranule : OfGranule g (.done (.success e)) := hwalk ▸ runWalk_ofGranule (dispatch_ofGranule hstage hregion) acc rd
  obtain ⟨-, -, hiap, -⟩ := successfulWalkReturnsASoundEntry cfg ia acc rd e hwalk
  rw [keyOfEntry, hiap, hgranule]

/-- That key is one of the four the lookup probes, the one of the entry's level (rules R33, R202). -/
theorem keyOfEntry_eq_probeKey {rd : Reader} (hstage : stageOfCode cfg.stage = some st)
    (hregion : lookupGranule cfg st ia = .ok g) (hwalk : (runWalk cfg ia acc rd).2 = .success e) :
    keyOfEntry cfg e = probeKey cfg g ia e.level.toNat := by
  have hgranule : OfGranule g (.done (.success e)) := hwalk ▸ runWalk_ofGranule (dispatch_ofGranule hstage hregion) acc rd
  obtain ⟨-, ⟨hmask, -, -⟩, -, -⟩ := successfulWalkReturnsASoundEntry cfg ia acc rd e hwalk
  rw [keyOfEntry_of_runWalk hstage hregion hwalk, probeKey, hmask, hgranule, BitVec.ofNat_toNat, BitVec.setWidth_eq]

end

theorem inserted_of_insertEntry {s t : State} {cfg : TranslationConfig} {e : Entry}
    (h : t.iotlb = insertEntry s.params.iotlbCap s.iotlb cfg e) : Inserted s t (keyOfEntry cfg e) e :=
  ⟨fun k => by rw [h, assocGet_insertEntry], fun hfull => by rw [h, insertEntry_of_full hfull]⟩

/-- Settles O40: the key the entry is stored under is that of the page and granule that were looked up. -/
theorem translateMissWalksAndInserts : Obligations.TranslateMissWalksAndInserts := by
  intro s dev ia code acc cfg st g e hacc hcfg hregion hprobe hwalk
  obtain ⟨-, -, hstage⟩ := usableConfig_eq_some.1 hcfg
  obtain ⟨t, hexec, hanswer, hiotlb, hcounted, houtside, hreader⟩ := exec_translate_of_miss hacc hcfg hregion hprobe
  rw [hwalk] at hanswer hiotlb
  rw [← keyOfEntry_of_runWalk hstage hregion hwalk]
  exact ⟨t, hexec, hanswer, inserted_of_insertEntry hiotlb, hcounted, houtside, congrArg Reader.issued hreader⟩

/-- Settles O41: of a fault the last step inserts nothing. -/
theorem translateFaultingWalkInsertsNothing : Obligations.TranslateFaultingWalkInsertsNothing := by
  intro s dev ia code acc cfg st g f hacc hcfg hregion hprobe hwalk
  obtain ⟨t, hexec, hanswer, hiotlb, hcounted, houtside, -⟩ := exec_translate_of_miss hacc hcfg hregion hprobe
  rw [hwalk] at hanswer hiotlb
  exact ⟨t, hexec, hanswer, hiotlb, hcounted, houtside⟩

/-! ### An answer read from its response words (rules R96, R97) -/

theorem packP0_inj {cfgv cfgv' flag flag' : Bool} {tg tg' level level' perm perm' stage stage' : BitVec 2}
    {kind kind' : BitVec 3} {status status' : BitVec 4} :
    packP0 cfgv flag tg level perm stage kind status = packP0 cfgv' flag' tg' level' perm' stage' kind' status' ↔
      cfgv = cfgv' ∧ flag = flag' ∧ tg = tg' ∧ level = level' ∧ perm = perm' ∧ stage = stage' ∧ kind = kind' ∧
        status = status' := by
  constructor
  · intro h
    obtain ⟨h, hstatus⟩ := append_inj h
    obtain ⟨h, hkind⟩ := append_inj h
    obtain ⟨h, hstage⟩ := append_inj h
    obtain ⟨h, hperm⟩ := append_inj h
    obtain ⟨h, hlevel⟩ := append_inj h
    obtain ⟨h, htg⟩ := append_inj h
    obtain ⟨h, hflag⟩ := append_inj h
    obtain ⟨-, hcfgv⟩ := append_inj h
    exact ⟨BitVec.ofBool_eq_iff_eq.1 hcfgv, BitVec.ofBool_eq_iff_eq.1 hflag, htg, hlevel, hperm, hstage, hkind, hstatus⟩
  · rintro ⟨rfl, rfl, rfl, rfl, rfl, rfl, rfl, rfl⟩
    rfl

theorem zero_ne_tagOf (g : Granule) : 0#2 ≠ tagOf g := by cases g <;> decide

/-- Only an entry has the words of an entry: the other answers have another status, or no granule tag. Its words leave out the
address mask, so it may be another entry, but one with the same words under every `flag`. -/
theorem replyWords_eq_entry {r : Reply} {e : Entry} {flag : Bool} {out : Word}
    (h : replyWords r = replyWords (.entry e flag out)) :
    ∃ e', r = .entry e' flag out ∧ ∀ b, replyWords (.entry e' b out) = replyWords (.entry e b out) := by
  have htag := zero_ne_tagOf e.granule
  cases r with
  | entry e' flag' out' =>
    simp only [replyWords, Response.mk.injEq, packP0_inj] at h
    obtain ⟨⟨-, rfl, htg, hlevel, hperm, -⟩, rfl, hta, hiap⟩ := h
    exact ⟨e', rfl, fun b => by rw [replyWords, replyWords, htg, hlevel, hperm, hta, hiap]⟩
  | _ => simp [replyWords, packP0_inj, htag] at h

theorem Answers.replyWords_eq {s t : State} {r r' : Reply} (h : Answers s t r) (h' : Answers s t r') :
    replyWords r = replyWords r' := by
  have hport := (h s.active).symm.trans (h' s.active)
  rw [if_pos rfl, if_pos rfl] at hport
  exact congrArg Port.response hport

/-! ### Translating again (rule R191) -/

/-- After a miss at every level, the entry inserted under a probed key is what the lookup finds (rules R201, R206). -/
theorem probe_insertEntry {cfg : TranslationConfig} {g : Granule} {ia : Word} {e : Entry} {level : Nat}
    {m : List (Key × Entry)} (hlevel : level ≤ 3) (hkey : keyOfEntry cfg e = probeKey cfg g ia level)
    (hmiss : probe m cfg g ia = none) (cap : Nat) : probe (insertEntry cap m cfg e) cfg g ia = some e := by
  have hmem : level ∈ [3, 2, 1, 0] := by simp only [List.mem_cons, List.not_mem_nil]; omega
  have hhere : assocGet (probeKey cfg g ia level) (insertEntry cap m cfg e) = some e := by
    rw [assocGet_insertEntry, if_pos hkey.symm]
  cases hfound : probe (insertEntry cap m cfg e) cfg g ia with
  | none => exact nomatch (List.findSome?_eq_none_iff.1 hfound level hmem).symm.trans hhere
  | some e' =>
    obtain ⟨level', hmem', hget⟩ := List.exists_of_findSome?_eq_some hfound
    have hnone := List.findSome?_eq_none_iff.1 hmiss level' hmem'
    rw [assocGet_insertEntry, hnone, ite_self] at hget
    split at hget
    · exact hget.symm
    · cases hget

/-- Counting changes no config that a command uses. -/
theorem Counted.usableConfig_eq {s t : State} {dev : DevId} {hit : Bool} (h : Counted s t dev hit) :
    usableConfig t dev = usableConfig s dev := by
  obtain ⟨r, hr, hdevice, -⟩ := h
  rw [usableConfig, usableConfig, validConfig, validConfig, hdevice dev, if_pos rfl, hr]

/-- What a `TRANSLATE` of `ia` for `dev` finds in the IOTLB of `t`: an entry that permits the access. -/
structure CachedFor (t : State) (dev : DevId) (ia : Word) (acc : AccessKind) (cfg : TranslationConfig) (st : Stage)
    (g : Granule) (e : Entry) : Prop where
  config : usableConfig t dev = some (cfg, st)
  region : lookupGranule cfg st ia = .ok g
  found : probe t.iotlb cfg g ia = some e
  permitted : e.perm &&& accessMask acc = accessMask acc

section
variable {s t : State} {dev : DevId} {ia : Word} {code : BitVec 2} {acc : AccessKind} {cfg : TranslationConfig} {st : Stage}
  {g : Granule}

/-- A `TRANSLATE` that ends before its lookup answers no entry (rules R94, R185, R194). -/
theorem exec_translate_looks_up_or_answers_no_entry (h : exec (.translate dev ia code) s = .next t) :
    (∃ r, Answers s t r ∧ ∀ e flag out, r ≠ .entry e flag out) ∨
    ∃ acc cfg st g, accessOfCode code = some acc ∧ usableConfig s dev = some (cfg, st) ∧
      lookupGranule cfg st ia = .ok g := by
  have before {r : Reply} {m : List (Key × Entry)} (ht : t = respond r { s with iotlb := m }) : Answers s t r :=
    ht ▸ answers_respond r rfl rfl
  rw [exec_translate] at h
  cases hacc : accessOfCode code with
  | none =>
    rw [execTranslate, hacc] at h
    exact .inl ⟨_, before (m := s.iotlb) (Host.Outcome.next.inj h).symm, nofun⟩
  | some acc =>
    rcases execTranslate_cases s dev ia hacc with
      ⟨-, hexec⟩ | ⟨cfg, st, hcfg, ⟨r, hregion, hexec⟩ | ⟨g, hregion, -⟩⟩
    · exact .inl ⟨_, before (m := s.iotlb) (Host.Outcome.next.inj (h.symm.trans hexec)), nofun⟩
    · rw [finishJob_translate] at hexec
      exact .inl ⟨_, before (Host.Outcome.next.inj (h.symm.trans hexec)), fun e _ _ hentry =>
        lookupGranule_error_ne_success hregion e (eq_success_of_walkReply hentry).1⟩
    · exact .inr ⟨acc, cfg, st, g, rfl, hcfg, hregion⟩

/-- A lookup that is answered with an entry leaves that entry in the IOTLB, whether it was found there or has been inserted
(rules R186, R188). -/
theorem cachedFor_of_answers_entry (hacc : accessOfCode code = some acc) (hcfg : usableConfig s dev = some (cfg, st))
    (hregion : lookupGranule cfg st ia = .ok g) (hexec : exec (.translate dev ia code) s = .next t) {e : Entry}
    {flag : Bool} {out : Word} (hanswer : Answers s t (.entry e flag out)) :
    ∃ e', CachedFor t dev ia acc cfg st g e' ∧ out = fullOutput e' ia ∧
      ∀ b, replyWords (.entry e' b out) = replyWords (.entry e b out) := by
  have hentry {r : Reply} (h : Answers s t r) := replyWords_eq_entry (h.replyWords_eq hanswer)
  cases hprobe : probe s.iotlb cfg g ia with
  | some e₀ =>
    obtain ⟨t', hexec', hanswer', hcounted, hiotlb, -⟩ :=
      translateHitIsServedFromTheEntry s dev ia code acc cfg st g e₀ hacc hcfg hregion hprobe
    cases hexec.symm.trans hexec'
    obtain ⟨e', hreply, hwords⟩ := hentry hanswer'
    obtain ⟨rfl, hpermitted, hout⟩ := eq_of_hitReply_eq_entry (acc := acc) (st := st) hreply
    exact ⟨e₀, ⟨hcounted.usableConfig_eq.trans hcfg, hregion, hiotlb ▸ hprobe, hpermitted⟩, hout, hwords⟩
  | none =>
    obtain ⟨t', hexec', hanswer', hiotlb, hcounted, -, -⟩ := exec_translate_of_miss hacc hcfg hregion hprobe
    cases hexec.symm.trans hexec'
    obtain ⟨e', hreply, hwords⟩ := hentry hanswer'
    obtain ⟨hwalk, hout⟩ := eq_success_of_walkReply hreply
    obtain ⟨-, -, hstage⟩ := usableConfig_eq_some.1 hcfg
    obtain ⟨hpermitted, -⟩ := successfulWalkReturnsASoundEntry cfg ia acc s.reader e' hwalk
    have hkey := keyOfEntry_eq_probeKey hstage hregion hwalk
    rw [hwalk] at hiotlb
    have hfound : probe t.iotlb cfg g ia = some e' :=
      hiotlb ▸ probe_insertEntry (Nat.le_of_lt_succ e'.level.isLt) hkey hprobe s.params.iotlbCap
    exact ⟨e', ⟨hcounted.usableConfig_eq.trans hcfg, hregion, hfound, hpermitted⟩, hout, hwords⟩

end

/-- Settles O44: the answered entry is in the IOTLB, so the second command is a hit that its permission check passes. -/
theorem translateAgainIsServedFromTheIotlb : Obligations.TranslateAgainIsServedFromTheIotlb := by
  intro s t dev ia code e flag out hexec hanswer
  rcases exec_translate_looks_up_or_answers_no_entry hexec with
    ⟨r, hr, hnone⟩ | ⟨acc, cfg, st, g, hacc, hcfg, hregion⟩
  · obtain ⟨e', hentry, -⟩ := replyWords_eq_entry (hr.replyWords_eq hanswer)
    exact absurd hentry (hnone e' flag out)
  · obtain ⟨e', hcached, hout, hwords⟩ := cachedFor_of_answers_entry hacc hcfg hregion hexec hanswer
    obtain ⟨u, hexec', hanswer', hcounted, hiotlb, hquiet⟩ := translateHitIsServedFromTheEntry t dev ia code acc cfg st g
      e' hacc hcached.config hcached.region hcached.found
    refine ⟨u, hexec', fun p => ?_, hcounted, hiotlb, hquiet⟩
    rw [hanswer' p, if_pos hcached.permitted, ← hwords true, hout, fullOutput]

end Sys2Proof.Machine
end

section
/-! SUPPORT. The IOTLB: what a lookup answers and an insert leaves (rules R201 to R208), and the commands that reach it directly
(rules R205, R209, R211 to R222). -/

namespace Sys2Proof.Machine

/-! ### The lookup (rules R201 to R203) -/

/-- A search from the greatest index down answers at the greatest index that has an answer. -/
theorem findSome?_reverse_range_eq_some_iff {α : Type} {f : Nat → Option α} {a : α} (n : Nat) :
    (List.range n).reverse.findSome? f = some a ↔
      ∃ i, i < n ∧ f i = some a ∧ ∀ j, i < j → j < n → f j = none := by
  induction n with
  | zero => simp
  | succ n ih =>
    rw [List.range_succ, List.reverse_append, List.reverse_singleton, List.singleton_append, List.findSome?_cons]
    cases hn : f n with
    | none =>
      rw [ih]
      constructor
      · rintro ⟨i, hi, hfi, habove⟩
        refine ⟨i, by omega, hfi, fun j hij hj => ?_⟩
        rcases Nat.lt_succ_iff_lt_or_eq.1 hj with hlt | rfl
        · exact habove j hij hlt
        · exact hn
      · rintro ⟨i, hi, hfi, habove⟩
        have hne : i ≠ n := fun h => nomatch (h ▸ hfi).symm.trans hn
        exact ⟨i, by omega, hfi, fun j hij hj => habove j hij (by omega)⟩
    | some b =>
      constructor
      · rintro ⟨⟩
        exact ⟨n, by omega, hn, fun j hnj hj => by omega⟩
      · rintro ⟨i, hi, hfi, habove⟩
        rcases Nat.lt_succ_iff_lt_or_eq.1 hi with hlt | rfl
        · exact nomatch hn.symm.trans (habove n hlt (by omega))
        · exact hn.symm.trans hfi

theorem probe_eq_some_iff {m : List (Key × Entry)} {cfg : TranslationConfig} {g : Granule} {ia : Word} {e : Entry} :
    probe m cfg g ia = some e ↔ ∃ level, level ≤ 3 ∧ assocGet (probeKey cfg g ia level) m = some e ∧
      ∀ finer, level < finer → finer ≤ 3 → assocGet (probeKey cfg g ia finer) m = none := by
  simp only [← Nat.lt_succ_iff]
  exact findSome?_reverse_range_eq_some_iff 4

/-- Settles O45: the probes go from the greatest level down. -/
theorem lookupAnswersTheFinestMatch : Obligations.LookupAnswersTheFinestMatch :=
  fun _ _ _ _ _ => probe_eq_some_iff

/-! ### The insert (rules R206 to R208) -/

section
variable {κ V : Type} [DecidableEq κ] {code : κ → Nat} {k : κ} {m : List (κ × V)}

theorem length_assocSet_of_absent (h : assocGet k m = none) (v : V) :
    (assocSet code k v m).length = m.length + 1 := by
  induction m with
  | nil => rfl
  | cons p m ih =>
    obtain ⟨k', v'⟩ := p
    have hne : k' ≠ k := fun hk => by simp [assocGet, hk] at h
    rw [assocGet, if_neg hne] at h
    rw [assocSet, if_neg hne]
    split
    · rfl
    · exact congrArg (· + 1) (ih h)

/-- In an ordered map the search for a key that is present does not stop before it. -/
theorem length_assocSet_of_present (hord : Ordered code m) {w : V} (h : assocGet k m = some w) (v : V) :
    (assocSet code k v m).length = m.length := by
  induction m with
  | nil => cases h
  | cons p m ih =>
    obtain ⟨k', v'⟩ := p
    obtain ⟨hfirst, hrest⟩ := List.pairwise_cons.1 hord
    rw [assocSet]
    by_cases hk : k' = k
    · rw [if_pos hk]; rfl
    · rw [assocGet, if_neg hk] at h
      have hlt : code k' < code k := hfirst (k, w) (assocGet_mem h)
      rw [if_neg hk, if_neg (by omega)]
      exact congrArg (· + 1) (ih hrest h)

end

section
variable {cap : Nat} {m : List (Key × Entry)} {cfg : TranslationConfig} {e : Entry}

theorem insertEntry_of_room (h : m.length < cap) : insertEntry cap m cfg e = assocSet keyCode (keyOfEntry cfg e) e m := by
  rw [insertEntry, if_neg (by omega)]

theorem length_insertEntry_of_absent (hroom : m.length < cap) (h : assocGet (keyOfEntry cfg e) m = none) :
    (insertEntry cap m cfg e).length = m.length + 1 := by
  rw [insertEntry_of_room hroom, length_assocSet_of_absent h]

theorem length_insertEntry_of_ordered (hord : Ordered keyCode m) (hroom : m.length < cap) :
    (insertEntry cap m cfg e).length = if assocGet (keyOfEntry cfg e) m = none then m.length + 1 else m.length := by
  split
  · next h => exact length_insertEntry_of_absent hroom h
  · next h =>
    obtain ⟨w, hw⟩ := Option.ne_none_iff_exists'.1 h
    rw [insertEntry_of_room hroom, length_assocSet_of_present hord hw]

/-- Of an ordered cache, the only pair under the key of an insert is the one inserted (rule R208). -/
theorem eq_of_mem_insertEntry (hord : Ordered keyCode m) {p : Key × Entry} (hp : p ∈ insertEntry cap m cfg e)
    (hkey : p.1 = keyOfEntry cfg e) : p.2 = e := by
  have hread := assocGet_of_mem (ordered_insertEntry hord cap cfg e) hp
  rw [assocGet_insertEntry, if_pos hkey] at hread
  exact (Option.some.inj hread).symm

end

/-- Settles O47: `assocSet` on the cache, or on the empty one at the cap. -/
theorem insertSupersedesOrClears : Obligations.InsertSupersedesOrClears := by
  intro cap m cfg e key
  refine ⟨assocGet_insertEntry cap m cfg e, fun hfull => insertEntry_of_full hfull cfg e, fun hroom => ?_, fun hord =>
    ⟨ordered_insertEntry hord cap cfg e, fun p hp => eq_of_mem_insertEntry hord hp, length_insertEntry_of_ordered hord⟩⟩
  rw [insertEntry_of_room hroom]
  exact length_assocSet_le keyCode key e m

/-- Inserts of distinct keys that are all absent add a pair each, as long as they find room. -/
theorem length_foldl_insertEntry {cap : Nat} (inserts : List (TranslationConfig × Entry)) (m : List (Key × Entry))
    (hroom : m.length + inserts.length ≤ cap) (hnodup : (inserts.map fun p => keyOfEntry p.1 p.2).Nodup)
    (habsent : ∀ p ∈ inserts, assocGet (keyOfEntry p.1 p.2) m = none) :
    (inserts.foldl (fun m p => insertEntry cap m p.1 p.2) m).length = m.length + inserts.length := by
  induction inserts generalizing m with
  | nil => rfl
  | cons p inserts ih =>
    obtain ⟨hfresh, hnodup⟩ := List.nodup_cons.1 hnodup
    rw [List.length_cons] at hroom
    have hlength := length_insertEntry_of_absent (cap := cap) (by omega) (habsent p List.mem_cons_self)
    have habsent' (q) (hq : q ∈ inserts) :
        assocGet (keyOfEntry q.1 q.2) (insertEntry cap m p.1 p.2) = none := by
      have hne : keyOfEntry q.1 q.2 ≠ keyOfEntry p.1 p.2 := fun h => hfresh (List.mem_map.2 ⟨q, hq, h⟩)
      rw [assocGet_insertEntry, if_neg hne, habsent q (List.mem_cons_of_mem p hq), ite_self]
    rw [List.foldl_cons, ih _ (by omega) hnodup habsent', hlength, List.length_cons]
    omega

/-- Settles O48: the first `cap` inserts fill the cache, and the last one finds it full. -/
theorem oneEntryIsLeftAfterCapPlusOneInserts : Obligations.OneEntryIsLeftAfterCapPlusOneInserts := by
  intro cap inserts _ hlength hnodup
  rcases List.eq_nil_or_concat' inserts with rfl | ⟨first, last, rfl⟩
  · cases hlength
  · have hfirst : first.length = cap := by simpa using hlength
    rw [List.map_append] at hnodup
    have hfilled := length_foldl_insertEntry (cap := cap) first [] (by simp [hfirst]) hnodup.of_append_left (fun _ _ => rfl)
    rw [List.foldl_append, List.foldl_cons, List.foldl_nil, insertEntry_of_full (by simp [hfilled, hfirst])]
    rfl

/-! ### The range of an invalidation (rules R215 to R220) -/

theorem rangeIntersects_iff {iova numPages shift : Nat} {e : Entry} : rangeIntersects iova numPages shift e = true ↔
    (e.iap.toNat ≤ iova ∧ iova ≤ e.iap.toNat + e.addrMask.toNat) ∨
      (iova ≤ e.iap.toNat ∧ e.iap.toNat < iova + numPages * 2 ^ shift) := by
  simp [rangeIntersects]

/-- Settles O54: if the ranges overlap, the greater of their first addresses lies in both, and each half of the test is that for
one order of the two. -/
theorem intersectionTestFindsEveryOverlap : Obligations.IntersectionTestFindsEveryOverlap := by
  intro iova numPages shift e hpages
  have hsize : 0 < numPages * 2 ^ shift := Nat.mul_pos hpages (Nat.two_pow_pos shift)
  rw [rangeIntersects_iff]
  constructor
  · rintro (⟨hle, hin⟩ | ⟨hle, hin⟩)
    · exact ⟨iova, hle, hin, le_rfl, by omega⟩
    · exact ⟨e.iap.toNat, le_rfl, by omega, hle, hin⟩
  · rintro ⟨a, hentry, hentry', hrange, hrange'⟩
    omega

theorem scopeMatches_iff {aw vw : Bool} {asid vmid : BitVec 16} {k : Key} : scopeMatches aw vw asid vmid k = true ↔
    (aw = true ∨ k.asid = asid) ∧ (vw = true ∨ k.vmid = vmid) := by
  simp [scopeMatches]

theorem scanRemoves_iff {aw vw : Bool} {asid vmid : BitVec 16} {tg : BitVec 2} {iova numPages : Word} {p : Key × Entry} :
    scanRemoves aw vw asid vmid tg iova numPages p = true ↔
      (aw = true ∨ p.1.asid = asid) ∧ (vw = true ∨ p.1.vmid = vmid) ∧
        ((p.2.iap.toNat ≤ iova.toNat ∧ iova.toNat ≤ p.2.iap.toNat + p.2.addrMask.toNat) ∨
          (iova.toNat ≤ p.2.iap.toNat ∧ p.2.iap.toNat < iova.toNat + numPages.toNat * 2 ^ rangeShift tg)) := by
  rw [scanRemoves, Bool.and_eq_true, scopeMatches_iff, rangeIntersects_iff, and_assoc]

theorem fastPathHits_iff {aw vw : Bool} {asid vmid : BitVec 16} {tg lvl : BitVec 2} {iova numPages : Word}
    {m : List (Key × Entry)} : fastPathHits aw vw asid vmid tg lvl iova numPages m = true ↔
      lvl ≠ 0 ∧ numPages = 1 ∧ aw = false ∧ vw = false ∧ assocGet ⟨asid, vmid, iova, tg, lvl⟩ m ≠ none := by
  simp [fastPathHits, fastPathKey, Option.isSome_iff_ne_none, and_assoc]

theorem iovaOperandsLegal_iff {aw vw : Bool} {asid vmid : BitVec 16} : iovaOperandsLegal aw vw asid vmid = true ↔
    (aw = true → asid = 0) ∧ (vw = true → vmid = 0) := by
  cases aw <;> cases vw <;> simp [iovaOperandsLegal]

/-! ### The commands that write the IOTLB (rules R209, R211 to R222) -/

/-- A command that sets the IOTLB and answers `OK` touches nothing else (rule R222). -/
theorem answers_ok_of_setIotlb {o : Host.Outcome State Fault Refusal} {s : State} {m : List (Key × Entry)}
    (hexec : o = .next (respond .ok { s with iotlb := m })) :
    ∃ t, o = .next t ∧ Answers s t .ok ∧ t.iotlb = m ∧ SameTable s t ∧ Quiet s t :=
  ⟨_, hexec, answers_respond .ok rfl rfl, rfl, sameTable_of_eq rfl rfl rfl, quiet_respond .ok { s with iotlb := m }⟩

theorem mem_evict_iff_not {gone : Key × Entry → Bool} {p : Key × Entry} {m : List (Key × Entry)} :
    p ∈ evict gone m ↔ p ∈ m ∧ ¬gone p = true := by
  rw [mem_evict, Bool.not_eq_true]

/-- Settles O50: each of the three sets the IOTLB to what it does not remove. -/
theorem tlbiAllAsidAndVmidRemoveExactlyTheirPairs : Obligations.TlbiAllAsidAndVmidRemoveExactlyTheirPairs := by
  refine ⟨fun s => answers_ok_of_setIotlb (exec_tlbiAll s), fun s asid => ?_, fun s vmid => ?_⟩
  · obtain ⟨t, hnext, hanswer, hiotlb, hframe⟩ := answers_ok_of_setIotlb (exec_tlbiAsid asid s)
    exact ⟨t, hnext, hanswer, fun p => by rw [hiotlb, mem_evict_iff_not, beq_iff_eq], hframe⟩
  · obtain ⟨t, hnext, hanswer, hiotlb, hframe⟩ := answers_ok_of_setIotlb (exec_tlbiVmid vmid s)
    exact ⟨t, hnext, hanswer, fun p => by rw [hiotlb, mem_evict_iff_not, beq_iff_eq], hframe⟩

theorem exec_tlbiIova_of_legal {aw vw : Bool} {asid vmid : BitVec 16} (h : iovaOperandsLegal aw vw asid vmid = true)
    (tg lvl : BitVec 2) (iova numPages : Word) (s : State) :
    exec (.tlbiIova aw vw asid vmid tg lvl iova numPages) s =
      .next (respond .ok { s with iotlb := afterIovaInvalidation aw vw asid vmid tg lvl iova numPages s.iotlb }) := by
  rw [exec_tlbiIova, execTlbiIova, if_pos h]

/-- Settles O52: the pair found makes the fast path hit, and it erases that key. -/
theorem tlbiIovaFastPathRemovesOneKey : Obligations.TlbiIovaFastPathRemovesOneKey := by
  intro s asid vmid tg lvl iova e hlvl hfound
  have hhits : fastPathHits false false asid vmid tg lvl iova 1 s.iotlb = true :=
    fastPathHits_iff.2 ⟨hlvl, rfl, rfl, rfl, Option.ne_none_iff_exists'.2 ⟨e, hfound⟩⟩
  have hexec := exec_tlbiIova_of_legal (aw := false) (vw := false) (asid := asid) (vmid := vmid) rfl tg lvl iova 1 s
  rw [afterIovaInvalidation, if_pos hhits] at hexec
  obtain ⟨t, hnext, hanswer, hiotlb, hframe⟩ := answers_ok_of_setIotlb hexec
  exact ⟨t, hnext, hanswer, fun p => by rw [hiotlb, mem_assocErase, fastPathKey], hframe⟩

/-- Settles O53: without a hit of the fast path, the pairs that fail one of the scan's tests stay. -/
theorem tlbiIovaScanRemovesExactlyTheOverlaps : Obligations.TlbiIovaScanRemovesExactlyTheOverlaps := by
  intro s aw vw asid vmid tg lvl iova numPages hasid hvmid hmiss granuleSize
  have hexec := exec_tlbiIova_of_legal (iovaOperandsLegal_iff.2 ⟨hasid, hvmid⟩) tg lvl iova numPages s
  rw [afterIovaInvalidation, if_neg fun hhits => hmiss (fastPathHits_iff.1 hhits)] at hexec
  obtain ⟨t, hnext, hanswer, hiotlb, hframe⟩ := answers_ok_of_setIotlb hexec
  exact ⟨t, hnext, hanswer, fun p => by rw [hiotlb, mem_evict_iff_not, scanRemoves_iff, rangeShift], hframe⟩

theorem tagOf_of_granuleOfTag {tg : BitVec 2} {g : Granule} (h : granuleOfTag tg = some g) : tagOf g = tg := by
  revert tg
  cases g <;> decide

theorem insertOperands_eq_some {tg lvl : BitVec 2} {iap ta : Word} {g : Granule} (htg : granuleOfTag tg = some g)
    (hiap : iap &&& blockMask lvl.toNat g = 0) (hta : ta &&& blockMask lvl.toNat g = 0) :
    insertOperands tg lvl iap ta = some g := by
  simp only [insertOperands, htg, hiap, hta, and_self, if_true]

/-- Settles O49: the operands pass the checks of rule R94, and the entry's granule has the tag of the request. -/
theorem tlbInsertStoresTheEntry : Obligations.TlbInsertStoresTheEntry := by
  intro s dev iap ta tg lvl perm cfg g hvalid htg hiap hta
  have hexec : exec (.tlbInsert dev iap ta tg lvl perm) s = .next (respond .ok
      { s with iotlb := insertEntry s.params.iotlbCap s.iotlb cfg (insertedEntry g iap ta lvl perm) }) := by
    simp only [exec_tlbInsert, execTlbInsert, insertOperands_eq_some htg hiap hta, hvalid]
  have hkey : keyOfEntry cfg (insertedEntry g iap ta lvl perm) = ⟨cfg.asid, cfg.vmid, iap, tg, lvl⟩ := by
    rw [← tagOf_of_granuleOfTag htg]
    rfl
  obtain ⟨t, hnext, hanswer, hiotlb, hframe⟩ := answers_ok_of_setIotlb hexec
  exact ⟨t, hnext, hanswer, hkey ▸ inserted_of_insertEntry hiotlb, hframe⟩

/-! ### `TLB_LOOKUP` (rules R204, R205) -/

/-- What `TLB_LOOKUP` answers of what its probes found. -/
def lookupReply : Option Entry → Reply
  | some e => .entry e false 0
  | none => .miss

theorem lookupRegion_of_stage {cfg : TranslationConfig} {rgn : RegionIx} {g : Granule}
    (h : (cfg.stage = 1 ∧ granuleOfTag (regionOf cfg rgn).tg = some g) ∨ (cfg.stage = 2 ∧ granuleOfTag cfg.s2.tg = some g)) :
    lookupRegion cfg rgn = some g := by
  rcases h with ⟨hstage, htg⟩ | ⟨hstage, htg⟩
  · have hs1 : stageOfCode cfg.stage = some .s1 := by rw [hstage]; rfl
    simp only [lookupRegion, lookupTag, hs1, htg]
  · have hs2 : stageOfCode cfg.stage = some .s2 := by rw [hstage]; rfl
    simp only [lookupRegion, lookupTag, hs2, htg]

theorem exec_tlbLookup_of_lookupRegion {s : State} {dev : DevId} {rgn : RegionIx} {ia : Word} {cfg : TranslationConfig}
    {g : Granule} (hvalid : validConfig s dev = some cfg) (hregion : lookupRegion cfg rgn = some g) :
    exec (.tlbLookup dev rgn ia) s = .next (respond (lookupReply (probe s.iotlb cfg g ia))
      (countLookup s dev (probe s.iotlb cfg g ia).isSome)) := by
  simp only [exec_tlbLookup, execTlbLookup, hvalid, hregion]
  cases probe s.iotlb cfg g ia <;> rfl

/-- Counting a lookup of a device with a valid config and answering it does nothing else. -/
theorem respond_countLookup_frame {s : State} {dev : DevId} {cfg : TranslationConfig} (hvalid : validConfig s dev = some cfg)
    (r : Reply) (hit : Bool) :
    Answers s (respond r (countLookup s dev hit)) r ∧ Counted s (respond r (countLookup s dev hit)) dev hit ∧
      (respond r (countLookup s dev hit)).iotlb = s.iotlb ∧ Quiet s (respond r (countLookup s dev hit)) :=
  ⟨answers_respond r (countLookup_ports s dev hit) (countLookup_active s dev hit),
    counted_of_countLookup hvalid rfl (countLookup_buses s dev hit) (countLookup_draws s dev hit),
    countLookup_iotlb s dev hit, quiet_respond_countLookup r s dev hit⟩

/-- Settles O46: of the state a lookup counts itself and answers, whether it hits or misses. -/
theorem tlbLookupAnswersAndCounts : Obligations.TlbLookupAnswersAndCounts := by
  intro s dev rgn ia cfg g hvalid hstage
  have hexec := exec_tlbLookup_of_lookupRegion (ia := ia) hvalid (lookupRegion_of_stage hstage)
  constructor
  · intro e hprobe
    rw [hprobe] at hexec
    exact ⟨_, hexec, respond_countLookup_frame hvalid (.entry e false 0) true⟩
  · intro hprobe
    rw [hprobe] at hexec
    exact ⟨_, hexec, respond_countLookup_frame hvalid .miss false⟩

end Sys2Proof.Machine
end

section
/-! SUPPORT. The device table: what each of its commands does to a device with a record and to one without (rules R231 to R236),
and that no command reads or writes the record of a device it does not name (rule R238). -/

namespace Sys2Proof.Machine

/-! ### The device-table commands, case by case (rules R231 to R236, R258) -/

section
variable {s : State} {dev : DevId} {r : DevRecord}

theorem exec_devGet_of_absent (h : deviceOf s dev = none) :
    exec (.devGet dev) s = .next (respond (.device true false) (createDevice s dev)) := by
  rw [exec_devGet, execDevGet, h]

theorem exec_devGet_of_present (h : deviceOf s dev = some r) :
    exec (.devGet dev) s = .next (respond (.device false r.cfgValid) s) := by
  rw [exec_devGet, execDevGet, h]

theorem programDevice_of_absent (h : deviceOf s dev = none) (cfg : TranslationConfig) :
    programDevice s dev cfg = setDevice (createDevice s dev) dev (programRecord cfg (newRecord s.draws)) := by
  rw [programDevice, h]

theorem programDevice_of_present (h : deviceOf s dev = some r) (cfg : TranslationConfig) :
    programDevice s dev cfg = setDevice s dev (programRecord cfg r) := by
  rw [programDevice, h]

theorem exec_cfgInv_of_absent (h : deviceOf s dev = none) : exec (.cfgInv dev) s = .next (respond .configError s) := by
  rw [exec_cfgInv, execCfgInv, h, refuseConfig_eq]

theorem exec_cfgInv_of_present (h : deviceOf s dev = some r) :
    exec (.cfgInv dev) s = .next (respond .ok (setDevice s dev { r with cfgValid := false })) := by
  rw [exec_cfgInv, execCfgInv, h]

theorem exec_cntRead_of_absent (h : deviceOf s dev = none) : exec (.cntRead dev) s = .next (respond .configError s) := by
  rw [exec_cntRead, execCntRead, h, refuseConfig_eq]

theorem exec_cntRead_of_present (h : deviceOf s dev = some r) :
    exec (.cntRead dev) s = .next (respond (.counters r.hits r.misses) s) := by
  rw [exec_cntRead, execCntRead, h]

theorem exec_cntClr_of_absent (h : deviceOf s dev = none) : exec (.cntClr dev) s = .next (respond .configError s) := by
  rw [exec_cntClr, execCntClr, h, refuseConfig_eq]

theorem exec_cntClr_of_present (h : deviceOf s dev = some r) :
    exec (.cntClr dev) s = .next (respond .ok (setDevice s dev { r with hits := 0, misses := 0 })) := by
  rw [exec_cntClr, execCntClr, h]

end

/-! ### What an answer, a written record and a created record leave unchanged -/

/-- An answer given on the state as it was changes nothing else. -/
theorem respond_frame (reply : Reply) (s : State) :
    Answers s (respond reply s) reply ∧ SameTable s (respond reply s) ∧ (respond reply s).iotlb = s.iotlb ∧
      Quiet s (respond reply s) :=
  ⟨answers_respond reply rfl rfl, sameTable_of_eq rfl rfl rfl, rfl, quiet_respond reply s⟩

/-- Writing one record and answering changes nothing else. -/
theorem respond_setDevice_frame (reply : Reply) (s : State) (dev : DevId) (r : DevRecord) :
    Answers s (respond reply (setDevice s dev r)) reply ∧ OnlyRecord s (respond reply (setDevice s dev r)) dev r ∧
      (respond reply (setDevice s dev r)).iotlb = s.iotlb ∧ Quiet s (respond reply (setDevice s dev r)) :=
  ⟨answers_respond reply rfl rfl, ⟨fun d => deviceOf_setDevice s dev d r, rfl, rfl⟩, rfl,
    quiet_respond reply (setDevice s dev r)⟩

/-- A created record populates the entry of its bus number, the high byte of the device id, and no other (rules R40, R232). -/
theorem mem_createDevice_buses {s : State} {dev : DevId} {b : BitVec 8} :
    b ∈ (createDevice s dev).buses ↔ b = dev.extractLsb' 8 8 ∨ b ∈ s.buses := by
  rw [createDevice_buses, mem_setAdd, busOf]

/-! ### The statements about single commands -/

/-- Settles O55: an absent record is created, and of a present one only its flag is answered. -/
theorem devGetCreatesTheRecordOnce : Obligations.DevGetCreatesTheRecordOnce := by
  intro s dev
  constructor
  · intro habsent
    have hdevice (d : DevId) := deviceOf_createDevice s dev d
    refine ⟨_, newRecord s.draws, exec_devGet_of_absent habsent, answers_respond _ rfl rfl, ?_, rfl, rfl, rfl, rfl, ?_,
      fun b => mem_createDevice_buses, rfl, quiet_respond _ (createDevice s dev)⟩
    · rw [deviceOf_respond, hdevice, if_pos rfl]
    · intro d hd
      rw [deviceOf_respond, hdevice, if_neg hd]
  · intro r hpresent
    exact ⟨_, exec_devGet_of_present hpresent, respond_frame _ s⟩

/-- Settles O56: a new record and an old one are programmed alike; they differ in what is kept of the old one. -/
theorem cfgSetStoresTheConfig : Obligations.CfgSetStoresTheConfig := by
  intro s dev cfg
  have hexec := exec_cfgSet dev cfg s
  rw [execCfgSet] at hexec
  cases hdev : deviceOf s dev with
  | none =>
    rw [programDevice_of_absent hdev] at hexec
    obtain ⟨-, ⟨hdevice, hbuses, -⟩, -, hquiet⟩ :=
      respond_setDevice_frame .ok (createDevice s dev) dev (programRecord cfg (newRecord s.draws))
    refine ⟨_, programRecord cfg (newRecord s.draws), hexec, answers_respond .ok rfl rfl, ?_, rfl, rfl, rfl, rfl,
      fun old hold => (Option.some_ne_none old hold.symm).elim, fun _ => ⟨rfl, fun b => ?_⟩, ?_, rfl, hquiet⟩
    · rw [hdevice, if_pos rfl]
    · rw [hbuses, mem_createDevice_buses]
    · intro d hd
      rw [hdevice, if_neg hd, deviceOf_createDevice, if_neg hd]
  | some r =>
    rw [programDevice_of_present hdev] at hexec
    obtain ⟨hanswer, ⟨hdevice, hbuses, -⟩, hframe⟩ := respond_setDevice_frame .ok s dev (programRecord cfg r)
    refine ⟨_, programRecord cfg r, hexec, hanswer, ?_, rfl, rfl, rfl, rfl, ?_, nofun, ?_, hframe⟩
    · rw [hdevice, if_pos rfl]
    · rintro _ ⟨⟩
      exact ⟨rfl, rfl, hbuses⟩
    · intro d hd
      rw [hdevice, if_neg hd]

/-- Settles O57: the record is written with its flag cleared. -/
theorem cfgInvKeepsTheCounters : Obligations.CfgInvKeepsTheCounters :=
  fun s dev _ hpresent => ⟨_, exec_cfgInv_of_present hpresent, respond_setDevice_frame .ok s dev _⟩

/-- Settles O58: `CNT_READ` answers on the state as it was, `CNT_CLR` writes the record with its counters at 0. -/
theorem cntReadAnswersAndCntClrZeroesBothCounters : Obligations.CntReadAnswersAndCntClrZeroesBothCounters :=
  fun s dev _ hpresent =>
    ⟨⟨_, exec_cntRead_of_present hpresent, respond_frame _ s⟩,
      ⟨_, exec_cntClr_of_present hpresent, respond_setDevice_frame .ok s dev _⟩⟩

/-! ### Every command is confined to the record of the device it names (rule R238) -/

/-- The device table with the record of the device a command names written, if it names one and writes it. -/
def writeNamed : Option DevId → Option DevRecord → List (DevId × DevRecord) → List (DevId × DevRecord)
  | some dev, some r, ctx => assocSet BitVec.toNat dev r ctx
  | some _, none, ctx => ctx
  | none, _, ctx => ctx

@[simp] theorem writeNamed_none (named : Option DevId) (ctx : List (DevId × DevRecord)) :
    writeNamed named none ctx = ctx := by
  cases named <;> rfl

/-- The record of a device that is not named is not written. -/
theorem assocGet_writeNamed_other {named : Option DevId} {d : DevId} (h : named ≠ some d) (w : Option DevRecord)
    (ctx : List (DevId × DevRecord)) : assocGet d (writeNamed named w ctx) = assocGet d ctx := by
  cases named with
  | none => rfl
  | some dev =>
    cases w with
    | none => rfl
    | some r => exact assocGet_set_other _ (fun hd => h (congrArg some hd.symm)) r ctx

/-- The record of the device that is named is written alike in every table that holds the same record of it. -/
theorem assocGet_writeNamed_congr {d : DevId} {ctx ctx' : List (DevId × DevRecord)} (h : assocGet d ctx = assocGet d ctx')
    (w : Option DevRecord) : assocGet d (writeNamed (some d) w ctx) = assocGet d (writeNamed (some d) w ctx') := by
  cases w with
  | none => exact h
  | some r => exact (assocGet_set_same ..).trans (assocGet_set_same ..).symm

/-- Two device tables hold the same record, or both none, of the device that is named, if one is. -/
def AgreeOn (named : Option DevId) (ctx ctx' : List (DevId × DevRecord)) : Prop :=
  ∀ d, named = some d → assocGet d ctx = assocGet d ctx'

/-- Of the device table a command reads and writes one record only, that of the device it names: over every table that agrees
with that of `s` there, it does the same to the rest of the state and writes the same record, or none. -/
def Confined (i : Instr) (s : State) : Prop :=
  ∃ (u : State) (w : Option DevRecord), ∀ ctx, AgreeOn (namedDevice i) ctx s.ctx →
    exec i { s with ctx := ctx } = .next { u with ctx := writeNamed (namedDevice i) w ctx }

/-- A command that answers, and of the rest of the state sets the IOTLB at most, is confined if its answer and the IOTLB are the
same over every table. -/
theorem confined_of_answer {i : Instr} {s : State} {reply : Reply} {m : List (Key × Entry)}
    (h : ∀ ctx, AgreeOn (namedDevice i) ctx s.ctx →
      exec i { s with ctx := ctx } = .next (respond reply { s with ctx := ctx, iotlb := m })) : Confined i s :=
  ⟨respond reply { s with iotlb := m }, none, fun ctx hctx => by rw [h ctx hctx, writeNamed_none]; rfl⟩

section
variable {s : State} {ctx : List (DevId × DevRecord)} {dev : DevId} (h : AgreeOn (some dev) ctx s.ctx)
include h

theorem deviceOf_of_agreeOn : deviceOf { s with ctx := ctx } dev = deviceOf s dev := h dev rfl

theorem validConfig_of_agreeOn : validConfig { s with ctx := ctx } dev = validConfig s dev := by
  rw [validConfig, validConfig, deviceOf_of_agreeOn h]

theorem usableConfig_of_agreeOn : usableConfig { s with ctx := ctx } dev = usableConfig s dev := by
  rw [usableConfig, usableConfig, validConfig_of_agreeOn h]

/-- Counting a lookup writes the record of its device, from what that record was (rule R204). -/
theorem countLookup_of_agreeOn (hit : Bool) : countLookup { s with ctx := ctx } dev hit =
    { countLookup s dev hit with
      ctx := writeNamed (some dev) ((deviceOf s dev).map (bumpCounter s.params hit)) ctx } := by
  rw [countLookup, countLookup, deviceOf_of_agreeOn h]
  cases deviceOf s dev <;> rfl

end

/-! ### `TRANSLATE` and `PTW` over another table -/

theorem exec_translate_of_acc {code : BitVec 2} {acc : AccessKind} (h : accessOfCode code = some acc) (dev : DevId)
    (ia : Word) (s : State) :
    exec (.translate dev ia code) s = .next (runToEnd (translateStepA dev ia acc s)) := by
  rw [exec_translate, execTranslate, h]

theorem exec_ptw_of_acc {code : BitVec 2} {acc : AccessKind} (h : accessOfCode code = some acc) (dev : DevId)
    (ia : Word) (s : State) :
    exec (.ptw dev ia code) s = .next (runToEnd (ptwStepA dev ia acc s)) := by
  rw [exec_ptw, execPtw, h]

/-- What runs after the step A of a command reads no device record (rule R47). -/
theorem runToEnd_ctx (a : StepA) (ctx : List (DevId × DevRecord)) :
    runToEnd ({ a.1 with ctx := ctx }, a.2) = { runToEnd a with ctx := ctx } := by
  obtain ⟨s, _ | j⟩ := a
  · rfl
  · exact finishJob_ctx j.cmd j.cfg j.ia _ { s with reader := (finishWalk j.cfg j.ia j.acc 4 s.reader j.phase).1 } ctx

section
variable (s : State) (dev : DevId)

/-- Step A of `TRANSLATE` reads the config of its device, and writes its record when it counts a lookup. -/
theorem translateStepA_confined (ia : Word) (acc : AccessKind) : ∃ w, ∀ ctx, AgreeOn (some dev) ctx s.ctx →
    translateStepA dev ia acc { s with ctx := ctx } =
      ({ (translateStepA dev ia acc s).1 with ctx := writeNamed (some dev) w ctx }, (translateStepA dev ia acc s).2) := by
  unfold translateStepA
  cases hcfg : usableConfig s dev with
  | none => exact ⟨none, fun ctx hctx => by rw [usableConfig_of_agreeOn hctx, hcfg]; rfl⟩
  | some p =>
    obtain ⟨cfg, st⟩ := p
    cases hregion : lookupGranule cfg st ia with
    | error r =>
      refine ⟨none, fun ctx hctx => ?_⟩
      simp only [usableConfig_of_agreeOn hctx, hcfg, hregion, finishJob_ctx, writeNamed_none]
    | ok g =>
      cases hprobe : probe s.iotlb cfg g ia with
      | some e =>
        refine ⟨(deviceOf s dev).map (bumpCounter s.params true), fun ctx hctx => ?_⟩
        simp only [usableConfig_of_agreeOn hctx, hcfg, hregion, hprobe, countLookup_of_agreeOn hctx, answerHit_eq_respond]
        rfl
      | none =>
        refine ⟨(deviceOf s dev).map (bumpCounter s.params false), fun ctx hctx => ?_⟩
        simp only [usableConfig_of_agreeOn hctx, hcfg, hregion, hprobe, countLookup_of_agreeOn hctx]

theorem ptwStepA_of_agreeOn (ia : Word) (acc : AccessKind) {ctx : List (DevId × DevRecord)}
    (h : AgreeOn (some dev) ctx s.ctx) : ptwStepA dev ia acc { s with ctx := ctx } =
      ({ (ptwStepA dev ia acc s).1 with ctx := ctx }, (ptwStepA dev ia acc s).2) := by
  rw [ptwStepA, ptwStepA, usableConfig_of_agreeOn h]
  cases usableConfig s dev <;> rfl

/-! ### Each command over another table -/

theorem confined_translate (ia : Word) (code : BitVec 2) : Confined (.translate dev ia code) s := by
  cases hacc : accessOfCode code with
  | none => exact confined_of_answer fun ctx _ => by rw [exec_translate, execTranslate, hacc]; rfl
  | some acc =>
    obtain ⟨w, hstep⟩ := translateStepA_confined s dev ia acc
    exact ⟨runToEnd (translateStepA dev ia acc s), w, fun ctx hctx => by
      rw [exec_translate_of_acc hacc, hstep ctx hctx, runToEnd_ctx, namedDevice]⟩

theorem confined_ptw (ia : Word) (code : BitVec 2) : Confined (.ptw dev ia code) s := by
  cases hacc : accessOfCode code with
  | none => exact confined_of_answer fun ctx _ => by rw [exec_ptw, execPtw, hacc]; rfl
  | some acc =>
    exact ⟨runToEnd (ptwStepA dev ia acc s), none, fun ctx hctx => by
      rw [exec_ptw_of_acc hacc, ptwStepA_of_agreeOn s dev ia acc hctx, runToEnd_ctx, writeNamed_none]⟩

theorem confined_tlbLookup (rgn : RegionIx) (ia : Word) : Confined (.tlbLookup dev rgn ia) s := by
  cases hvalid : validConfig s dev with
  | none =>
    exact confined_of_answer fun ctx hctx => by
      rw [exec_tlbLookup, execTlbLookup, validConfig_of_agreeOn hctx, hvalid]; rfl
  | some cfg =>
    cases hregion : lookupRegion cfg rgn with
    | none =>
      exact confined_of_answer fun ctx hctx => by
        simp only [exec_tlbLookup, execTlbLookup, validConfig_of_agreeOn hctx, hvalid, hregion]; rfl
    | some g =>
      refine ⟨respond (lookupReply (probe s.iotlb cfg g ia)) (countLookup s dev (probe s.iotlb cfg g ia).isSome),
        (deviceOf s dev).map (bumpCounter s.params (probe s.iotlb cfg g ia).isSome), fun ctx hctx => ?_⟩
      rw [exec_tlbLookup_of_lookupRegion ((validConfig_of_agreeOn hctx).trans hvalid) hregion, countLookup_of_agreeOn hctx]
      rfl

theorem confined_tlbInsert (iap ta : Word) (tg lvl perm : BitVec 2) : Confined (.tlbInsert dev iap ta tg lvl perm) s := by
  cases hoperands : insertOperands tg lvl iap ta with
  | none => exact confined_of_answer fun ctx _ => by rw [exec_tlbInsert, execTlbInsert, hoperands]; rfl
  | some g =>
    cases hvalid : validConfig s dev with
    | none =>
      exact confined_of_answer fun ctx hctx => by
        simp only [exec_tlbInsert, execTlbInsert, hoperands, validConfig_of_agreeOn hctx, hvalid]; rfl
    | some cfg =>
      exact confined_of_answer fun ctx hctx => by
        simp only [exec_tlbInsert, execTlbInsert, hoperands, validConfig_of_agreeOn hctx, hvalid]; rfl

theorem confined_devGet : Confined (.devGet dev) s := by
  cases hdev : deviceOf s dev with
  | none =>
    exact ⟨respond (.device true false) (createDevice s dev), some (newRecord s.draws), fun ctx hctx =>
      exec_devGet_of_absent ((deviceOf_of_agreeOn hctx).trans hdev)⟩
  | some r => exact confined_of_answer fun ctx hctx => exec_devGet_of_present ((deviceOf_of_agreeOn hctx).trans hdev)

theorem confined_cfgSet (cfg : TranslationConfig) : Confined (.cfgSet dev cfg) s := by
  cases hdev : deviceOf s dev with
  | none =>
    refine ⟨respond .ok (createDevice s dev), some (programRecord cfg (newRecord s.draws)), fun ctx hctx => ?_⟩
    rw [exec_cfgSet, execCfgSet, programDevice_of_absent ((deviceOf_of_agreeOn hctx).trans hdev), setDevice,
      createDevice_ctx, assocSet_set]
    rfl
  | some r =>
    refine ⟨respond .ok s, some (programRecord cfg r), fun ctx hctx => ?_⟩
    rw [exec_cfgSet, execCfgSet, programDevice_of_present ((deviceOf_of_agreeOn hctx).trans hdev)]
    rfl

theorem confined_cfgInv : Confined (.cfgInv dev) s := by
  cases hdev : deviceOf s dev with
  | none => exact confined_of_answer fun ctx hctx => exec_cfgInv_of_absent ((deviceOf_of_agreeOn hctx).trans hdev)
  | some r =>
    exact ⟨respond .ok s, some { r with cfgValid := false }, fun ctx hctx =>
      exec_cfgInv_of_present ((deviceOf_of_agreeOn hctx).trans hdev)⟩

theorem confined_cntRead : Confined (.cntRead dev) s := by
  cases hdev : deviceOf s dev with
  | none => exact confined_of_answer fun ctx hctx => exec_cntRead_of_absent ((deviceOf_of_agreeOn hctx).trans hdev)
  | some r => exact confined_of_answer fun ctx hctx => exec_cntRead_of_present ((deviceOf_of_agreeOn hctx).trans hdev)

theorem confined_cntClr : Confined (.cntClr dev) s := by
  cases hdev : deviceOf s dev with
  | none => exact confined_of_answer fun ctx hctx => exec_cntClr_of_absent ((deviceOf_of_agreeOn hctx).trans hdev)
  | some r =>
    exact ⟨respond .ok s, some { r with hits := 0, misses := 0 }, fun ctx hctx =>
      exec_cntClr_of_present ((deviceOf_of_agreeOn hctx).trans hdev)⟩

end

theorem confined_tlbiIova (aw vw : Bool) (asid vmid : BitVec 16) (tg lvl : BitVec 2) (iova numPages : Word) (s : State) :
    Confined (.tlbiIova aw vw asid vmid tg lvl iova numPages) s := by
  by_cases hlegal : iovaOperandsLegal aw vw asid vmid = true
  · exact confined_of_answer (m := afterIovaInvalidation aw vw asid vmid tg lvl iova numPages s.iotlb)
      fun ctx _ => exec_tlbiIova_of_legal hlegal tg lvl iova numPages { s with ctx := ctx }
  · exact confined_of_answer fun ctx _ => by rw [exec_tlbiIova, execTlbiIova, if_neg hlegal]; rfl

/-- Rule R238, command by command. -/
theorem exec_confined (i : Instr) (s : State) : Confined i s := by
  cases i with
  | translate dev ia code => exact confined_translate s dev ia code
  | ptw dev ia code => exact confined_ptw s dev ia code
  | tlbLookup dev rgn ia => exact confined_tlbLookup s dev rgn ia
  | tlbInsert dev iap ta tg lvl perm => exact confined_tlbInsert s dev iap ta tg lvl perm
  | tlbiAll => exact confined_of_answer fun _ _ => exec_tlbiAll _
  | tlbiAsid asid =>
    exact confined_of_answer (m := evict (fun p => p.1.asid == asid) s.iotlb) fun _ _ => exec_tlbiAsid asid _
  | tlbiVmid vmid =>
    exact confined_of_answer (m := evict (fun p => p.1.vmid == vmid) s.iotlb) fun _ _ => exec_tlbiVmid vmid _
  | tlbiIova aw vw asid vmid tg lvl iova numPages => exact confined_tlbiIova aw vw asid vmid tg lvl iova numPages s
  | devGet dev => exact confined_devGet s dev
  | cfgSet dev cfg => exact confined_cfgSet s dev cfg
  | cfgInv dev => exact confined_cfgInv s dev
  | cntRead dev => exact confined_cntRead s dev
  | cntClr dev => exact confined_cntClr s dev

/-- Settles O60: what a confined command does over the table of `s` and over another one that agrees with it on the device
named. -/
theorem commandsLeaveOtherDevicesAlone : Obligations.CommandsLeaveOtherDevicesAlone := by
  constructor
  · intro i s t d hexec hd
    obtain ⟨u, w, hconfined⟩ := exec_confined i s
    cases hexec.symm.trans (hconfined s.ctx fun _ _ => rfl)
    exact assocGet_writeNamed_other hd w s.ctx
  · intro i s t ctx hctx hexec
    obtain ⟨u, w, hconfined⟩ := exec_confined i s
    cases hexec.symm.trans (hconfined s.ctx fun _ _ => rfl)
    refine ⟨_, hconfined ctx hctx, rfl, fun d hd => ?_⟩
    change assocGet d (writeNamed (namedDevice i) w ctx) = assocGet d (writeNamed (namedDevice i) w s.ctx)
    rw [hd]
    exact assocGet_writeNamed_congr (hctx d hd) w

end Sys2Proof.Machine
end

section
/-! SUPPORT. How a command ends that gives no entry: an illegal request (rule R259), a fault (rule R257), a refusal of a config
(rules R194, R205, R237, R258); and the reset of a running engine (rules R280, R281). -/

namespace Sys2Proof.Machine

/-! ### Illegal requests (rules R94, R95, R259) -/

theorem exec_of_not_wellFormed {i : Instr} (h : i.wellFormed = false) (s : State) :
    exec i s = .next (respond .badCommand s) := by
  cases i with
  | translate dev ia code =>
    have hacc : accessOfCode code = none := by simpa [Instr.wellFormed] using h
    rw [exec_translate, execTranslate, hacc, badCommand_eq]
  | ptw dev ia code =>
    have hacc : accessOfCode code = none := by simpa [Instr.wellFormed] using h
    rw [exec_ptw, execPtw, hacc, badCommand_eq]
  | tlbInsert dev iap ta tg lvl perm =>
    have hoperands : insertOperands tg lvl iap ta = none := by simpa [Instr.wellFormed] using h
    rw [exec_tlbInsert, execTlbInsert, hoperands, badCommand_eq]
  | tlbiIova aw vw asid vmid tg lvl iova numPages =>
    have hillegal : iovaOperandsLegal aw vw asid vmid = false := h
    rw [exec_tlbiIova, execTlbiIova, if_neg (by simp [hillegal]), badCommand_eq]
  | _ => cases h

/-- The operands are checked in a command's first step, so an illegal command has no other (rules R62, R94). -/
theorem startCommand_of_not_wellFormed {i : Instr} (h : i.wellFormed = false) (s : State) :
    startCommand i s = .next (respond .badCommand s) := by
  have hexec := exec_of_not_wellFormed h s
  obtain ⟨t, hstart, -⟩ := startCommand_goesOn i s
  rcases startCommand_cases hstart with hwhole | ⟨dev, ia, code, acc, rfl, hacc, -⟩ | ⟨dev, ia, code, acc, rfl, hacc, -⟩
  · rw [hstart, ← hwhole, hexec]
  · simp [Instr.wellFormed, hacc] at h
  · simp [Instr.wellFormed, hacc] at h

theorem takeRequest_of_illegal {req : Request} (h : ∀ i, decode req = .ok i → i.wellFormed = false) (whole : Bool)
    (p : Nat) (s : State) : takeRequest whole p req s = .next (respond .badCommand (acceptRequest s p req)) := by
  cases hdecode : decode req with
  | error e => rw [takeRequest_of_error hdecode, badCommand_eq]
  | ok i =>
    rw [takeRequest_of_decode hdecode, exec_of_not_wellFormed (h i hdecode), startCommand_of_not_wellFormed (h i hdecode),
      ite_self]

/-- Settles O7: latching the request and answering it write its port and no other field of the state. -/
theorem illegalRequestChangesNothing : Obligations.IllegalRequestChangesNothing := by
  intro s p req rest hinputs hready hillegal
  have hstep : step s = .next (respond .badCommand (acceptRequest { s with inputs := rest } p req)) := by
    rcases hinputs with h | h
    · exact (step_cons_of_ready h (by simp [hready])).trans (takeRequest_of_illegal hillegal true p _)
    · exact (step_cons_of_ready h (by simp [hready])).trans (takeRequest_of_illegal hillegal false p _)
  refine ⟨_, hstep, ?_, fun q hq => ?_, rfl, sameTable_of_eq rfl rfl rfl, rfl, rfl, rfl⟩
  · rw [portOf_respond, acceptRequest_active, if_pos rfl]
    rfl
  · rw [portOf_respond, acceptRequest_active, if_neg hq, portOf_acceptRequest, if_neg hq]
    rfl

/-! ### Faults of `TRANSLATE` (rule R257) -/

/-- Before its lookup a `TRANSLATE` does nothing but answer (rules R94, R185, R194). -/
theorem exec_translate_answers_or_looks_up {s t : State} {dev : DevId} {ia : Word} {code : BitVec 2}
    (h : exec (.translate dev ia code) s = .next t) :
    (∃ reply, t = respond reply s) ∨
    ∃ acc cfg st g, accessOfCode code = some acc ∧ usableConfig s dev = some (cfg, st) ∧
      lookupGranule cfg st ia = .ok g := by
  rw [exec_translate] at h
  cases hacc : accessOfCode code with
  | none =>
    rw [execTranslate, hacc] at h
    exact .inl ⟨_, (Host.Outcome.next.inj h).symm⟩
  | some acc =>
    rcases execTranslate_cases s dev ia hacc with
      ⟨-, hexec⟩ | ⟨cfg, st, hcfg, ⟨r, hregion, hexec⟩ | ⟨g, hregion, -⟩⟩
    · exact .inl ⟨_, Host.Outcome.next.inj (h.symm.trans hexec)⟩
    · obtain ⟨reply, hreply⟩ :=
        finishJob_of_ne_success .translate cfg ia s (lookupGranule_error_ne_success hregion)
      exact .inl ⟨reply, (Host.Outcome.next.inj (h.symm.trans hexec)).trans hreply⟩
    · exact .inr ⟨acc, cfg, st, g, rfl, hcfg, hregion⟩

/-- A walk whose answer has the words of a fault has not succeeded, so it inserts nothing (rule R189). -/
theorem cacheAfterWalk_of_fault {ia : Word} {r : WalkResult} {f : FaultInfo}
    (h : replyWords (walkReply ia r) = replyWords (.fault f)) (cap : Nat) (m : List (Key × Entry))
    (cfg : TranslationConfig) : cacheAfterWalk cap m cfg r = m := by
  cases r with
  | success e =>
    obtain ⟨e', hentry, -⟩ := replyWords_eq_entry h.symm
    cases hentry
  | failure f' => rfl
  | configError => rfl

/-- Settles O43: a fault before the lookup is all the command does, one on a hit follows the counted hit, and one of the walk
follows the counted miss. -/
theorem translateFaultsArePrecise : Obligations.TranslateFaultsArePrecise := by
  intro s t dev ia code f hexec hanswer
  rcases exec_translate_answers_or_looks_up hexec with ⟨reply, rfl⟩ | ⟨acc, cfg, st, g, hacc, hcfg, hregion⟩
  · obtain ⟨-, htable, hiotlb, houtside, -⟩ := respond_frame reply s
    exact ⟨hiotlb, houtside, .inl htable⟩
  · cases hprobe : probe s.iotlb cfg g ia with
    | some e =>
      obtain ⟨hvalid, -, -⟩ := usableConfig_eq_some.1 hcfg
      cases hexec.symm.trans (exec_translate_of_hit hacc hcfg hregion hprobe)
      obtain ⟨-, hcounted, hiotlb, houtside, -⟩ := respond_countLookup_frame hvalid (hitReply e st ia acc) true
      exact ⟨hiotlb, houtside, .inr (.inl hcounted)⟩
    | none =>
      obtain ⟨t', hexec', hanswer', hiotlb, hcounted, houtside, -⟩ := exec_translate_of_miss hacc hcfg hregion hprobe
      cases hexec.symm.trans hexec'
      rw [cacheAfterWalk_of_fault (hanswer'.replyWords_eq hanswer)] at hiotlb
      exact ⟨hiotlb, houtside, .inr (.inr hcounted)⟩

/-! ### Refused configs (rules R194, R205, R237, R258) -/

theorem stageOfCode_eq_none {code : BitVec 2} (h : code = 0 ∨ code = 3) : stageOfCode code = none := by
  rcases h with rfl | rfl
  · rfl
  · rfl

section
variable {s : State} {dev : DevId} {cfg : TranslationConfig} {st : Stage} {ia : Word} {code : BitVec 2} {i : Instr}

theorem usableConfig_of_invalid (h : validConfig s dev = none) : usableConfig s dev = none := by
  rw [usableConfig, h]

theorem usableConfig_of_illegal (hvalid : validConfig s dev = some cfg)
    (h : cfg.aa64 = false ∨ stageOfCode cfg.stage = none) : usableConfig s dev = none := by
  refine Option.eq_none_iff_forall_ne_some.2 fun ⟨cfg', st⟩ hcfg => ?_
  obtain ⟨hvalid', haa64, hstage⟩ := usableConfig_eq_some.1 hcfg
  cases hvalid.symm.trans hvalid'
  rcases h with h | h
  · exact nomatch h.symm.trans haa64
  · exact nomatch h.symm.trans hstage

/-- `TRANSLATE` and `PTW` of a device without a usable config are refused (rules R183, R194). -/
theorem exec_of_unusableConfig (hi : i = .translate dev ia code ∨ i = .ptw dev ia code) (hwf : i.wellFormed = true)
    (hcfg : usableConfig s dev = none) : exec i s = .next (respond .configError s) := by
  rcases hi with rfl | rfl
  · obtain ⟨acc, hacc⟩ := Option.isSome_iff_exists.1 hwf
    rw [exec_translate_of_acc hacc, translateStepA, hcfg]
    rfl
  · obtain ⟨acc, hacc⟩ := Option.isSome_iff_exists.1 hwf
    rw [exec_ptw_of_acc hacc, ptwStepA, hcfg]
    rfl

theorem stage1Region_of_unwalkable {r : RegionIx} (hselect : select cfg ia = some r)
    (henabled : (regionOf cfg r).disabled = false) (hwalkable : walkable1 (regionOf cfg r) = none) :
    stage1Region cfg ia = .error .configError := by
  simp [stage1Region, hselect, henabled, hwalkable]

theorem lookupGranule_s2_of_unwalkable (h : walkable2 cfg.s2 = none) (ia : Word) :
    lookupGranule cfg .s2 ia = .error .configError := by
  rw [lookupGranule, h]

/-- What the lookup of `TRANSLATE` refuses, the dispatcher refuses too (rules R140, R160, R185). -/
theorem dispatch_of_lookupGranule_configError (hstage : stageOfCode cfg.stage = some st)
    (h : lookupGranule cfg st ia = .error .configError) : dispatch cfg ia = .done .configError := by
  cases st with
  | s1 =>
    rcases stage1Region_cases cfg ia with hregion | hregion | ⟨r, g, hregion, -⟩
    · exact nomatch h.symm.trans (lookupGranule_s1_of_error hregion)
    · rw [dispatch, hstage, beginWalk1, hregion]
    · exact nomatch h.symm.trans (lookupGranule_s1_of_ok hregion)
  | s2 =>
    cases hwalkable : walkable2 cfg.s2 with
    | none => simp only [dispatch, hstage, hwalkable, if_true]
    | some g => exact nomatch h.symm.trans (lookupGranule_s2_of_walkable2 hwalkable ia)

/-- `TRANSLATE` is refused before its lookup and `PTW` before its first fetch (rules R140, R160, R185). -/
theorem exec_of_unwalkable (hi : i = .translate dev ia code ∨ i = .ptw dev ia code) (hwf : i.wellFormed = true)
    (hcfg : usableConfig s dev = some (cfg, st)) (hregion : lookupGranule cfg st ia = .error .configError) :
    exec i s = .next (respond .configError s) := by
  rcases hi with rfl | rfl
  · obtain ⟨acc, hacc⟩ := Option.isSome_iff_exists.1 hwf
    rw [exec_translate_of_lookupGranule_error hacc hcfg hregion, finishJob_translate]
    rfl
  · obtain ⟨acc, hacc⟩ := Option.isSome_iff_exists.1 hwf
    obtain ⟨-, -, hstage⟩ := usableConfig_eq_some.1 hcfg
    rw [exec_ptw_of_usableConfig hacc hcfg,
      runWalk_of_dispatch_done (dispatch_of_lookupGranule_configError hstage hregion)]
    rfl

/-- A walking command is refused for its config's format and stage, and for a region or descriptor it would walk. -/
theorem exec_of_refusedConfig (hi : i = .translate dev ia code ∨ i = .ptw dev ia code) (hwf : i.wellFormed = true)
    (hvalid : validConfig s dev = some cfg)
    (h : (cfg.aa64 = false ∨ stageOfCode cfg.stage = none) ∨
      ∃ st, stageOfCode cfg.stage = some st ∧ lookupGranule cfg st ia = .error .configError) :
    exec i s = .next (respond .configError s) := by
  rcases h with hillegal | ⟨st, hstage, hregion⟩
  · exact exec_of_unusableConfig hi hwf (usableConfig_of_illegal hvalid hillegal)
  · cases haa64 : cfg.aa64 with
    | false => exact exec_of_unusableConfig hi hwf (usableConfig_of_illegal hvalid (.inl haa64))
    | true => exact exec_of_unwalkable hi hwf (usableConfig_eq_some.2 ⟨hvalid, haa64, hstage⟩) hregion

/-- The table commands that create no record refuse a device without one (rule R237). -/
theorem exec_of_absentRecord (hi : i = .cfgInv dev ∨ i = .cntRead dev ∨ i = .cntClr dev) (hdev : deviceOf s dev = none) :
    exec i s = .next (respond .configError s) := by
  rcases hi with rfl | rfl | rfl
  · exact exec_cfgInv_of_absent hdev
  · exact exec_cntRead_of_absent hdev
  · exact exec_cntClr_of_absent hdev

theorem exec_tlbInsert_of_invalid {iap ta : Word} {tg lvl perm : BitVec 2}
    (hwf : (Instr.tlbInsert dev iap ta tg lvl perm).wellFormed = true) (hvalid : validConfig s dev = none) :
    exec (.tlbInsert dev iap ta tg lvl perm) s = .next (respond .configError s) := by
  obtain ⟨g, hoperands⟩ := Option.isSome_iff_exists.1 hwf
  simp only [exec_tlbInsert, execTlbInsert, hoperands, hvalid, refuseConfig_eq]

theorem exec_tlbLookup_of_invalid (hvalid : validConfig s dev = none) (rgn : RegionIx) (ia : Word) :
    exec (.tlbLookup dev rgn ia) s = .next (respond .configError s) := by
  rw [exec_tlbLookup, execTlbLookup, hvalid, refuseConfig_eq]

theorem lookupRegion_eq_none {rgn : RegionIx} (h : cfg.stage = 0 ∨ cfg.stage = 3 ∨
    (cfg.stage = 1 ∧ (regionOf cfg rgn).tg = 0) ∨ (cfg.stage = 2 ∧ cfg.s2.tg = 0)) : lookupRegion cfg rgn = none := by
  rcases h with hstage | hstage | ⟨hstage, htg⟩ | ⟨hstage, htg⟩
  · rw [lookupRegion, lookupTag, stageOfCode_eq_none (.inl hstage)]
  · rw [lookupRegion, lookupTag, stageOfCode_eq_none (.inr hstage)]
  · have hs1 : stageOfCode cfg.stage = some .s1 := by rw [hstage]; rfl
    have hnone : granuleOfTag (regionOf cfg rgn).tg = none := by rw [htg]; rfl
    simp only [lookupRegion, lookupTag, hs1, hnone]
  · have hs2 : stageOfCode cfg.stage = some .s2 := by rw [hstage]; rfl
    have hnone : granuleOfTag cfg.s2.tg = none := by rw [htg]; rfl
    simp only [lookupRegion, lookupTag, hs2, hnone]

theorem exec_tlbLookup_of_no_granule {rgn : RegionIx} (hvalid : validConfig s dev = some cfg)
    (hregion : lookupRegion cfg rgn = none) (ia : Word) :
    exec (.tlbLookup dev rgn ia) s = .next (respond .configError s) := by
  simp only [exec_tlbLookup, execTlbLookup, hvalid, hregion, refuseConfig_eq]

end

/-- Settles O59: each refused command answers on the state as it was. -/
theorem configErrorChangesNothing : Obligations.ConfigErrorChangesNothing := by
  intro s i dev hwf hrefused
  have hexec : exec i s = .next (respond .configError s) := by
    rcases hrefused with ⟨hdev, hi⟩ | ⟨hvalid, ⟨ia, code, hi⟩ | ⟨rgn, ia, rfl⟩ | ⟨iap, ta, tg, lvl, perm, rfl⟩⟩ |
      ⟨cfg, ia, code, hvalid, hi, hcfg⟩ | ⟨cfg, rgn, ia, hvalid, rfl, hcfg⟩
    · exact exec_of_absentRecord hi hdev
    · exact exec_of_unusableConfig hi hwf (usableConfig_of_invalid hvalid)
    · exact exec_tlbLookup_of_invalid hvalid rgn ia
    · exact exec_tlbInsert_of_invalid hwf hvalid
    · refine exec_of_refusedConfig hi hwf hvalid ?_
      rcases hcfg with haa64 | hstage | hstage | ⟨hstage, hwalkable⟩ | ⟨hstage, r, hselect, henabled, hwalkable⟩
      · exact .inl (.inl haa64)
      · exact .inl (.inr (stageOfCode_eq_none (.inl hstage)))
      · exact .inl (.inr (stageOfCode_eq_none (.inr hstage)))
      · exact .inr ⟨.s2, by rw [hstage]; rfl, lookupGranule_s2_of_unwalkable hwalkable ia⟩
      · exact .inr ⟨.s1, by rw [hstage]; rfl,
          lookupGranule_s1_of_error (stage1Region_of_unwalkable hselect henabled hwalkable)⟩
    · exact exec_tlbLookup_of_no_granule hvalid (lookupRegion_eq_none hcfg) ia
  obtain ⟨hanswer, htable, hiotlb, hquiet⟩ := respond_frame .configError s
  exact ⟨_, hexec, hanswer, hiotlb, htable, hquiet⟩

/-! ### Reset of a running engine (rules R280, R281) -/

theorem deviceOf_engineReset (s : State) (d : DevId) : deviceOf (engineReset s) d = none := by
  rw [deviceOf, engineReset_ctx, assocGet_nil]

theorem portOf_engineReset (s : State) (p : Nat) : portOf (engineReset s) p = Port.reset := by
  rw [portOf, engineReset_ports, assocGet_nil, Option.getD_none]

theorem step_reset {s : State} {rest : List Input} (h : s.inputs = .reset :: rest) :
    step s = .next (engineReset { s with inputs := rest }) :=
  step_cons_of_ready h rfl

/-- Settles O13: after the reset every port is as before its first command, so a turn finds nothing in flight. -/
theorem resetDropsCommandsInFlight : Obligations.ResetDropsCommandsInFlight := by
  intro s rest hinputs
  have hdropped (p : Nat) : (portOf (engineReset { s with inputs := rest }) p).inflight = none :=
    congrArg Port.inflight (portOf_engineReset _ p)
  exact ⟨_, step_reset hinputs, rfl, deviceOf_engineReset _, rfl, hdropped, fun p => takeTurn_of_idle (hdropped p),
    ⟨fun _ => rfl, rfl⟩, rfl, rfl⟩

end Sys2Proof.Machine
end
